-- ==== Sys2Proof/Word.lean ====
section
/-! DEFINITION. The bit-vector types of the block: bytes, 16-bit quantities and 24-bit command words (spec 00 R11, 30 R100). -/

namespace Sys2Proof

/-- A byte: 8 bits, unsigned (00 R11). -/
abbrev Byte := BitVec 8

/-- A 16-bit quantity: a checksum register, an `arg`, a response value. -/
abbrev Half := BitVec 16

/-- A command word: 24 bits (30 R100). -/
abbrev CmdWord := BitVec 24

end Sys2Proof
end

