-- ==== Sys2Proof/Config.lean ====
section
/-! DEFINITION. What an implementation fixes: the one open parameter `RXMAX` (spec 00 R7, 92 D8, 93 U10). The fixed constants of 00 R6 stand in Sys2Proof/Machine/Constants.lean. -/

namespace Sys2Proof

/-- The implementation's choice of `RXMAX`, counted from its least value 6. Opaque: nothing is known of it but its
range, so every theorem holds for every `RXMAX` (93 U10). Log entry 1. -/
opaque Config.rxmaxChoice : Fin 65530

/-- `RXMAX`, the capacity in bytes of RXBUF, `6 <= RXMAX <= 65535` (00 R7). -/
def Config.rxmax : Nat := Config.rxmaxChoice.val + 6

end Sys2Proof
end

