-- ==== Sys2Proof/Machine/Constants.lean ====
section
/-! DEFINITION. The fixed constants of spec 00 R6, each once and by name (93 U4: a corrected value changes one definition), the known command codes of 30 R92, and the two memory sizes. -/

namespace Sys2Proof

/-- `POLY`: XORed into the register after bit 16 has been shifted out set. -/
abbrev Config.POLY : Half := 0x1021#16
/-- `INIT`: the initial checksum register value. -/
abbrev Config.INIT : Half := 0x0000#16
/-- `BIT16`: the seventeenth bit of the "17-bit-capable register". -/
abbrev Config.BIT16 : BitVec 17 := 0x10000#17
/-- `TODEV`: direction byte host to device. -/
abbrev Config.TODEV : Byte := 0x80#8
/-- `FROMDEV`: direction byte device to host. -/
abbrev Config.FROMDEV : Byte := 0x40#8
/-- `ACK`: acknowledge byte. -/
abbrev Config.ACK : Byte := 0x06#8
/-- `STOP`: stop byte. -/
abbrev Config.STOP : Byte := 0x0D#8
/-- `ESC`: escape introducer. -/
abbrev Config.ESC : Byte := 0x1B#8
/-- `ESCMASK`: an escaped byte travels as `ESC` then `byte XOR ESCMASK`. -/
abbrev Config.ESCMASK : Byte := 0xFF#8
/-- `ESCSET`: the bytes that are escaped. -/
abbrev Config.ESCSET : List Byte := [STOP, ACK, ESC, TODEV, FROMDEV]
/-- `NULTYPE`: a third first-byte value the decomposer accepts; it stands for no direction (93 U5). -/
abbrev Config.NULTYPE : Byte := 0x00#8
/-- `MINLEN`: least unescaped length of a non-acknowledge frame. -/
abbrev Config.MINLEN : Nat := 6
/-- `NPLACE`: number of trailing placeholder bytes in the checksummed message. -/
abbrev Config.NPLACE : Nat := 2

/-- The placeholder bytes: `NPLACE` zero bytes (00 glossary, 40 R124). -/
abbrev Config.placeholders : List Byte := List.replicate NPLACE 0x00#8

/-- The capacity of RXDATA, `RXMAX - 6` bytes (20 R61), for a given `RXMAX`. -/
abbrev Config.rxdataSize (rxmax : Nat) : Nat := rxmax - MINLEN

/-- The known values of commandId, for reference only: the block does not interpret commandId (30 R92). -/
def Config.knownCommands : List (Byte × String) :=
  [(0x01, "get-type"), (0x02, "get-serial-number"), (0x09, "set-clock"), (0x10, "get-register"),
   (0x11, "put-register"), (0x9B, "get-event-status"), (0x9C, "clear-event-status"),
   (0xA0, "log-readout"), (0xA1, "log-readout"), (0xA2, "log-readout"), (0xA3, "log-readout")]

end Sys2Proof
end

