-- ==== Sys2Proof/Syntax.lean ====
section
/-! DEFINITION. The instructions: one constructor per row of spec/opcode_table.json (sixteen operations, 30 R100, and twelve wire symbols, 30 R80), the words that carry them, and the inputs of the block. -/

namespace Sys2Proof

/-- The two closed sets of 00 R2: the operations of the command channel and the wire symbols of the byte stream. -/
inductive Instr where
  /-- `NOP` (44 R220). -/
  | nop
  /-- `GET n`, `n` a status register number (44 R221). -/
  | get (n : Half)
  /-- `CRC.CLR` (40 R126). -/
  | crcClr
  /-- `CRC.PUT b` (40 R127). -/
  | crcPut (b : Byte)
  /-- `ESC.PUT b` (41 R145). -/
  | escPut (b : Byte)
  /-- `UNE.CLR` (41 R148). -/
  | uneClr
  /-- `UNE.PUT b` (41 R146). -/
  | unePut (b : Byte)
  /-- `UNE.END` (41 R147). -/
  | uneEnd
  /-- `TX.START t`, `t` the type byte (42 R163). -/
  | txStart (t : Byte)
  /-- `TX.PUT b` (42 R164). -/
  | txPut (b : Byte)
  /-- `TX.END` (42 R165). -/
  | txEnd
  /-- `TX.CLR` (42 R166). -/
  | txClr
  /-- `RX.CLR` (43 R184). -/
  | rxClr
  /-- `RX.PUT b` (43 R185). -/
  | rxPut (b : Byte)
  /-- `RX.END` (43 R186). -/
  | rxEnd
  /-- `RX.LD i`, `i` a data index (43 R199). -/
  | rxLd (i : Half)
  /-- Wire symbol `START_TODEV`: `80` as the first byte (30 R80). -/
  | startToDev
  /-- Wire symbol `START_FROMDEV`: `40` as the first byte. -/
  | startFromDev
  /-- Wire symbol `START_NUL`: `00` as the first byte. -/
  | startNul
  /-- Wire symbol `ACK`: `06` as the first byte. -/
  | ack
  /-- Wire symbol `STOP`: `0D` as the last byte. -/
  | stop
  /-- Wire symbol `ESC x`: `1B x` inside the payload, `x` not one of the five canonical second bytes (those have
  constructors of their own). -/
  | esc (x : Byte)
  /-- Wire symbol `ESC_STOP`: `1B F2`, payload byte 0x0D. -/
  | escStop
  /-- Wire symbol `ESC_ACK`: `1B F9`, payload byte 0x06. -/
  | escAck
  /-- Wire symbol `ESC_ESC`: `1B E4`, payload byte 0x1B. -/
  | escEsc
  /-- Wire symbol `ESC_TODEV`: `1B 7F`, payload byte 0x80. -/
  | escToDev
  /-- Wire symbol `ESC_FROMDEV`: `1B BF`, payload byte 0x40. -/
  | escFromDev
  /-- Wire symbol `LIT b`: one payload byte `b`, `b` not the introducer. -/
  | lit (b : Byte)
deriving DecidableEq, Repr

/-- Where a wire symbol stands (30 R86): the first byte of a raw input, inside it, or the last byte. -/
inductive WirePos where
  | first
  | interior
  | last
deriving DecidableEq, Repr

/-- What spells one instruction: a command word (30 R100), or the bytes of a wire symbol in wire order together with
the place where they stand (30 R80, R86). -/
inductive FetchWord where
  | cmd (w : CmdWord)
  | wire (p : WirePos) (bytes : List Byte)
deriving DecidableEq, Repr

/-- One input of the block (00 R9, 30 R106): a command word, the reset signal, or a command word that is accepted and cut
off by reset before it is answered (70 R260). There is no other. -/
inductive Input where
  | word (w : CmdWord)
  | rst
  | cut (w : CmdWord)
deriving DecidableEq, Repr

/-- Why a word is no instruction: the first three are the field conditions of 30 R102, the last says that the bytes are
no symbol of 30 R80 where they stand. -/
inductive DecodeReject where
  /-- `opc` is not one of the sixteen values of 30 R100. -/
  | undefinedOpcode
  /-- The operation takes no operand and `arg` is not 0. -/
  | argNotZero
  /-- The operation takes a byte and `arg[15:8]` is not 0. -/
  | argHighNotZero
  /-- The bytes are no wire symbol at that position. -/
  | noSuchSymbol
deriving DecidableEq, Repr

/-- The units of the block (00 R3) and the system operations; the upper nibble of `opc` names them (30 R100). -/
inductive BlockUnit where
  | sys
  | ce
  | ec
  | tx
  | rx
deriving DecidableEq, Repr

end Sys2Proof
end

