-- ==== Sys2Proof/Machine/State.lean ====
section
/-! DEFINITION. The state of the block as spec 10 R20 lists it, the responses of 30 R104, the model's two fields for inputs and outputs, the reasons a step can stop, and the state after reset (10 R42). -/

namespace Sys2Proof.Machine

/-- `TXPH` (10 R25): 0 IDLE, 1 OPEN. -/
inductive TxPhase where
  /-- No frame open. -/
  | idle
  /-- The type byte of a non-acknowledge frame has been emitted and the stop byte has not. -/
  | opened
deriving DecidableEq, Repr

/-- `RXSTAT` (10 R30): the decomposer's phase and its result code. -/
inductive RxStat where
  /-- 0 `FILL`: no decode done since reset or `RX.CLR`. -/
  | fill
  /-- 1 `FRAME`: a non-acknowledge frame is held. -/
  | frame
  /-- 2 `ACKD`: the input was an acknowledge. -/
  | ackd
  /-- 3 `EMPTY`: EmptyFrame. -/
  | empty
  /-- 4 `SHORT`: FrameTooShort. -/
  | short
  /-- 5 `TYPE`: InvalidFrameType. -/
  | type
  /-- 6 `CSUM`: ChecksumInvalid. -/
  | csum
  /-- 7 `OVFL`: more than `RXMAX` raw bytes were put; nothing was decoded. -/
  | ovfl
deriving DecidableEq, Repr

/-- The response code `rc` (30 R104, 60 R232); the values 6 to 15 are never produced and have no constructor (93 U9). -/
inductive Rc where
  /-- 0: the operation took effect. -/
  | ok
  /-- 1: illegal command word. -/
  | illegal
  /-- 2: the operation is out of phase. -/
  | seq
  /-- 3: data index at or beyond `RXDLEN`. -/
  | range
  /-- 4: the raw buffer is full. -/
  | ovf
  /-- 5: the region ended in a dangling escape. -/
  | trail
deriving DecidableEq, Repr

/-- One response `(rc, val, out)` (30 R104). -/
structure Response where
  rc  : Rc
  val : Half
  out : List Byte
deriving DecidableEq, Repr

/-- A memory of the block: its written cells as (index, byte), indices strictly rising. A cell that is not listed has
not been written since reset and has no value (10 R42; log entry 2). -/
abbrev Memory := List Host.Cell

/-- The whole state of the block (10 R20), then the model's own two fields (log entry 3). -/
structure State where
  /-- `CRC`, the checksum engine's register (10 R21). -/
  crc : Half
  /-- `UNEPEND`, the unstuffer's pending introducer (10 R23). -/
  unepend : Bool
  /-- `TXPH` (10 R25). -/
  txph : TxPhase
  /-- `TXCNT`, payload bytes put, saturating at 2 (10 R26). -/
  txcnt : BitVec 2
  /-- `TXCRC`, the composer's private checksum register (10 R27). -/
  txcrc : Half
  /-- `RXLEN`, raw bytes stored (10 R28). -/
  rxlen : Half
  /-- `RXOVF` (10 R29). -/
  rxovf : Bool
  /-- `RXSTAT` (10 R30). -/
  rxstat : RxStat
  /-- `RXTYPE` (10 R31). -/
  rxtype : Byte
  /-- `RXADDR` (10 R32). -/
  rxaddr : Byte
  /-- `RXCMD` (10 R33). -/
  rxcmd : Byte
  /-- `RXDLEN` (10 R34). -/
  rxdlen : Half
  /-- `RXBUF`, `RXMAX` bytes (20 R60). -/
  rxbuf : Memory
  /-- `RXDATA`, `RXMAX - 6` bytes (20 R61). -/
  rxdata : Memory
  /-- The MODEL's own: inputs the environment has offered and the block has not accepted, oldest first. -/
  pending : List Input
  /-- The MODEL's own: the responses given so far, oldest first (30 R106). -/
  responses : List Response
deriving DecidableEq, Repr

/-- Why the machine can stop. No rule of the spec leads to either, and no state that satisfies `State.Inv` raises one. -/
inductive Fault where
  /-- Raised by `memWrite` for an index outside the memory: 20 R62 says that no rule issues such an access. Safe: the
  model stops where the spec says nothing happens. -/
  | indexOutsideMemory
  /-- Raised by `memRead` for a cell that nothing has written since reset, a cell that does not exist among them: 20 R62
  says that it cannot occur. Safe: no value is chosen. -/
  | unwrittenCell
deriving DecidableEq, Repr

/-- Why a step can be refused: never in this model, since every command word is answered (30 R102, R104). -/
inductive Refusal where
  /-- Raised by `exec` for an instruction that has no meaning yet; safe. No arm of this model answers it. -/
  | notModelled (mnemonic : String)
deriving DecidableEq, Repr

/-- The machine right after reset (10 R42): every register zero, no memory cell written; nothing offered and nothing
answered. -/
def State.reset : State where
  crc := Config.INIT
  unepend := false
  txph := .idle
  txcnt := 0
  txcrc := 0
  rxlen := 0
  rxovf := false
  rxstat := .fill
  rxtype := 0
  rxaddr := 0
  rxcmd := 0
  rxdlen := 0
  rxbuf := []
  rxdata := []
  pending := []
  responses := []

end Sys2Proof.Machine
end

