-- ==== Sys2Proof/Machine/Flags.lean ====
section
/-! DEFINITION. The numbers of the phases, result codes and response codes, the composer's saturating counter, and the status registers SR0 to SR10 (spec 10 R25, R26, R30, R40; 60 R232). The block has no condition codes (10 R37). -/

namespace Sys2Proof.Machine

/-- A one-bit flag as its bit. -/
def flagBit (b : Bool) : BitVec 1 := BitVec.ofBool b

/-- The bit of `TXPH` (10 R25). -/
def txPhaseBit : TxPhase → BitVec 1
  | .idle => 0
  | .opened => 1

/-- The number of a value of `RXSTAT` (10 R30). -/
def rxStatCode : RxStat → BitVec 3
  | .fill => 0
  | .frame => 1
  | .ackd => 2
  | .empty => 3
  | .short => 4
  | .type => 5
  | .csum => 6
  | .ovfl => 7

/-- The number of a response code, 4 bits (60 R232). -/
def rcCode : Rc → BitVec 4
  | .ok => 0
  | .illegal => 1
  | .seq => 2
  | .range => 3
  | .ovf => 4
  | .trail => 5

/-- `min(2, TXCNT + 1)`, computed without wrap (10 R26). -/
def txCountNext (c : BitVec 2) : BitVec 2 := BitVec.ofNat 2 (min 2 (c.toNat + 1))

/-- `SR[n]` zero-extended to 16 bits, reserved bits 0; none for a number that does not exist (10 R40). -/
def statusRegister (s : State) : Nat → Option Half
  | 0 => some s.crc
  | 1 => some (0#15 ++ flagBit s.unepend)
  | 2 => some (0#13 ++ s.txcnt ++ txPhaseBit s.txph)
  | 3 => some s.txcrc
  | 4 => some s.rxlen
  | 5 => some (0#15 ++ flagBit s.rxovf)
  | 6 => some (0#13 ++ rxStatCode s.rxstat)
  | 7 => some (0#8 ++ s.rxtype)
  | 8 => some (0#8 ++ s.rxaddr)
  | 9 => some (0#8 ++ s.rxcmd)
  | 10 => some s.rxdlen
  | _ => none

end Sys2Proof.Machine
end

