-- ==== Sys2Proof/Machine/Operands.lean ====
section
/-! DEFINITION. Fields of a command word, the operand classes (spec 30 R100, R102), the legal operand values of `GET` and `TX.START`, and the byte halves of a 16-bit value (00 R12). -/

namespace Sys2Proof

/-- `opc = word[23:16]` (30 R100). -/
def opcField (w : CmdWord) : Byte := w.extractLsb' 16 8

/-- `arg = word[15:0]` (30 R100). -/
def argField (w : CmdWord) : Half := w.extractLsb' 0 16

/-- The command word with the given fields. -/
def cmdWord (opc : Byte) (arg : Half) : CmdWord := opc ++ arg

/-- `hi(v) = v[15:8]` (00 R12). -/
def hi (v : Half) : Byte := v.extractLsb' 8 8

/-- `lo(v) = v[7:0]` (00 R12). -/
def lo (v : Half) : Byte := v.extractLsb' 0 8

/-- `zext_16` of a byte (00 R11). -/
def zext16 (b : Byte) : Half := b.setWidth 16

/-- Operand class none: `arg` must be 0 (30 R102). -/
def operandNone (arg : Half) (i : Instr) : Except DecodeReject Instr :=
  if arg = 0 then .ok i else .error .argNotZero

/-- Operand class byte: `arg[15:8]` must be 0 and the operand is `arg[7:0]` (30 R102). -/
def operandByte (arg : Half) (i : Byte → Instr) : Except DecodeReject Instr :=
  if hi arg = 0 then .ok (i (lo arg)) else .error .argHighNotZero

/-- Operand classes register number and index: all 16 bits of `arg` (30 R100). -/
def operandArg (arg : Half) (i : Half → Instr) : Except DecodeReject Instr :=
  .ok (i arg)

/-- Status registers 0 to 10 exist (10 R40, 30 R102). -/
def isStatusNumber (n : Half) : Bool := decide (n.toNat ≤ 10)

/-- The type bytes the composer accepts: 0x80, 0x40, 0x06 (42 R163, R168). -/
def isStartType (t : Byte) : Bool := t == Config.TODEV || t == Config.FROMDEV || t == Config.ACK

/-- The second bytes of the five canonical escape pairs (30 R80): the complements of the escape set. -/
def isCanonicalSecond (x : Byte) : Bool := Config.ESCSET.contains (x ^^^ Config.ESCMASK)

end Sys2Proof
end

