-- ==== Sys2Proof/Machine/Ops.lean ====
section
/-! DEFINITION. The operations the meanings share: answering (spec 30 R104), `raise` (60 R235), the one-byte memory accesses (20 R62) and their runs, and the effect of the reset signal (70 R260). -/

namespace Sys2Proof.Machine

/-- What one instruction answers. -/
abbrev Result := Host.Outcome State Fault Refusal

/-- Gives the response `r`: it follows all earlier ones (30 R106). -/
def State.respond (r : Response) (s : State) : State := { s with responses := s.responses ++ [r] }

/-- `respond(OK, val, out)` (00 R13). -/
def answer (val : Half) (out : List Byte) (s : State) : Result := .next (s.respond ⟨.ok, val, out⟩)

/-- `raise CODE`, the block's one way to refuse an operation: the response is `(CODE, 0, [])`, and the state is what the
writes before the `raise` made it (60 R235). Nothing is saved and control goes nowhere, and there is no return (60
R237, R238). -/
def raise (code : Rc) (s : State) : Result := .next (s.respond ⟨code, 0, []⟩)

/-- The byte that was last written at index `i`, if any was since reset. -/
def Memory.get : Memory → Nat → Option Byte
  | [], _ => none
  | (k, v) :: m, i => if k = i then some v else Memory.get m i

/-- Writes the byte `v` at index `i`; keeps the indices strictly rising. -/
def Memory.set : Memory → Nat → Byte → Memory
  | [], i, v => [(i, v)]
  | (k, x) :: m, i, v =>
    if i < k then (i, v) :: (k, x) :: m
    else if i = k then (i, v) :: m
    else (k, x) :: Memory.set m i v

/-- The canonical form: indices strictly rising. -/
def Memory.wf : Memory → Bool
  | [] => true
  | [_] => true
  | (a, _) :: (b, y) :: m => decide (a < b) && Memory.wf ((b, y) :: m)

/-- Every listed index exists in a memory of `size` bytes. -/
def Memory.within (size : Nat) (m : Memory) : Bool := m.all (fun c => decide (c.1 < size))

/-- `MemRead(M:i, 1)` (20 R62). A cell that is not listed has no value; a listed cell is one that `memWrite` wrote, so an
index outside the memory is never listed. -/
def memRead (m : Memory) (i : Nat) : Except Fault Byte :=
  match m.get i with
  | some v => .ok v
  | none => .error .unwrittenCell

/-- `MemWrite(M:i, 1, v)` of a memory of `size` bytes (20 R62). -/
def memWrite (size : Nat) (m : Memory) (i : Nat) (v : Byte) : Except Fault Memory :=
  if i < size then .ok (m.set i v) else .error .indexOutsideMemory

/-- The bytes at indices `i` to `i + n - 1`. -/
def readBytes (m : Memory) (i : Nat) : Nat → Except Fault (List Byte)
  | 0 => .ok []
  | n + 1 =>
    match memRead m i with
    | .error f => .error f
    | .ok v =>
      match readBytes m (i + 1) n with
      | .error f => .error f
      | .ok vs => .ok (v :: vs)

/-- Writes the bytes at indices from `i` on, in order. -/
def writeBytes (size : Nat) (m : Memory) (i : Nat) : List Byte → Except Fault Memory
  | [] => .ok m
  | v :: vs =>
    match memWrite size m i v with
    | .error f => .error f
    | .ok m' => writeBytes size m' (i + 1) vs

/-- The reset signal: one atomic step with no response that puts every register into the state of 10 R42 (70 R260). The
contents of the memories are unspecified after it: nothing counts as written. The environment's further inputs and the
responses already given are no state of the block and stay. -/
def applyReset (s : State) : State := { State.reset with pending := s.pending, responses := s.responses }

end Sys2Proof.Machine
end

