-- ==== Sys2Proof/Machine/Checksum.lean ====
section
/-! DEFINITION. The checksum engine CE: the reference functions of spec 40 R120 to R124 and the operations `CRC.CLR` and `CRC.PUT` (R126, R127). The dead branch of R133 is left out, as the rule says. -/

namespace Sys2Proof.Machine

/-- `crc_bit(r, b)` (40 R120): the register shifted left by one in 17 bits with the bit or-ed in, and the polynomial
XORed in when bit 16 has become set. -/
def crcBit (r : Half) (b : Bool) : Half :=
  let t : BitVec 17 := (r.setWidth 17 <<< 1) ||| (BitVec.ofBool b).setWidth 17
  if t &&& Config.BIT16 ≠ 0 then t.setWidth 16 ^^^ Config.POLY else t.setWidth 16

/-- `crc_byte(r, d)` (40 R121): eight bit steps, most significant bit first. -/
def crcByte (r : Half) (d : Byte) : Half :=
  [7, 6, 5, 4, 3, 2, 1, 0].foldl (fun r k => crcBit r (d.getLsbD k)) r

/-- `crc_run(r, s)` (40 R122): bytes in sequence order. -/
def crcRun (r : Half) : List Byte → Half
  | [] => r
  | d :: s => crcRun (crcByte r d) s

/-- `checksum(s)` (40 R123). -/
def checksum (s : List Byte) : Half := crcRun Config.INIT s

/-- `frame_checksum(a, c, data)` (40 R124): the placeholder bytes stand where the checksum will stand. -/
def frameChecksum (a c : Byte) (data : List Byte) : Half := checksum ([a, c] ++ data ++ Config.placeholders)

/-- `CRC.CLR` (40 R126). -/
def execCrcClr (s : State) : Result := answer 0 [] { s with crc := Config.INIT }

/-- `CRC.PUT b` (40 R127). -/
def execCrcPut (b : Byte) (s : State) : Result := answer 0 [] { s with crc := crcByte s.crc b }

end Sys2Proof.Machine
end

