-- ==== Sys2Proof/Machine/Escape.lean ====
section
/-! DEFINITION. The escape codec EC: the reference functions of spec 41 R140 to R143 and the operations `ESC.PUT`, `UNE.PUT`, `UNE.END`, `UNE.CLR` (R145 to R148). -/

namespace Sys2Proof.Machine

/-- `in_escset(b)` (41 R140). -/
def inEscSet (b : Byte) : Bool := Config.ESCSET.contains b

/-- `esc(b)`, the wire form of one region byte (41 R141). -/
def esc (b : Byte) : List Byte := if inEscSet b then [Config.ESC, b ^^^ Config.ESCMASK] else [b]

/-- `stuff(s)` (41 R142). -/
def stuff : List Byte → List Byte
  | [] => []
  | b :: s => esc b ++ stuff s

/-- `unstuff(w)` (41 R143); none is the failure `dangling`. -/
def unstuff : List Byte → Option (List Byte)
  | [] => some []
  | [b] => if b = Config.ESC then none else some [b]
  | b :: x :: w =>
    if b = Config.ESC then (unstuff w).map (fun out => (x ^^^ Config.ESCMASK) :: out)
    else (unstuff (x :: w)).map (fun out => b :: out)

/-- `ESC.PUT b` (41 R145). -/
def execEscPut (b : Byte) (s : State) : Result := answer 0 (esc b) s

/-- `UNE.PUT b` (41 R146). -/
def execUnePut (b : Byte) (s : State) : Result :=
  if s.unepend then answer 0 [b ^^^ Config.ESCMASK] { s with unepend := false }
  else if b = Config.ESC then answer 0 [] { s with unepend := true }
  else answer 0 [b] s

/-- `UNE.END` (41 R147): `TRAIL` still clears the flag. -/
def execUneEnd (s : State) : Result :=
  if s.unepend then raise .trail { s with unepend := false } else answer 0 [] s

/-- `UNE.CLR` (41 R148). -/
def execUneClr (s : State) : Result := answer 0 [] { s with unepend := false }

end Sys2Proof.Machine
end

