-- ==== Sys2Proof/Machine/Compose.lean ====
section
/-! DEFINITION. The frame composer TX: the reference function `encode` (spec 42 R160, R162, here `encodeFrame`) and the operations `TX.START`, `TX.PUT`, `TX.END`, `TX.CLR` (R163 to R166). -/

namespace Sys2Proof.Machine

/-- The type of an in-memory frame (42 R168): `encode` is defined for these three and no other. -/
inductive FrameType where
  | toDevice
  | fromDevice
  | acknowledge
deriving DecidableEq, Repr

/-- The type byte on the wire (00 R6). -/
def typeByte : FrameType → Byte
  | .toDevice => Config.TODEV
  | .fromDevice => Config.FROMDEV
  | .acknowledge => Config.ACK

/-- The wire bytes of a non-acknowledge frame of type byte `t` (42 R160). -/
def encodeBody (t a c : Byte) (data : List Byte) : List Byte :=
  let cs := frameChecksum a c data
  [t] ++ stuff ([a, c] ++ data ++ [hi cs, lo cs]) ++ [Config.STOP]

/-- `encode(t, a, c, data)` (42 R160; R162 for the acknowledge). -/
def encodeFrame (t : FrameType) (a c : Byte) (data : List Byte) : List Byte :=
  match t with
  | .acknowledge => [Config.ACK]
  | .toDevice => encodeBody Config.TODEV a c data
  | .fromDevice => encodeBody Config.FROMDEV a c data

/-- `TX.START t` (42 R163). -/
def execTxStart (t : Byte) (s : State) : Result :=
  if isStartType t = false then raise .illegal s
  else if s.txph = .opened then raise .seq s
  else
    let s := { s with txcnt := 0, txcrc := Config.INIT }
    if t = Config.ACK then answer 0 [Config.ACK] s
    else answer 0 [t] { s with txph := .opened }

/-- `TX.PUT b` (42 R164). -/
def execTxPut (b : Byte) (s : State) : Result :=
  if s.txph = .idle then raise .seq s
  else answer 0 (esc b) { s with txcrc := crcByte s.txcrc b, txcnt := txCountNext s.txcnt }

/-- `TX.END` (42 R165): the placeholder bytes enter the checksum only. -/
def execTxEnd (s : State) : Result :=
  if s.txph = .idle ∨ s.txcnt < 2 then raise .seq s
  else
    let cs := crcRun s.txcrc Config.placeholders
    answer 0 (esc (hi cs) ++ esc (lo cs) ++ [Config.STOP]) { s with txcrc := cs, txph := .idle, txcnt := 0 }

/-- `TX.CLR` (42 R166). -/
def execTxClr (s : State) : Result := answer 0 [] { s with txph := .idle, txcnt := 0, txcrc := Config.INIT }

end Sys2Proof.Machine
end

