-- ==== Sys2Proof/Machine/System.lean ====
section
/-! DEFINITION. The system operations `NOP` and `GET` (spec 44 R220, R221). -/

namespace Sys2Proof.Machine

/-- `NOP` (44 R220). -/
def execNop (s : State) : Result := answer 0 [] s

/-- `GET n` (44 R221): a number above 10 is `ILLEGAL`. -/
def execGet (n : Half) (s : State) : Result :=
  match statusRegister s n.toNat with
  | some v => answer v [] s
  | none => raise .illegal s

end Sys2Proof.Machine
end

