-- ==== Sys2Proof/WellFormed.lean ====
section
/-! DEFINITION. Which terms of Instr are instructions of the spec: the constraints of the rows GET, TX.START, ESC and LIT (opcode_table.json; spec 30 R80, R102). -/

namespace Sys2Proof

/-- The row's constraint on the operand, for each instruction. -/
def Instr.wellFormed : Instr → Bool
  | .get n => isStatusNumber n
  | .txStart t => isStartType t
  | .esc x => !isCanonicalSecond x
  | .lit b => b != Config.ESC
  | .nop | .crcClr | .crcPut _ | .escPut _ | .uneClr | .unePut _ | .uneEnd | .txPut _ | .txEnd | .txClr
  | .rxClr | .rxPut _ | .rxEnd | .rxLd _ => true
  | .startToDev | .startFromDev | .startNul | .ack | .stop => true
  | .escStop | .escAck | .escEsc | .escToDev | .escFromDev => true

end Sys2Proof
end

