-- ==== Sys2Proof/Decode.lean ====
section
/-! DEFINITION. From a command word or wire bytes to the instruction, or a rejection by name, and the encoder (spec 30 R80, R86, R100, R102; opcode_table.json). The constraints `GET n <= 10` and the types of `TX.START` are checked by those operations themselves (44 R221, 42 R163) with the same answer. -/

namespace Sys2Proof

/-- The operation of a command word (30 R100), or which condition of 30 R102 makes the word illegal. -/
def decodeCmd (w : CmdWord) : Except DecodeReject Instr :=
  let arg := argField w
  match (opcField w).toNat with
  | 0x00 => operandNone arg .nop
  | 0x01 => operandArg arg .get
  | 0x10 => operandNone arg .crcClr
  | 0x11 => operandByte arg .crcPut
  | 0x20 => operandByte arg .escPut
  | 0x21 => operandNone arg .uneClr
  | 0x22 => operandByte arg .unePut
  | 0x23 => operandNone arg .uneEnd
  | 0x30 => operandByte arg .txStart
  | 0x31 => operandByte arg .txPut
  | 0x32 => operandNone arg .txEnd
  | 0x33 => operandNone arg .txClr
  | 0x40 => operandNone arg .rxClr
  | 0x41 => operandByte arg .rxPut
  | 0x42 => operandNone arg .rxEnd
  | 0x43 => operandArg arg .rxLd
  | _ => .error .undefinedOpcode

/-- The symbol of the escape pair `1B x`: one of the five canonical rows, else the general row (30 R80). -/
def pairSymbol (x : Byte) : Instr :=
  if x = Config.STOP ^^^ Config.ESCMASK then .escStop
  else if x = Config.ACK ^^^ Config.ESCMASK then .escAck
  else if x = Config.ESC ^^^ Config.ESCMASK then .escEsc
  else if x = Config.TODEV ^^^ Config.ESCMASK then .escToDev
  else if x = Config.FROMDEV ^^^ Config.ESCMASK then .escFromDev
  else .esc x

/-- The symbol of the first byte of a raw input (30 R80, R87). -/
def decodeFirst (b : Byte) : Except DecodeReject Instr :=
  if b = Config.TODEV then .ok .startToDev
  else if b = Config.FROMDEV then .ok .startFromDev
  else if b = Config.NULTYPE then .ok .startNul
  else if b = Config.ACK then .ok .ack
  else .error .noSuchSymbol

/-- The symbol at the front of bytes that stand inside a raw input, with the bytes after it; none at the end and for an
introducer with nothing after it (30 R86). -/
def readSymbol : List Byte → Option (Instr × List Byte)
  | [] => none
  | [b] => if b = Config.ESC then none else some (.lit b, [])
  | b :: x :: rest => if b = Config.ESC then some (pairSymbol x, rest) else some (.lit b, x :: rest)

/-- The symbol that bytes are where they stand: position decides (30 R86). -/
def decodeWire : WirePos → List Byte → Except DecodeReject Instr
  | .first, [b] => decodeFirst b
  | .last, [b] => if b = Config.STOP then .ok .stop else .error .noSuchSymbol
  | .interior, bytes =>
    match readSymbol bytes with
    | some (i, []) => .ok i
    | _ => .error .noSuchSymbol
  | _, _ => .error .noSuchSymbol

/-- The instruction of a fetched word, total on any word, rejecting by name. -/
def decode : FetchWord → Except DecodeReject Instr
  | .cmd w => decodeCmd w
  | .wire p bytes => decodeWire p bytes

/-- A byte as the operand field `arg`, with `arg[15:8] = 0`. -/
def argOfByte (b : Byte) : Half := zext16 b

/-- The word of an instruction, written from 30 R100 and R80. -/
def encode : Instr → FetchWord
  | .nop => .cmd (cmdWord 0x00 0)
  | .get n => .cmd (cmdWord 0x01 n)
  | .crcClr => .cmd (cmdWord 0x10 0)
  | .crcPut b => .cmd (cmdWord 0x11 (argOfByte b))
  | .escPut b => .cmd (cmdWord 0x20 (argOfByte b))
  | .uneClr => .cmd (cmdWord 0x21 0)
  | .unePut b => .cmd (cmdWord 0x22 (argOfByte b))
  | .uneEnd => .cmd (cmdWord 0x23 0)
  | .txStart t => .cmd (cmdWord 0x30 (argOfByte t))
  | .txPut b => .cmd (cmdWord 0x31 (argOfByte b))
  | .txEnd => .cmd (cmdWord 0x32 0)
  | .txClr => .cmd (cmdWord 0x33 0)
  | .rxClr => .cmd (cmdWord 0x40 0)
  | .rxPut b => .cmd (cmdWord 0x41 (argOfByte b))
  | .rxEnd => .cmd (cmdWord 0x42 0)
  | .rxLd i => .cmd (cmdWord 0x43 i)
  | .startToDev => .wire .first [0x80]
  | .startFromDev => .wire .first [0x40]
  | .startNul => .wire .first [0x00]
  | .ack => .wire .first [0x06]
  | .stop => .wire .last [0x0D]
  | .esc x => .wire .interior [0x1B, x]
  | .escStop => .wire .interior [0x1B, 0xF2]
  | .escAck => .wire .interior [0x1B, 0xF9]
  | .escEsc => .wire .interior [0x1B, 0xE4]
  | .escToDev => .wire .interior [0x1B, 0x7F]
  | .escFromDev => .wire .interior [0x1B, 0xBF]
  | .lit b => .wire .interior [b]

/-- How many bits opcode_table.json gives the word's row: 24 for a command word, 8 a wire byte. -/
def FetchWord.nbits : FetchWord → Nat
  | .cmd _ => 24
  | .wire _ bytes => 8 * bytes.length

/-- 30 R102, said of the word alone: the five conditions under which a command word is illegal. -/
def isIllegalWord (w : CmdWord) : Bool :=
  let opc := opcField w
  let arg := argField w
  let noneClass : List Byte := [0x00, 0x10, 0x21, 0x23, 0x32, 0x33, 0x40, 0x42]
  let byteClass : List Byte := [0x11, 0x20, 0x22, 0x30, 0x31, 0x41]
  let argClass : List Byte := [0x01, 0x43]
  !(noneClass ++ byteClass ++ argClass).contains opc
    || (noneClass.contains opc && arg != 0)
    || (byteClass.contains opc && hi arg != 0)
    || (opc == 0x01 && !isStatusNumber arg)
    || (opc == 0x30 && !isStartType (lo arg))

/-- The place in a raw input where the table's row for a one-byte symbol stands: the four start values first, the stop
byte last, every other byte inside. -/
def tablePosition (b : Byte) : WirePos :=
  if b = Config.TODEV ∨ b = Config.FROMDEV ∨ b = Config.NULTYPE ∨ b = Config.ACK then .first
  else if b = Config.STOP then .last
  else .interior

/-- The word whose bits are `w` as spec/opcode_table.json numbers them: a 24-bit command word, one wire byte, or two
wire bytes with the earlier one in bits 15:8 (the table gives ESC as `0x1B00` under `0xFF00`). Log entry 5. -/
def fetchWordOfTable (nbits w : Nat) : Option FetchWord :=
  match nbits with
  | 24 => some (.cmd (BitVec.ofNat 24 w))
  | 8 => some (.wire (tablePosition (BitVec.ofNat 8 w)) [BitVec.ofNat 8 w])
  | 16 => some (.wire .interior [hi (BitVec.ofNat 16 w), lo (BitVec.ofNat 16 w)])
  | _ => none

/-- The instruction the decoder reads from a word numbered as spec/opcode_table.json numbers it. -/
def decodeTableWord (nbits w : Nat) : Option Instr :=
  match fetchWordOfTable nbits w with
  | some f =>
    match decode f with
    | .ok i => some i
    | .error _ => none
  | none => none

end Sys2Proof
end

