-- ==== Sys2Proof/Machine/Decompose.lean ====
section
/-! DEFINITION. The frame decomposer RX: the reference functions `unescape_frame` and `decode` (spec 43 R182, R180, here `unescapeFrame` and `decodeFrame`) and the operations `RX.CLR`, `RX.PUT`, `RX.END`, `RX.LD` (R184 to R186, R199). The operations that depend on `RXMAX` take it as an argument (00 R7); the meanings give them `Config.rxmax`. -/

namespace Sys2Proof.Machine

/-- The result of `decode` (43 R180). -/
inductive Decoded where
  | empty
  | short
  | type
  | csum
  | ackd
  | frame (t a c : Byte) (data : List Byte)
deriving DecidableEq, Repr

/-- `unescape_frame(raw)` for `raw = first :: rest`, so `len(raw) >= 1` (43 R182): the first and the last byte pass
through, the bytes between them are unstuffed; none is a dangling escape. -/
def unescapeFrame (first : Byte) : List Byte → Option (List Byte)
  | [] => some [first]
  | b :: bs => (unstuff (b :: bs).dropLast).map (fun mid => [first] ++ mid ++ [bs.getLastD b])

/-- `u[i]` (00 R12); every use has `i < len(u)`. -/
def byteAt (u : List Byte) (i : Nat) : Byte := u.getD i 0

/-- Steps 5 to 9 of `decode` (43 R180), on unescaped bytes whose first is a frame type. -/
def decodeFields (u : List Byte) : Decoded :=
  let m := u.length
  if m < Config.MINLEN then .short
  else
    let a := byteAt u 1
    let c := byteAt u 2
    let data := (u.take (m - 3)).drop 3
    let cs := frameChecksum a c data
    if byteAt u (m - 3) ≠ hi cs ∨ byteAt u (m - 2) ≠ lo cs then .csum
    else if byteAt u (m - 1) ≠ Config.STOP then .short
    else .frame (byteAt u 0) a c data

/-- A first byte that names a non-acknowledge frame (43 R180 step 4). -/
def isFrameType (t : Byte) : Bool := t == Config.NULTYPE || t == Config.TODEV || t == Config.FROMDEV

/-- `decode(raw)` (43 R180): the first step that returns decides. -/
def decodeFrame : List Byte → Decoded
  | [] => .empty
  | first :: rest =>
    match unescapeFrame first rest with
    | none => .short
    | some u =>
      if byteAt u 0 = Config.ACK then .ackd
      else if isFrameType (byteAt u 0) = false then .type
      else decodeFields u

/-- `RX.CLR` (43 R184): no memory cell is written (20 R75). -/
def rxClear (s : State) : State :=
  { s with rxlen := 0, rxovf := false, rxstat := .fill, rxtype := 0, rxaddr := 0, rxcmd := 0, rxdlen := 0 }

/-- `RX.PUT b` (43 R185) for a given `RXMAX`: `OVF` still sets the flag. -/
def rxPut (rxmax : Nat) (b : Byte) (s : State) : Result :=
  if s.rxstat ≠ .fill then raise .seq s
  else if s.rxlen.toNat = rxmax then raise .ovf { s with rxovf := true }
  else
    match memWrite rxmax s.rxbuf s.rxlen.toNat b with
    | .error f => .fault f
    | .ok m => answer 0 [] { s with rxbuf := m, rxlen := s.rxlen + 1 }

/-- The end of `RX.END`: the result code is kept and answered (43 R186). -/
def rxFinish (st : RxStat) (s : State) : Result := answer (0#13 ++ rxStatCode st) [] { s with rxstat := st }

/-- What `RX.END` keeps of a decode result (43 R186, 10 R31 to R34). -/
def rxKeep (rxmax : Nat) (d : Decoded) (s : State) : Result :=
  match d with
  | .empty => rxFinish .empty s
  | .short => rxFinish .short s
  | .type => rxFinish .type s
  | .csum => rxFinish .csum s
  | .ackd => rxFinish .ackd s
  | .frame _ a c data =>
    match writeBytes (Config.rxdataSize rxmax) s.rxdata 0 data with
    | .error f => .fault f
    | .ok m =>
      rxFinish .frame { s with rxaddr := a, rxcmd := c, rxdlen := BitVec.ofNat 16 data.length, rxdata := m }

/-- `RX.END` (43 R186) for a given `RXMAX`. -/
def rxEnd (rxmax : Nat) (s : State) : Result :=
  if s.rxstat ≠ .fill then raise .seq s
  else
    match readBytes s.rxbuf 0 s.rxlen.toNat with
    | .error f => .fault f
    | .ok raw =>
      let s := { s with rxtype := raw.headD 0, rxaddr := 0, rxcmd := 0, rxdlen := 0 }
      if s.rxovf then rxFinish .ovfl s else rxKeep rxmax (decodeFrame raw) s

/-- `RX.LD i` (43 R199). -/
def rxLoad (i : Half) (s : State) : Result :=
  if s.rxstat ≠ .frame then raise .seq s
  else if s.rxdlen.toNat ≤ i.toNat then raise .range s
  else
    match memRead s.rxdata i.toNat with
    | .error f => .fault f
    | .ok v => answer (zext16 v) [] s

/-- `RX.CLR` (43 R184). -/
def execRxClr (s : State) : Result := answer 0 [] (rxClear s)

/-- `RX.PUT b` (43 R185). -/
def execRxPut (b : Byte) (s : State) : Result := rxPut Config.rxmax b s

/-- `RX.END` (43 R186). -/
def execRxEnd (s : State) : Result := rxEnd Config.rxmax s

/-- `RX.LD i` (43 R199). -/
def execRxLd (i : Half) (s : State) : Result := rxLoad i s

end Sys2Proof.Machine
end

