-- ==== Sys2Proof/Machine/Wire.lean ====
section
/-! DEFINITION. The wire symbols (spec 30 R80 to R89): their bytes, the payload byte each carries, how a reader of the wire tells them apart, and their meaning when the host gives them to the block: a symbol is the sequence of the command words `RX.PUT` of its bytes, in wire order, one word and one response a step (00 R9, 20 R71; log entry 4). -/

namespace Sys2Proof.Machine

/-- The wire bytes of a symbol in wire order (30 R80); an operation has none. -/
def wireBytes : Instr → List Byte
  | .startToDev => [Config.TODEV]
  | .startFromDev => [Config.FROMDEV]
  | .startNul => [Config.NULTYPE]
  | .ack => [Config.ACK]
  | .stop => [Config.STOP]
  | .esc x => [Config.ESC, x]
  | .escStop => [Config.ESC, Config.STOP ^^^ Config.ESCMASK]
  | .escAck => [Config.ESC, Config.ACK ^^^ Config.ESCMASK]
  | .escEsc => [Config.ESC, Config.ESC ^^^ Config.ESCMASK]
  | .escToDev => [Config.ESC, Config.TODEV ^^^ Config.ESCMASK]
  | .escFromDev => [Config.ESC, Config.FROMDEV ^^^ Config.ESCMASK]
  | .lit b => [b]
  | .nop | .get _ | .crcClr | .crcPut _ | .escPut _ | .uneClr | .unePut _ | .uneEnd | .txStart _ | .txPut _
  | .txEnd | .txClr | .rxClr | .rxPut _ | .rxEnd | .rxLd _ => []

/-- The payload byte a symbol carries (30 R80, R84); start and stop bytes carry none. -/
def payloadByte : Instr → Option Byte
  | .esc x => some (x ^^^ Config.ESCMASK)
  | .escStop => some Config.STOP
  | .escAck => some Config.ACK
  | .escEsc => some Config.ESC
  | .escToDev => some Config.TODEV
  | .escFromDev => some Config.FROMDEV
  | .lit b => some b
  | .startToDev | .startFromDev | .startNul | .ack | .stop => none
  | .nop | .get _ | .crcClr | .crcPut _ | .escPut _ | .uneClr | .unePut _ | .uneEnd | .txStart _ | .txPut _
  | .txEnd | .txClr | .rxClr | .rxPut _ | .rxEnd | .rxLd _ => none

/-- The symbol the composer sends for a payload byte (30 R82): the canonical pair of a byte of the escape set, else the
byte itself. -/
def canonicalSymbol (b : Byte) : Instr :=
  if inEscSet b then pairSymbol (b ^^^ Config.ESCMASK) else .lit b

/-- The symbols inside a raw input, read left to right (30 R86); none when an introducer has nothing after it. -/
def readInterior : List Byte → Option (List Instr)
  | [] => some []
  | [b] => if b = Config.ESC then none else some [.lit b]
  | b :: x :: w =>
    if b = Config.ESC then (readInterior w).map (fun l => pairSymbol x :: l)
    else (readInterior (x :: w)).map (fun l => .lit b :: l)

/-- The command word `RX.PUT b` (30 R100). -/
def rxPutWord (b : Byte) : CmdWord := cmdWord 0x41 (argOfByte b)

/-- Wire bytes as inputs of the block: each is a command word `RX.PUT`, the only way for a byte to reach `RXBUF` (20 R60,
R71). -/
def putInputs (bytes : List Byte) : List Input := bytes.map (fun b => .word (rxPutWord b))

/-- Giving wire bytes to the block: the first is put by its command word `RX.PUT` now, with that word's one response (00
R9), and the command words of the others are the next inputs. -/
def give (rxmax : Nat) : List Byte → State → Result
  | [], s => .next s
  | b :: bs, s => rxPut rxmax b { s with pending := putInputs bs ++ s.pending }

/-- `START_TODEV` is given to the block (30 R80). -/
def execStartToDev (s : State) : Result := give Config.rxmax (wireBytes .startToDev) s

/-- `START_FROMDEV` is given to the block (30 R80). -/
def execStartFromDev (s : State) : Result := give Config.rxmax (wireBytes .startFromDev) s

/-- `START_NUL` is given to the block (30 R80, 43 R197). -/
def execStartNul (s : State) : Result := give Config.rxmax (wireBytes .startNul) s

/-- `ACK` is given to the block (30 R80, R83). -/
def execAck (s : State) : Result := give Config.rxmax (wireBytes .ack) s

/-- `STOP` is given to the block (30 R80); the block ends no reception by itself (43 R181, 92 D23). -/
def execStop (s : State) : Result := give Config.rxmax (wireBytes .stop) s

/-- `ESC x` is given to the block (30 R80, R88). -/
def execEsc (x : Byte) (s : State) : Result := give Config.rxmax (wireBytes (.esc x)) s

/-- `ESC_STOP` is given to the block (30 R80). -/
def execEscStop (s : State) : Result := give Config.rxmax (wireBytes .escStop) s

/-- `ESC_ACK` is given to the block (30 R80). -/
def execEscAck (s : State) : Result := give Config.rxmax (wireBytes .escAck) s

/-- `ESC_ESC` is given to the block (30 R80). -/
def execEscEsc (s : State) : Result := give Config.rxmax (wireBytes .escEsc) s

/-- `ESC_TODEV` is given to the block (30 R80). -/
def execEscToDev (s : State) : Result := give Config.rxmax (wireBytes .escToDev) s

/-- `ESC_FROMDEV` is given to the block (30 R80). -/
def execEscFromDev (s : State) : Result := give Config.rxmax (wireBytes .escFromDev) s

/-- `LIT b` is given to the block (30 R80). -/
def execLit (b : Byte) (s : State) : Result := give Config.rxmax (wireBytes (.lit b)) s

end Sys2Proof.Machine
end

