-- ==== Sys2Proof/Machine/Dispatch.lean ====
section
/-! DEFINITION. The meaning of every instruction: one arm per constructor of Instr, each one direct call. -/

namespace Sys2Proof.Machine

def exec (i : Instr) (s : State) : Host.Outcome State Fault Refusal :=
  match i with
  -- system (spec 44)
  | .nop => Sys2Proof.Machine.execNop s
  | .get n => Sys2Proof.Machine.execGet n s
  -- checksum engine (spec 40)
  | .crcClr => Sys2Proof.Machine.execCrcClr s
  | .crcPut b => Sys2Proof.Machine.execCrcPut b s
  -- escape codec (spec 41)
  | .escPut b => Sys2Proof.Machine.execEscPut b s
  | .uneClr => Sys2Proof.Machine.execUneClr s
  | .unePut b => Sys2Proof.Machine.execUnePut b s
  | .uneEnd => Sys2Proof.Machine.execUneEnd s
  -- frame composer (spec 42)
  | .txStart t => Sys2Proof.Machine.execTxStart t s
  | .txPut b => Sys2Proof.Machine.execTxPut b s
  | .txEnd => Sys2Proof.Machine.execTxEnd s
  | .txClr => Sys2Proof.Machine.execTxClr s
  -- frame decomposer (spec 43)
  | .rxClr => Sys2Proof.Machine.execRxClr s
  | .rxPut b => Sys2Proof.Machine.execRxPut b s
  | .rxEnd => Sys2Proof.Machine.execRxEnd s
  | .rxLd k => Sys2Proof.Machine.execRxLd k s
  -- wire symbols (spec 30 part A)
  | .startToDev => Sys2Proof.Machine.execStartToDev s
  | .startFromDev => Sys2Proof.Machine.execStartFromDev s
  | .startNul => Sys2Proof.Machine.execStartNul s
  | .ack => Sys2Proof.Machine.execAck s
  | .stop => Sys2Proof.Machine.execStop s
  | .esc x => Sys2Proof.Machine.execEsc x s
  | .escStop => Sys2Proof.Machine.execEscStop s
  | .escAck => Sys2Proof.Machine.execEscAck s
  | .escEsc => Sys2Proof.Machine.execEscEsc s
  | .escToDev => Sys2Proof.Machine.execEscToDev s
  | .escFromDev => Sys2Proof.Machine.execEscFromDev s
  | .lit b => Sys2Proof.Machine.execLit b s

end Sys2Proof.Machine
end

