-- ==== Sys2Proof/Machine/Fetch.lean ====
section
/-! DEFINITION. Taking the next input (spec 30 R106), what a command word that is no instruction does (30 R102), and offering an instruction to the block as its command words (log entries 3, 4 and 5). -/

namespace Sys2Proof.Machine

/-- The oldest input that is offered, and the state once it is accepted; none when nothing is offered. -/
def fetch (s : State) : Option (Input × State) :=
  match s.pending with
  | [] => none
  | i :: rest => some (i, { s with pending := rest })

/-- A command word that is no instruction is answered `ILLEGAL` and changes nothing else (30 R102). -/
def rejectWord (s : State) : Result := raise .illegal s

/-- The inputs that carry a spelled instruction to the block: a command word is itself, and a wire symbol is the command
words `RX.PUT` of its bytes (log entry 4). -/
def commandInputs : FetchWord → List Input
  | .cmd w => [.word w]
  | .wire _ bytes => putInputs bytes

/-- The instruction spelled `f` is offered before everything that is already offered. -/
def State.offer (s : State) (f : FetchWord) : State := { s with pending := commandInputs f ++ s.pending }

end Sys2Proof.Machine
end

