-- ==== Sys2Proof/Machine/Step.lean ====
section
/-! DEFINITION. One step of the block (spec 00 R9): the next input is taken and has its effect. -/

namespace Sys2Proof.Machine

/-- One step. With nothing offered nothing happens (30 R106); the reset signal resets, whether or not it cuts off a word
that was accepted and not yet answered (70 R260); a command word is decoded and executed. No other input exists, so each step
is one command word with its one response, or reset (00 R9). -/
def step (s : State) : Host.Outcome State Fault Refusal :=
  match fetch s with
  | none => .next s
  | some (.rst, t) => .next (applyReset t)
  | some (.cut _, t) => .next (applyReset t)
  | some (.word w, t) =>
    match decode (.cmd w) with
    | .ok i => exec i t
    | .error _ => rejectWord t

/-- `s` with the instruction whose bits are `w` (as spec/opcode_table.json numbers them) offered next: the command
word itself, or the command words `RX.PUT` that give a wire symbol's bytes. -/
def State.withFetchWord (s : State) (nbits w : Nat) : State :=
  match fetchWordOfTable nbits w with
  | some f => s.offer f
  | none => s

end Sys2Proof.Machine
end

