-- ==== Sys2Proof/Machine/Ports.lean ====
section
/-! DEFINITION. A response on the response channel's signals (spec 70 R281, for orientation only there: no step depends on this file). -/

namespace Sys2Proof.Machine

/-- `rsp_nout[2:0]`, the number of output bytes. -/
def rspNout (r : Response) : BitVec 3 := BitVec.ofNat 3 r.out.length

/-- The output bytes of a response side by side: byte `k` in bits `8k+7` to `8k`. -/
def packedOut (r : Response) : BitVec 40 := r.out.foldr (fun b acc => (acc <<< 8) ||| b.setWidth 40) 0

/-- `rsp_out[39:0]`: output byte `k` in bits `8k+7` to `8k`. The spec gives the bits above the `rsp_nout` output bytes no
value: they are whatever the port's other lines, `lines`, carry, which nothing constrains (a free value; DESIGN CHOICE,
safe, log entry 11). -/
def rspOut (lines : BitVec 40) (r : Response) : BitVec 40 :=
  packedOut r ||| ((lines >>> (8 * r.out.length)) <<< (8 * r.out.length))

/-- `rsp_rc[3:0]`. -/
def rspRc (r : Response) : BitVec 4 := rcCode r.rc

/-- `rsp_val[15:0]`. -/
def rspVal (r : Response) : Half := r.val

end Sys2Proof.Machine
end

