-- ==== Sys2Proof/Machine/Units.lean ====
section
/-! DEFINITION. Which unit an instruction belongs to (spec 30 R100), and the pseudo-operations of 30 R108 as sequences of operations. -/

namespace Sys2Proof.Machine

/-- The unit of an instruction: an operation's is named by the upper nibble of its `opc` (30 R100); a wire symbol is
given to the decomposer by `RX.PUT` (DESIGN CHOICE, log entry 4). -/
def unitOf : Instr → BlockUnit
  | .nop | .get _ => .sys
  | .crcClr | .crcPut _ => .ce
  | .escPut _ | .uneClr | .unePut _ | .uneEnd => .ec
  | .txStart _ | .txPut _ | .txEnd | .txClr => .tx
  | .rxClr | .rxPut _ | .rxEnd | .rxLd _ => .rx
  | .startToDev | .startFromDev | .startNul | .ack | .stop => .rx
  | .esc _ | .escStop | .escAck | .escEsc | .escToDev | .escFromDev | .lit _ => .rx

/-- The upper nibble of `opc` that names a unit (30 R100). -/
def unitNibble : BlockUnit → BitVec 4
  | .sys => 0
  | .ce => 1
  | .ec => 2
  | .tx => 3
  | .rx => 4

/-- The sixteen operations of 30 R100, as against the wire symbols of 30 R80. -/
def isOperation : Instr → Bool
  | .nop | .get _ | .crcClr | .crcPut _ | .escPut _ | .uneClr | .unePut _ | .uneEnd | .txStart _ | .txPut _
  | .txEnd | .txClr | .rxClr | .rxPut _ | .rxEnd | .rxLd _ => true
  | .startToDev | .startFromDev | .startNul | .ack | .stop => false
  | .esc _ | .escStop | .escAck | .escEsc | .escToDev | .escFromDev | .lit _ => false

/-- `CHECKSUM s` (30 R108). -/
def checksumOps (s : List Byte) : List Instr := [.crcClr] ++ s.map .crcPut ++ [.get 0]

/-- `STUFF s` (30 R108). -/
def stuffOps (s : List Byte) : List Instr := s.map .escPut

/-- `UNSTUFF s` (30 R108). -/
def unstuffOps (s : List Byte) : List Instr := [.uneClr] ++ s.map .unePut ++ [.uneEnd]

/-- `COMPOSE t, a, c, data`, and `COMPOSE 0x06` (30 R108). -/
def composeOps (t : FrameType) (a c : Byte) (data : List Byte) : List Instr :=
  match t with
  | .acknowledge => [.txStart Config.ACK]
  | .toDevice => [.txStart Config.TODEV, .txPut a, .txPut c] ++ data.map .txPut ++ [.txEnd]
  | .fromDevice => [.txStart Config.FROMDEV, .txPut a, .txPut c] ++ data.map .txPut ++ [.txEnd]

/-- `DECOMPOSE raw` (30 R108). -/
def decomposeOps (raw : List Byte) : List Instr := [.rxClr] ++ raw.map .rxPut ++ [.rxEnd]

end Sys2Proof.Machine
end

