-- ==== Sys2Proof/Safety.lean ====
section
/-! DEFINITION. What counts as a safe run, in the terms the statements use: the invariants of spec 10 R43 and 20 R62, the coherence of a held result, runs of operations, and the views of the units (70 R277). -/

namespace Sys2Proof.Machine

/-- Every cell at an index below `n` has been written. -/
def Memory.covers (m : Memory) (n : Nat) : Prop := ∀ k, k < n → (m.get k).isSome

/-- The invariants of 10 R43, with the two facts of 20 R62 that make every memory access of a rule a good one: no index
outside the memory, and every cell below the length that counts it written. `CRC < 0x10000` and `TXCRC < 0x10000` are
the registers' types. -/
structure State.Inv (s : State) : Prop where
  txcnt_le : s.txcnt.toNat ≤ 2
  idle_txcnt : s.txph = .idle → s.txcnt = 0
  rxlen_le : s.rxlen.toNat ≤ Config.rxmax
  ovf_full : s.rxovf = true → s.rxlen.toNat = Config.rxmax
  frame_dlen : s.rxstat = .frame → s.rxdlen.toNat + Config.MINLEN ≤ s.rxlen.toNat
  frame_type : s.rxstat = .frame → isFrameType s.rxtype = true
  ackd_type : s.rxstat = .ackd → s.rxtype = Config.ACK
  no_frame_zero : s.rxstat ≠ .frame → s.rxaddr = 0 ∧ s.rxcmd = 0 ∧ s.rxdlen = 0
  fill_type : s.rxstat = .fill → s.rxtype = 0
  rxbuf_wf : s.rxbuf.wf = true
  rxbuf_within : s.rxbuf.within Config.rxmax = true
  rxbuf_covers : s.rxbuf.covers s.rxlen.toNat
  rxdata_wf : s.rxdata.wf = true
  rxdata_within : s.rxdata.within (Config.rxdataSize Config.rxmax) = true
  rxdata_covers : s.rxdata.covers s.rxdlen.toNat

/-- The result code of a decode result (43 R186). -/
def decodedStat : Decoded → RxStat
  | .empty => .empty
  | .short => .short
  | .type => .type
  | .csum => .csum
  | .ackd => .ackd
  | .frame _ _ _ _ => .frame

/-- The raw input that RXBUF holds below RXLEN; none when a cell below RXLEN has not been written. -/
def State.raw (s : State) : Option (List Byte) := (List.range s.rxlen.toNat).mapM (fun k => s.rxbuf.get k)

/-- What the result registers and RXDATA say of the raw input while a result is held (43 R186): `OVFL` when the buffer
overflowed, else exactly the document's classification of the stored bytes. -/
def State.ResultOf (s : State) (raw : List Byte) : Prop :=
  s.rxtype = raw.headD 0 ∧
  if s.rxovf then s.rxstat = .ovfl
  else
    s.rxstat = decodedStat (decodeFrame raw) ∧
    ∀ t a c data, decodeFrame raw = .frame t a c data →
      s.rxtype = t ∧ s.rxaddr = a ∧ s.rxcmd = c ∧ s.rxdlen.toNat = data.length ∧
      ∀ k, k < data.length → s.rxdata.get k = data[k]?

/-- While a result is held it is the result of the bytes in the buffer. -/
def State.HoldsResultOfBuffer (s : State) : Prop :=
  s.rxstat ≠ .fill → ∃ raw, s.raw = some raw ∧ s.ResultOf raw

/-- A run of instructions, one after another, stopping at the first that does not answer a next state. -/
def runOps : List Instr → State → Result
  | [], s => .next s
  | i :: is, s =>
    match exec i s with
    | .next t => runOps is t
    | .fault f => .fault f
    | .refused r => .refused r

/-- The responses to the operations of one unit, in order, out of the responses `rs` to `ops`, one for one. -/
def unitResponses (u : BlockUnit) (ops : List Instr) (rs : List Response) : List Response :=
  ((ops.zip rs).filter (fun p => unitOf p.1 == u)).map Prod.snd

/-- The output bytes of responses, concatenated in order. -/
def outBytes (rs : List Response) : List Byte := rs.flatMap Response.out

/-- Two states agree on what the unit `u` has of 10 R20; the system operations' view is the whole of it. -/
def agreeOn (u : BlockUnit) (s t : State) : Prop :=
  match u with
  | .ce => s.crc = t.crc
  | .ec => s.unepend = t.unepend
  | .tx => s.txph = t.txph ∧ s.txcnt = t.txcnt ∧ s.txcrc = t.txcrc
  | .rx => s.rxlen = t.rxlen ∧ s.rxovf = t.rxovf ∧ s.rxstat = t.rxstat ∧ s.rxtype = t.rxtype ∧ s.rxaddr = t.rxaddr
      ∧ s.rxcmd = t.rxcmd ∧ s.rxdlen = t.rxdlen ∧ s.rxbuf = t.rxbuf ∧ s.rxdata = t.rxdata
  | .sys => s.crc = t.crc ∧ s.unepend = t.unepend ∧ s.txph = t.txph ∧ s.txcnt = t.txcnt ∧ s.txcrc = t.txcrc
      ∧ s.rxlen = t.rxlen ∧ s.rxovf = t.rxovf ∧ s.rxstat = t.rxstat ∧ s.rxtype = t.rxtype ∧ s.rxaddr = t.rxaddr
      ∧ s.rxcmd = t.rxcmd ∧ s.rxdlen = t.rxdlen ∧ s.rxbuf = t.rxbuf ∧ s.rxdata = t.rxdata

/-- A legal response (30 R104): at most 5 output bytes, and nothing beside the code when it is not `OK`. -/
def Response.legal (r : Response) : Prop := r.out.length ≤ 5 ∧ (r.rc ≠ .ok → r.val = 0 ∧ r.out = [])

/-- Two states agree on every entry of 10 R20 that an operation can reach: all registers, RXBUF below RXLEN and RXDATA
below RXDLEN (20 R75, 93 U7). -/
structure State.SameReachable (s t : State) : Prop where
  crc : s.crc = t.crc
  unepend : s.unepend = t.unepend
  txph : s.txph = t.txph
  txcnt : s.txcnt = t.txcnt
  txcrc : s.txcrc = t.txcrc
  rxlen : s.rxlen = t.rxlen
  rxovf : s.rxovf = t.rxovf
  rxstat : s.rxstat = t.rxstat
  rxtype : s.rxtype = t.rxtype
  rxaddr : s.rxaddr = t.rxaddr
  rxcmd : s.rxcmd = t.rxcmd
  rxdlen : s.rxdlen = t.rxdlen
  rxbuf : ∀ k, k < s.rxlen.toNat → s.rxbuf.get k = t.rxbuf.get k
  rxdata : ∀ k, k < s.rxdlen.toNat → s.rxdata.get k = t.rxdata.get k

/-- The command word `opc`, `arg` of an operation without operand does `r` when `arg` is 0 and is answered `ILLEGAL`
with nothing else changed for every other `arg` (30 R102). -/
def NoOperandWord (opc : Byte) (s : State) (r : Result) : Prop :=
  ∀ arg : Half, step (s.offer (.cmd (cmdWord opc arg))) =
    if arg = 0 then r else .next { s with responses := s.responses ++ [⟨.illegal, 0, []⟩] }

/-- The command word `opc`, `arg` of an operation with a byte operand does `r arg[7:0]` when `arg[15:8]` is 0 and is
answered `ILLEGAL` with nothing else changed for every other `arg` (30 R102). -/
def ByteOperandWord (opc : Byte) (s : State) (r : Byte → Result) : Prop :=
  ∀ arg : Half, step (s.offer (.cmd (cmdWord opc arg))) =
    if arg.toNat < 256 then r (BitVec.ofNat 8 arg.toNat)
    else .next { s with responses := s.responses ++ [⟨.illegal, 0, []⟩] }

end Sys2Proof.Machine
end

