-- ==== Sys2Proof/Certificates/Slice0/Obligations.lean ====
section
/-! DEFINITION. The statements for the provers, from the numbered rules of spec/. An equation `exec i s = .next { s with … }` states the result, the completion and the frame at once: every field of the state that it does not name, the memories with every byte of theirs, is unchanged. -/

open Sys2Proof Sys2Proof.Machine

/-- NOP answers OK and changes nothing; its word with a non-zero arg is ILLEGAL. Formalises R220. -/
def Obligations.NopAnswersOkAndChangesNothing : Prop :=
  ∀ s : State,
    exec .nop s = .next { s with responses := s.responses ++ [⟨.ok, 0, []⟩] } ∧
    NoOperandWord 0x00 s (exec .nop s)

/-- GET n returns status register n for n <= 10 and is ILLEGAL above; it has no side effect. Formalises R221. -/
def Obligations.GetReturnsStatusRegisterWithoutSideEffect : Prop :=
  ∀ (s : State) (n : Half),
    (n.toNat ≤ 10 → ∃ v, statusRegister s n.toNat = some v ∧
      exec (.get n) s = .next { s with responses := s.responses ++ [⟨.ok, v, []⟩] }) ∧
    (10 < n.toNat → exec (.get n) s = .next { s with responses := s.responses ++ [⟨.illegal, 0, []⟩] }) ∧
    step (s.offer (.cmd (cmdWord 0x01 n))) = exec (.get n) s

/-- Each status register SR0 to SR10 is its field, zero-extended, reserved bits 0; no other number exists. Derived from 10_state.md section 7 (R40), 10_state.md section 3 (R30). -/
def Obligations.StatusRegistersHoldTheirFields : Prop :=
  ∀ s : State,
    statusRegister s 0 = some s.crc ∧
    statusRegister s 1 = some (if s.unepend then 1 else 0) ∧
    statusRegister s 2 = some (BitVec.ofNat 16 (2 * s.txcnt.toNat + if s.txph = .opened then 1 else 0)) ∧
    statusRegister s 3 = some s.txcrc ∧
    statusRegister s 4 = some s.rxlen ∧
    statusRegister s 5 = some (if s.rxovf then 1 else 0) ∧
    (∀ st code, (st, code) ∈ [(RxStat.fill, (0 : Half)), (.frame, 1), (.ackd, 2), (.empty, 3), (.short, 4), (.type, 5),
      (.csum, 6), (.ovfl, 7)] → s.rxstat = st → statusRegister s 6 = some code) ∧
    statusRegister s 7 = some (BitVec.ofNat 16 s.rxtype.toNat) ∧
    statusRegister s 8 = some (BitVec.ofNat 16 s.rxaddr.toNat) ∧
    statusRegister s 9 = some (BitVec.ofNat 16 s.rxcmd.toNat) ∧
    statusRegister s 10 = some s.rxdlen ∧
    ∀ n, 10 < n → statusRegister s n = none

/-- CRC.CLR sets CRC to 0x0000 and changes nothing else; its word with a non-zero arg is ILLEGAL. Formalises R126. -/
def Obligations.CrcClrWritesInit : Prop :=
  ∀ s : State,
    exec .crcClr s = .next { s with crc := 0x0000, responses := s.responses ++ [⟨.ok, 0, []⟩] } ∧
    NoOperandWord 0x10 s (exec .crcClr s)

/-- CRC.PUT b sets CRC to crc_byte(CRC, b) and changes nothing else; arg[15:8] not 0 is ILLEGAL. Formalises R127. -/
def Obligations.CrcPutAdvancesCrc : Prop :=
  (∀ (s : State) (b : Byte),
    exec (.crcPut b) s = .next { s with crc := crcByte s.crc b, responses := s.responses ++ [⟨.ok, 0, []⟩] }) ∧
  (∀ s : State, ByteOperandWord 0x11 s (fun b => exec (.crcPut b) s)) ∧
  ∀ (s : State) (l : List Byte), ∃ t, runOps (l.map .crcPut) s = .next t ∧ t.crc = crcRun s.crc l

/-- crc_bit: shift left, input bit into bit 0, XOR 0x1021 exactly when r[15] was set. Formalises R120. -/
def Obligations.CrcBitXorsPolynomialWhenTopBitShiftsOut : Prop :=
  ∀ (r : Half) (b : Bool),
    crcBit r b = ((r <<< 1) ||| (if b then 1 else 0)) ^^^ (if r.getLsbD 15 then 0x1021 else 0)

/-- crc_run and checksum are linear over XOR of equally long messages. Derived from 40_checksum.md section 2 (R129 (a)), 40_checksum.md section 1 (R120 to R123). -/
def Obligations.ChecksumIsLinear : Prop :=
  ∀ s1 s2 : List Byte, s1.length = s2.length →
    (∀ r1 r2 : Half, crcRun (r1 ^^^ r2) (List.zipWith (· ^^^ ·) s1 s2) = crcRun r1 s1 ^^^ crcRun r2 s2) ∧
    checksum (List.zipWith (· ^^^ ·) s1 s2) = checksum s1 ^^^ checksum s2

/-- Leading zero bytes do not count, and one or two bytes are their own checksum. Derived from 40_checksum.md section 2 (R129 (b), (c)). -/
def Obligations.ChecksumOfShortMessagesAndLeadingZeros : Prop :=
  (∀ s : List Byte, checksum (0x00 :: s) = checksum s) ∧
  (∀ n : Nat, checksum (List.replicate n 0x00) = 0) ∧
  ∀ a b : Byte, checksum [a] = BitVec.ofNat 16 a.toNat ∧ checksum [a, b] = BitVec.ofNat 16 (256 * a.toNat + b.toNat)

/-- checksum(s) is the remainder of the message polynomial on division by x^16 + x^12 + x^5 + 1 over GF(2). Derived from 40_checksum.md section 2 (R129 (d)), 40_checksum.md section 1 (R120 to R123). -/
def Obligations.ChecksumIsPolynomialRemainder : Prop :=
  let bits : (n : Nat) → BitVec n → Polynomial (ZMod 2) := fun n v =>
    (Finset.range n).sum (fun k => if v.getLsbD k then Polynomial.X ^ k else 0)
  let message : List Byte → Polynomial (ZMod 2) := fun s => s.foldl (fun p d => p * Polynomial.X ^ 8 + bits 8 d) 0
  ∀ s : List Byte, bits 16 (checksum s) =
    message s %ₘ (Polynomial.X ^ 16 + Polynomial.X ^ 12 + Polynomial.X ^ 5 + 1)

/-- Two checksum bytes are right exactly when the checksum over the payload with them is 0. Derived from 40_checksum.md section 2 (R129 (e)), 43_frame_decompose.md section 2 (R205). -/
def Obligations.ResidueTestEqualsChecksumComparison : Prop :=
  ∀ (a c : Byte) (data : List Byte) (x y : Byte),
    checksum ([a, c] ++ data ++ [x, y]) = 0 ↔ x = hi (frameChecksum a c data) ∧ y = lo (frameChecksum a c data)

/-- Changing exactly one byte of a message changes its checksum. Derived from 40_checksum.md section 2 (R129 (f)). -/
def Obligations.SingleByteChangeChangesChecksum : Prop :=
  ∀ (s1 s2 : List Byte) (d e : Byte), d ≠ e → checksum (s1 ++ [d] ++ s2) ≠ checksum (s1 ++ [e] ++ s2)

/-- CRC.CLR and CRC.PUT of s, with any operations of other units between them, leave CRC = checksum(s), and GET 0 returns it. Derived from 40_checksum.md section 3 (R128), R123, R126, R127. -/
def Obligations.InterleavedCrcPutsComputeChecksum : Prop :=
  ∀ (s : State) (ops : List Instr) (msg : List Byte), s.Inv → (∀ i ∈ ops, isOperation i = true) →
    (ops.filter (fun i => unitOf i == .ce) = .crcClr :: msg.map .crcPut ∨
      (s.crc = 0 ∧ ops.filter (fun i => unitOf i == .ce) = msg.map .crcPut)) →
    ∃ t, runOps ops s = .next t ∧ t.crc = checksum msg ∧
      exec (.get 0) t = .next { t with responses := t.responses ++ [⟨.ok, checksum msg, []⟩] }

/-- ESC.PUT b answers esc(b): a pair for the five bytes of the escape set, the byte itself otherwise; no state changes. Formalises R145. -/
def Obligations.EscPutAnswersWireForm : Prop :=
  (∀ (s : State) (b : Byte),
    (b ∈ [0x0D, 0x06, 0x1B, 0x80, 0x40] →
      exec (.escPut b) s = .next { s with responses := s.responses ++ [⟨.ok, 0, [0x1B, b ^^^ 0xFF]⟩] }) ∧
    (b ∉ [0x0D, 0x06, 0x1B, 0x80, 0x40] →
      exec (.escPut b) s = .next { s with responses := s.responses ++ [⟨.ok, 0, [b]⟩] })) ∧
  ∀ s : State, ByteOperandWord 0x20 s (fun b => exec (.escPut b) s)

/-- UNE.PUT b: completes a pending pair, or takes an introducer, or passes the byte; only UNEPEND changes. Formalises R146. -/
def Obligations.UnePutUnstuffsOneByte : Prop :=
  (∀ (s : State) (b : Byte),
    (s.unepend = true → exec (.unePut b) s =
      .next { s with unepend := false, responses := s.responses ++ [⟨.ok, 0, [b ^^^ 0xFF]⟩] }) ∧
    (s.unepend = false → b = 0x1B → exec (.unePut b) s =
      .next { s with unepend := true, responses := s.responses ++ [⟨.ok, 0, []⟩] }) ∧
    (s.unepend = false → b ≠ 0x1B → exec (.unePut b) s =
      .next { s with responses := s.responses ++ [⟨.ok, 0, [b]⟩] })) ∧
  ∀ s : State, ByteOperandWord 0x22 s (fun b => exec (.unePut b) s)

/-- UNE.END answers OK with nothing pending, and TRAIL, clearing UNEPEND, with an introducer pending. Formalises R147. -/
def Obligations.UneEndReportsDanglingEscape : Prop :=
  ∀ s : State,
    (s.unepend = false → exec .uneEnd s = .next { s with responses := s.responses ++ [⟨.ok, 0, []⟩] }) ∧
    (s.unepend = true → exec .uneEnd s =
      .next { s with unepend := false, responses := s.responses ++ [⟨.trail, 0, []⟩] }) ∧
    NoOperandWord 0x23 s (exec .uneEnd s)

/-- UNE.CLR clears UNEPEND and changes nothing else; its word with a non-zero arg is ILLEGAL. Formalises R148. -/
def Obligations.UneClrDropsPendingIntroducer : Prop :=
  ∀ s : State,
    exec .uneClr s = .next { s with unepend := false, responses := s.responses ++ [⟨.ok, 0, []⟩] } ∧
    NoOperandWord 0x21 s (exec .uneClr s)

/-- unstuff(stuff(s)) = s for every byte sequence, and never fails. Derived from 41_escape.md section 1 (R149 (a)), 41_escape.md section 1 (R141 to R143). -/
def Obligations.UnstuffInvertsStuff : Prop :=
  ∀ s : List Byte, unstuff (stuff s) = some s

/-- stuff(s): its length, its alphabet, and that 0x1B occurs only as the introducer of a canonical pair. Derived from 41_escape.md section 1 (R149 (b), (c)). -/
def Obligations.StuffedBytesAvoidControlValues : Prop :=
  ∀ s : List Byte,
    (stuff s).length = s.length + s.countP inEscSet ∧ s.length ≤ (stuff s).length ∧ (stuff s).length ≤ 2 * s.length ∧
    (∀ b ∈ stuff s, b ≠ 0x0D ∧ b ≠ 0x06 ∧ b ≠ 0x80 ∧ b ≠ 0x40) ∧
    ∀ u v : List Byte, stuff s = u ++ 0x1B :: v →
      ∃ x w, v = x :: w ∧ x ∈ [0xF2, 0xF9, 0xE4, 0x7F, 0xBF]

/-- unstuff distributes over concatenation, never lengthens, and fails only on a last introducer. Derived from 41_escape.md section 1 (R149 (e), (f)). -/
def Obligations.UnstuffOfConcatenation : Prop :=
  (∀ w1 w2 v1 : List Byte, unstuff w1 = some v1 →
    unstuff (w1 ++ w2) = (unstuff w2).map (v1 ++ ·) ∧ v1.length ≤ w1.length) ∧
  ∀ w : List Byte, unstuff w = none → ∃ w' v, w = w' ++ [0x1B] ∧ unstuff w' = some v

/-- UNE.CLR, UNE.PUT of w, UNE.END, with other units' operations between, compute unstuff(w) or end in TRAIL. Derived from 41_escape.md section 2 (R150), R142, R143, R145, R146, R147, R148. -/
def Obligations.InterleavedUnePutsComputeUnstuff : Prop :=
  ∀ (s : State) (ops : List Instr) (w : List Byte), s.Inv → (∀ i ∈ ops, isOperation i = true) →
    (ops.filter (fun i => unitOf i == .ec) = unstuffOps w →
      ∃ t rs, runOps ops s = .next t ∧ t.responses = s.responses ++ rs ∧ rs.length = ops.length ∧ t.unepend = false ∧
        (∀ v, unstuff w = some v →
          (∀ r ∈ unitResponses .ec ops rs, r.rc = .ok) ∧ outBytes (unitResponses .ec ops rs) = v) ∧
        (unstuff w = none → ∃ l, unitResponses .ec ops rs = l ++ [⟨.trail, 0, []⟩] ∧ (∀ r ∈ l, r.rc = .ok) ∧
          unstuff w.dropLast = some (outBytes l))) ∧
    (ops.filter (fun i => unitOf i == .ec) = stuffOps w →
      ∃ t rs, runOps ops s = .next t ∧ t.responses = s.responses ++ rs ∧ rs.length = ops.length ∧
        (∀ r ∈ unitResponses .ec ops rs, r.rc = .ok) ∧ outBytes (unitResponses .ec ops rs) = stuff w)

/-- Reading the interior of a raw input symbol by symbol gives the payload bytes of unstuff. Derived from 30_encoding.md section A4 (R86), 30_encoding.md section A3 (R84), 41_escape.md section 1 (R143). -/
def Obligations.SymbolReadingAgreesWithUnstuff : Prop :=
  ∀ w : List Byte,
    (readInterior w).map (fun l => l.filterMap payloadByte) = unstuff w ∧
    ∀ l, readInterior w = some l →
      l.flatMap wireBytes = w ∧ ∀ i ∈ l, (payloadByte i).isSome = true ∧ i.wellFormed = true

/-- stuff sends for each payload byte its canonical symbol, which carries that byte. Derived from 30_encoding.md section A2 (R82), 30_encoding.md section A1 (R80), 30_encoding.md section A5 (R89). -/
def Obligations.ComposerSendsCanonicalSymbols : Prop :=
  (∀ s : List Byte, stuff s = s.flatMap (fun b => wireBytes (canonicalSymbol b))) ∧
  ∀ b : Byte, payloadByte (canonicalSymbol b) = some b ∧
    (inEscSet b = false → canonicalSymbol b = .lit b) ∧
    (inEscSet b = true → canonicalSymbol b ∈ [.escStop, .escAck, .escEsc, .escToDev, .escFromDev])

/-- A one-byte wire symbol given to the block is stored as RX.PUT of its byte stores it (model's choice, log entry 4). Derived from 20_memory.md section 5 (R71), 30_encoding.md section A1 (R80), 43_frame_decompose.md section 3 (R185), log entry 4. -/
def Obligations.OneByteSymbolsAreStoredRaw : Prop :=
  ∀ (s : State) (c : Byte) (i : Instr) (b : Byte),
    (i, b) ∈ [(Instr.startToDev, (0x80 : Byte)), (.startFromDev, 0x40), (.startNul, 0x00), (.ack, 0x06), (.stop, 0x0D),
      (.lit c, c)] →
    (s.rxstat = .fill → s.rxlen.toNat < Config.rxmax → ∃ m,
      exec i s = .next { s with rxbuf := m, rxlen := s.rxlen + 1, responses := s.responses ++ [⟨.ok, 0, []⟩] } ∧
      m.get s.rxlen.toNat = some b ∧ ∀ k, k ≠ s.rxlen.toNat → m.get k = s.rxbuf.get k) ∧
    (s.rxstat = .fill → s.rxlen.toNat = Config.rxmax →
      exec i s = .next { s with rxovf := true, responses := s.responses ++ [⟨.ovf, 0, []⟩] }) ∧
    (s.rxstat ≠ .fill → exec i s = .next { s with responses := s.responses ++ [⟨.seq, 0, []⟩] })

/-- A two-byte wire symbol given to the block is RX.PUT of 0x1B now and RX.PUT of its second byte next (model's choice, log entry 4). Derived from 20_memory.md section 5 (R71), 30_encoding.md section A1 (R80), 43_frame_decompose.md section 3 (R185), log entry 4. -/
def Obligations.EscapePairsAreStoredRaw : Prop :=
  ∀ (s : State) (c : Byte) (i : Instr) (x : Byte),
    (i, x) ∈ [(Instr.escStop, (0xF2 : Byte)), (.escAck, 0xF9), (.escEsc, 0xE4), (.escToDev, 0x7F), (.escFromDev, 0xBF),
      (.esc c, c)] →
    let second : Input := .word (cmdWord 0x41 (BitVec.ofNat 16 x.toNat))
    (s.rxstat = .fill → s.rxlen.toNat < Config.rxmax → ∃ m,
      exec i s = .next { s with rxbuf := m, rxlen := s.rxlen + 1, pending := second :: s.pending,
                                responses := s.responses ++ [⟨.ok, 0, []⟩] } ∧
      m.get s.rxlen.toNat = some 0x1B ∧ ∀ k, k ≠ s.rxlen.toNat → m.get k = s.rxbuf.get k) ∧
    (s.rxstat = .fill → s.rxlen.toNat = Config.rxmax →
      exec i s = .next { s with rxovf := true, pending := second :: s.pending,
                                responses := s.responses ++ [⟨.ovf, 0, []⟩] }) ∧
    (s.rxstat ≠ .fill →
      exec i s = .next { s with pending := second :: s.pending, responses := s.responses ++ [⟨.seq, 0, []⟩] }) ∧
    ∀ u, exec i s = .next u →
      (s.rxstat = .fill → s.rxlen.toNat + 1 < Config.rxmax → ∃ m,
        step u = .next { s with rxbuf := m, rxlen := s.rxlen + 2,
                                responses := s.responses ++ [⟨.ok, 0, []⟩, ⟨.ok, 0, []⟩] } ∧
        m.get s.rxlen.toNat = some 0x1B ∧ m.get (s.rxlen.toNat + 1) = some x ∧
        ∀ k, k ≠ s.rxlen.toNat → k ≠ s.rxlen.toNat + 1 → m.get k = s.rxbuf.get k) ∧
      (s.rxstat = .fill → s.rxlen.toNat + 1 = Config.rxmax → ∃ m,
        step u = .next { s with rxbuf := m, rxlen := s.rxlen + 1, rxovf := true,
                                responses := s.responses ++ [⟨.ok, 0, []⟩, ⟨.ovf, 0, []⟩] } ∧
        m.get s.rxlen.toNat = some 0x1B ∧ ∀ k, k ≠ s.rxlen.toNat → m.get k = s.rxbuf.get k) ∧
      (s.rxstat = .fill → s.rxlen.toNat = Config.rxmax →
        step u = .next { s with rxovf := true, responses := s.responses ++ [⟨.ovf, 0, []⟩, ⟨.ovf, 0, []⟩] }) ∧
      (s.rxstat ≠ .fill →
        step u = .next { s with responses := s.responses ++ [⟨.seq, 0, []⟩, ⟨.seq, 0, []⟩] })

/-- TX.START t opens a frame and emits t, emits the one-byte acknowledge, or is refused. Formalises R163. -/
def Obligations.TxStartOpensFrame : Prop :=
  (∀ (s : State) (t : Byte),
    (s.txph = .idle → (t = 0x80 ∨ t = 0x40) → exec (.txStart t) s =
      .next { s with txph := .opened, txcnt := 0, txcrc := 0x0000, responses := s.responses ++ [⟨.ok, 0, [t]⟩] }) ∧
    (s.txph = .idle → t = 0x06 → exec (.txStart t) s =
      .next { s with txcnt := 0, txcrc := 0x0000, responses := s.responses ++ [⟨.ok, 0, [0x06]⟩] }) ∧
    (t ≠ 0x80 → t ≠ 0x40 → t ≠ 0x06 →
      exec (.txStart t) s = .next { s with responses := s.responses ++ [⟨.illegal, 0, []⟩] }) ∧
    (s.txph = .opened → (t = 0x80 ∨ t = 0x40 ∨ t = 0x06) →
      exec (.txStart t) s = .next { s with responses := s.responses ++ [⟨.seq, 0, []⟩] })) ∧
  ∀ s : State, ByteOperandWord 0x30 s (fun t => exec (.txStart t) s)

/-- TX.PUT b with a frame open advances TXCRC by b, counts to 2 and emits esc(b); with none open it is SEQ. Formalises R164. -/
def Obligations.TxPutEmitsAndChecksumsByte : Prop :=
  (∀ (s : State) (b : Byte),
    (s.txph = .opened → exec (.txPut b) s =
      .next { s with txcrc := crcByte s.txcrc b, txcnt := BitVec.ofNat 2 (min 2 (s.txcnt.toNat + 1)),
                     responses := s.responses ++ [⟨.ok, 0, esc b⟩] }) ∧
    (s.txph = .idle → exec (.txPut b) s = .next { s with responses := s.responses ++ [⟨.seq, 0, []⟩] })) ∧
  ∀ s : State, ByteOperandWord 0x31 s (fun b => exec (.txPut b) s)

/-- TX.END with a frame of two or more bytes emits the escaped checksum and 0x0D and closes the frame; otherwise SEQ. Formalises R165. -/
def Obligations.TxEndEmitsChecksumAndStop : Prop :=
  ∀ s : State,
    (s.txph = .opened → 2 ≤ s.txcnt.toNat → ∀ cs, cs = crcByte (crcByte s.txcrc 0x00) 0x00 → exec .txEnd s =
      .next { s with txcrc := cs, txph := .idle, txcnt := 0,
                     responses := s.responses ++ [⟨.ok, 0, esc (hi cs) ++ esc (lo cs) ++ [0x0D]⟩] }) ∧
    (s.txph = .idle ∨ s.txcnt.toNat < 2 →
      exec .txEnd s = .next { s with responses := s.responses ++ [⟨.seq, 0, []⟩] }) ∧
    NoOperandWord 0x32 s (exec .txEnd s)

/-- TX.CLR makes the composer idle and clears TXCNT and TXCRC, in either phase; a non-zero arg is ILLEGAL. Formalises R166. -/
def Obligations.TxClrAbandonsFrame : Prop :=
  ∀ s : State,
    exec .txClr s =
      .next { s with txph := .idle, txcnt := 0, txcrc := 0x0000, responses := s.responses ++ [⟨.ok, 0, []⟩] } ∧
    NoOperandWord 0x33 s (exec .txClr s)

/-- encode: first byte t, last byte 0x0D, length between d+6 and 2d+10, control values only at the ends. Derived from 42_frame_compose.md section 1 (R169 (a), (b)), 42_frame_compose.md section 1 (R160). -/
def Obligations.EncodedFrameShape : Prop :=
  ∀ (t : FrameType) (a c : Byte) (data : List Byte), t ≠ .acknowledge → ∃ mid,
    encodeFrame t a c data = [typeByte t] ++ mid ++ [0x0D] ∧
    data.length + 6 ≤ (encodeFrame t a c data).length ∧ (encodeFrame t a c data).length ≤ 2 * data.length + 10 ∧
    ∀ b ∈ mid, b ≠ 0x0D ∧ b ≠ 0x06 ∧ b ≠ 0x80 ∧ b ≠ 0x40

/-- TX.START, TX.PUTs, TX.END, with other units' operations between, emit exactly encode(t, a, c, data). Derived from 42_frame_compose.md section 2 (R167), R160, R162, R163, R164, R165. -/
def Obligations.InterleavedComposeEmitsEncodedFrame : Prop :=
  ∀ (s : State) (ops : List Instr) (t : FrameType) (a c : Byte) (data : List Byte), s.Inv → s.txph = .idle → (∀ i ∈ ops, isOperation i = true) →
    ops.filter (fun i => unitOf i == .tx) = composeOps t a c data →
    ∃ u rs, runOps ops s = .next u ∧ u.responses = s.responses ++ rs ∧ rs.length = ops.length ∧
      (∀ r ∈ unitResponses .tx ops rs, r.rc = .ok) ∧ outBytes (unitResponses .tx ops rs) = encodeFrame t a c data ∧
      u.txph = .idle ∧ u.txcnt = 0 ∧ (t ≠ .acknowledge → u.txcrc = frameChecksum a c data)

/-- RX.CLR zeroes all RX registers, writes no memory cell and changes nothing else; a non-zero arg is ILLEGAL. Formalises R184. -/
def Obligations.RxClrReturnsToFill : Prop :=
  ∀ s : State,
    exec .rxClr s =
      .next { s with rxlen := 0, rxovf := false, rxstat := .fill, rxtype := 0x00, rxaddr := 0x00, rxcmd := 0x00,
                     rxdlen := 0, responses := s.responses ++ [⟨.ok, 0, []⟩] } ∧
    NoOperandWord 0x40 s (exec .rxClr s)

/-- RX.PUT b stores b at RXLEN and counts it; a full buffer is OVF and sets RXOVF; a held result is SEQ. Formalises R185. -/
def Obligations.RxPutStoresRawByte : Prop :=
  (∀ (s : State) (b : Byte),
    (s.rxstat = .fill → s.rxlen.toNat < Config.rxmax → ∃ m,
      exec (.rxPut b) s = .next { s with rxbuf := m, rxlen := s.rxlen + 1,
                                         responses := s.responses ++ [⟨.ok, 0, []⟩] } ∧
      m.get s.rxlen.toNat = some b ∧ ∀ k, k ≠ s.rxlen.toNat → m.get k = s.rxbuf.get k) ∧
    (s.rxstat = .fill → s.rxlen.toNat = Config.rxmax →
      exec (.rxPut b) s = .next { s with rxovf := true, responses := s.responses ++ [⟨.ovf, 0, []⟩] }) ∧
    (s.rxstat ≠ .fill → exec (.rxPut b) s = .next { s with responses := s.responses ++ [⟨.seq, 0, []⟩] })) ∧
  ∀ s : State, ByteOperandWord 0x41 s (fun b => exec (.rxPut b) s)

/-- RX.END decodes the stored bytes, keeps the result in the registers and RXDATA, and answers its code. Formalises R186. -/
def Obligations.RxEndKeepsDecodeResult : Prop :=
  ∀ s : State,
    (∀ raw, s.rxstat = .fill → s.rxlen.toNat ≤ Config.rxmax → s.raw = some raw → ∃ t,
      exec .rxEnd s = .next t ∧ t.ResultOf raw ∧
      (t.rxstat ≠ .frame → t.rxaddr = 0 ∧ t.rxcmd = 0 ∧ t.rxdlen = 0 ∧ t.rxdata = s.rxdata) ∧
      (∀ k, t.rxdlen.toNat ≤ k → t.rxdata.get k = s.rxdata.get k) ∧
      t = { s with rxstat := t.rxstat, rxtype := t.rxtype, rxaddr := t.rxaddr, rxcmd := t.rxcmd, rxdlen := t.rxdlen,
                   rxdata := t.rxdata,
                   responses := s.responses ++ [⟨.ok, BitVec.ofNat 16 (rxStatCode t.rxstat).toNat, []⟩] }) ∧
    (s.rxstat ≠ .fill → exec .rxEnd s = .next { s with responses := s.responses ++ [⟨.seq, 0, []⟩] }) ∧
    NoOperandWord 0x42 s (exec .rxEnd s)

/-- RX.LD i answers RXDATA[i] below RXDLEN, RANGE at or beyond it, SEQ without a FRAME result; no word is ILLEGAL. Formalises R199. -/
def Obligations.RxLdLoadsDataByte : Prop :=
  ∀ (s : State) (i : Half),
    (∀ v, s.rxstat = .frame → i.toNat < s.rxdlen.toNat → s.rxdata.get i.toNat = some v →
      exec (.rxLd i) s = .next { s with responses := s.responses ++ [⟨.ok, BitVec.ofNat 16 v.toNat, []⟩] }) ∧
    (s.rxstat = .frame → s.rxdlen.toNat ≤ i.toNat →
      exec (.rxLd i) s = .next { s with responses := s.responses ++ [⟨.range, 0, []⟩] }) ∧
    (s.rxstat ≠ .frame → exec (.rxLd i) s = .next { s with responses := s.responses ++ [⟨.seq, 0, []⟩] }) ∧
    step (s.offer (.cmd (cmdWord 0x43 i))) = exec (.rxLd i) s

/-- decode answers FRAME(t, a, c, data) exactly for t, an interior that unstuffs to the payload with its checksum, 0x0D. Derived from 43_frame_decompose.md section 2 (R180, R182), 43_frame_decompose.md section 2 (R198). -/
def Obligations.DecodeAcceptsExactlyTheFrames : Prop :=
  ∀ (raw : List Byte) (t a c : Byte) (data : List Byte),
    decodeFrame raw = .frame t a c data ↔
      t ∈ [0x00, 0x80, 0x40] ∧ ∃ mid, raw = [t] ++ mid ++ [0x0D] ∧
        unstuff mid = some ([a, c] ++ data ++ [hi (frameChecksum a c data), lo (frameChecksum a c data)])

/-- Exactly which inputs decode to EMPTY, ACKD, TYPE, CSUM and SHORT, priorities included. Derived from 43_frame_decompose.md section 2 (R180, R183, R202), 60_exceptions.md section 2 (R233). -/
def Obligations.DecodeFailureClassesAreExact : Prop :=
  ∀ raw : List Byte,
    (decodeFrame raw = .empty ↔ raw = []) ∧
    (decodeFrame raw = .ackd ↔ ∃ rest, raw = 0x06 :: rest ∧ unstuff rest.dropLast ≠ none) ∧
    (decodeFrame raw = .type ↔ ∃ b rest, raw = b :: rest ∧ b ∉ [0x06, 0x00, 0x80, 0x40] ∧
      unstuff rest.dropLast ≠ none) ∧
    (decodeFrame raw = .csum ↔ ∃ t mid z a c data x y, raw = [t] ++ mid ++ [z] ∧ t ∈ [0x00, 0x80, 0x40] ∧
      unstuff mid = some ([a, c] ++ data ++ [x, y]) ∧
      ¬(x = hi (frameChecksum a c data) ∧ y = lo (frameChecksum a c data))) ∧
    (decodeFrame raw = .short ↔
      (∃ b rest, raw = b :: rest ∧ unstuff rest.dropLast = none) ∨
      (∃ t rest v, raw = t :: rest ∧ t ∈ [0x00, 0x80, 0x40] ∧ unstuff rest.dropLast = some v ∧
        1 + v.length + min 1 rest.length < 6) ∨
      (∃ t mid z a c data, raw = [t] ++ mid ++ [z] ∧ t ∈ [0x00, 0x80, 0x40] ∧ z ≠ 0x0D ∧
        unstuff mid = some ([a, c] ++ data ++ [hi (frameChecksum a c data), lo (frameChecksum a c data)])))

/-- decode(encode(t, a, c, data)) = FRAME(t, a, c, data), and of an acknowledge ACKD; two wrong checksum bytes give CSUM. Derived from 43_frame_decompose.md section 2 (R203), 42_frame_compose.md section 1 (R160, R162), 43_frame_decompose.md section 2 (R201). -/
def Obligations.DecodeInvertsEncode : Prop :=
  ∀ (t : FrameType) (a c : Byte) (data : List Byte),
    (t ≠ .acknowledge → decodeFrame (encodeFrame t a c data) = .frame (typeByte t) a c data) ∧
    decodeFrame (encodeFrame .acknowledge a c data) = .ackd ∧
    ∀ x y : Byte, t ≠ .acknowledge →
      ¬(x = hi (frameChecksum a c data) ∧ y = lo (frameChecksum a c data)) →
      decodeFrame ([typeByte t] ++ stuff ([a, c] ++ data ++ [x, y]) ++ [0x0D]) = .csum

/-- RX.CLR, RX.PUTs of raw, RX.END, with other units' operations between, classify as decode(raw), or OVFL beyond RXMAX. Derived from 43_frame_decompose.md section 3 (R200), R180, R184, R185, R186, R199. -/
def Obligations.InterleavedDecomposeComputesDecode : Prop :=
  ∀ (s : State) (ops : List Instr) (raw : List Byte), s.Inv → (∀ i ∈ ops, isOperation i = true) →
    ops.filter (fun i => unitOf i == .rx) = decomposeOps raw →
    ∃ t rs, runOps ops s = .next t ∧ t.responses = s.responses ++ rs ∧ rs.length = ops.length ∧
      (raw.length ≤ Config.rxmax →
        unitResponses .rx ops rs = List.replicate (raw.length + 1) ⟨.ok, 0, []⟩ ++
          [⟨.ok, BitVec.ofNat 16 (rxStatCode (decodedStat (decodeFrame raw))).toNat, []⟩] ∧
        t.rxstat = decodedStat (decodeFrame raw) ∧
        ∀ ty a c data, decodeFrame raw = .frame ty a c data →
          statusRegister t 7 = some (BitVec.ofNat 16 ty.toNat) ∧ statusRegister t 8 = some (BitVec.ofNat 16 a.toNat) ∧
          statusRegister t 9 = some (BitVec.ofNat 16 c.toNat) ∧
          statusRegister t 10 = some (BitVec.ofNat 16 data.length) ∧
          ∀ (k : Half) (v : Byte), data[k.toNat]? = some v →
            exec (.rxLd k) t = .next { t with responses := t.responses ++ [⟨.ok, BitVec.ofNat 16 v.toNat, []⟩] }) ∧
      (Config.rxmax < raw.length →
        unitResponses .rx ops rs = List.replicate (Config.rxmax + 1) ⟨.ok, 0, []⟩ ++
          List.replicate (raw.length - Config.rxmax) ⟨.ovf, 0, []⟩ ++ [⟨.ok, 7, []⟩])

/-- A command word is answered ILLEGAL, with no state change, exactly when one of the conditions of R102 holds. Derived from 30_encoding.md section B2 (R102), 93_implementation_defined.md U8. -/
def Obligations.IllegalCommandWordsChangeNothing : Prop :=
  ∀ (s : State) (opc : Byte) (arg : Half),
    let illegal :=
      opc ∉ [0x00, 0x01, 0x10, 0x11, 0x20, 0x21, 0x22, 0x23, 0x30, 0x31, 0x32, 0x33, 0x40, 0x41, 0x42, 0x43] ∨
      (opc ∈ [0x00, 0x10, 0x21, 0x23, 0x32, 0x33, 0x40, 0x42] ∧ arg ≠ 0) ∨
      (opc ∈ [0x11, 0x20, 0x22, 0x30, 0x31, 0x41] ∧ 256 ≤ arg.toNat) ∨
      (opc = 0x01 ∧ 10 < arg.toNat) ∨
      (opc = 0x30 ∧ arg ∉ [0x80, 0x40, 0x06])
    (illegal → step (s.offer (.cmd (cmdWord opc arg))) =
      .next { s with responses := s.responses ++ [⟨.illegal, 0, []⟩] }) ∧
    (¬illegal → ∀ t r, step (s.offer (.cmd (cmdWord opc arg))) = .next t → t.responses = s.responses ++ [r] →
      r.rc ≠ .illegal)

/-- Every one of the 2^24 command words is answered with exactly one response of the form of R104. Formalises R104. -/
def Obligations.EveryCommandWordGetsOneLegalResponse : Prop :=
  ∀ (s : State) (opc : Byte) (arg : Half), s.Inv → ∃ t r,
    step (s.offer (.cmd (cmdWord opc arg))) = .next t ∧ t.responses = s.responses ++ [r] ∧ r.legal ∧
    (rcCode r.rc).toNat ≤ 5 ∧
    (opc ∉ [0x01, 0x42, 0x43] → r.val = 0) ∧ (opc ∉ [0x20, 0x22, 0x30, 0x31, 0x32] → r.out = []) ∧
    (opc = 0x01 → r.rc = .ok → statusRegister s arg.toNat = some r.val) ∧
    (opc = 0x43 → r.rc = .ok → ∃ v, s.rxdata.get arg.toNat = some v ∧ r.val = BitVec.ofNat 16 v.toNat) ∧
    (opc = 0x42 → r.rc = .ok → r.val = BitVec.ofNat 16 (rxStatCode t.rxstat).toNat)

/-- How many output bytes each operation gives when it answers OK. Derived from 30_encoding.md section B3 (R105). -/
def Obligations.OutputByteCountsByOperation : Prop :=
  ∀ (i : Instr) (s t : State) (r : Response), isOperation i = true → exec i s = .next t →
    t.responses = s.responses ++ [r] → r.rc = .ok →
    (∀ b, i = .escPut b ∨ i = .txPut b → r.out.length = 1 ∨ r.out.length = 2) ∧
    (∀ b, i = .unePut b → r.out.length ≤ 1) ∧ (∀ b, i = .txStart b → r.out.length = 1) ∧
    (i = .txEnd → 3 ≤ r.out.length ∧ r.out.length ≤ 5) ∧
    ((∀ b, i ≠ .escPut b ∧ i ≠ .txPut b ∧ i ≠ .unePut b ∧ i ≠ .txStart b) → i ≠ .txEnd → r.out = [])

/-- A refused operation answers (CODE, 0, []) and changes no state, but for RXOVF on OVF and UNEPEND on TRAIL. Derived from 60_exceptions.md section 2 (R235), 60_exceptions.md section 2 (R232). -/
def Obligations.RefusedOperationsChangeNothing : Prop :=
  ∀ (i : Instr) (s t : State) (r : Response), isOperation i = true → exec i s = .next t →
    t.responses = s.responses ++ [r] → r.rc ≠ .ok →
    r.val = 0 ∧ r.out = [] ∧
    ((r.rc ≠ .ovf ∧ r.rc ≠ .trail ∧ t = { s with responses := s.responses ++ [r] }) ∨
      (∃ b, i = .rxPut b ∧ r.rc = .ovf ∧ t = { s with rxovf := true, responses := s.responses ++ [r] }) ∨
      (i = .uneEnd ∧ r.rc = .trail ∧ t = { s with unepend := false, responses := s.responses ++ [r] }))

/-- Each refusal code is answered exactly for the causes of R232, with ILLEGAL before SEQ before RANGE or OVF. Derived from 60_exceptions.md section 2 (R232), 60_exceptions.md section 3 (R236), 30_encoding.md section B2 (R103). -/
def Obligations.RefusalCodesHaveExactlyTheirCauses : Prop :=
  ∀ (i : Instr) (s t : State) (r : Response), isOperation i = true → exec i s = .next t →
    t.responses = s.responses ++ [r] →
    (r.rc = .illegal ↔ (∃ n, i = .get n ∧ 10 < n.toNat) ∨ ∃ b, i = .txStart b ∧ b ∉ [0x80, 0x40, 0x06]) ∧
    (r.rc = .seq ↔ (∃ b, i = .txStart b ∧ b ∈ [0x80, 0x40, 0x06] ∧ s.txph = .opened) ∨
      (∃ b, i = .txPut b ∧ s.txph = .idle) ∨ (i = .txEnd ∧ (s.txph = .idle ∨ s.txcnt.toNat < 2)) ∨
      ((i = .rxEnd ∨ ∃ b, i = .rxPut b) ∧ s.rxstat ≠ .fill) ∨ (∃ k, i = .rxLd k ∧ s.rxstat ≠ .frame)) ∧
    (r.rc = .range ↔ ∃ k, i = .rxLd k ∧ s.rxstat = .frame ∧ s.rxdlen.toNat ≤ k.toNat) ∧
    (r.rc = .ovf ↔ ∃ b, i = .rxPut b ∧ s.rxstat = .fill ∧ s.rxlen.toNat = Config.rxmax) ∧
    (r.rc = .trail ↔ i = .uneEnd ∧ s.unepend = true)

/-- Decoding the encoding of every well-formed instruction gives it back. Derived from 30_encoding.md section B1 (R100), 30_encoding.md section A1 (R80), 30_encoding.md section A4 (R86). -/
def Obligations.DecodeOfEncodeIsIdentity : Prop :=
  ∀ i : Instr, i.wellFormed = true → decode (encode i) = .ok i

/-- A word that decodes is the encoding of what it decodes to, and the upper nibble of opc names the operation's unit. Derived from 30_encoding.md section B2 (R102), 30_encoding.md section B1 (R100), 30_encoding.md section A4 (R86), 93_implementation_defined.md U8. -/
def Obligations.EncodeOfDecodeIsIdentity : Prop :=
  (∀ (f : FetchWord) (i : Instr), decode f = .ok i → encode i = f) ∧
  ∀ (w : CmdWord) (i : Instr), decode (.cmd w) = .ok i →
    isOperation i = true ∧ w.extractLsb' 20 4 = unitNibble (unitOf i)

/-- Words written out from the spec's tables decode to the operations and symbols they stand for. Derived from 30_encoding.md section B1 (R100, R107), 30_encoding.md section A1 (R80), 95_test_vectors.md section 2.5. -/
def Obligations.WrittenWordsDecode : Prop :=
  decode (.cmd 0x000000) = .ok .nop ∧ decode (.cmd 0x01000A) = .ok (.get 10) ∧
  decode (.cmd 0x110031) = .ok (.crcPut 0x31) ∧ decode (.cmd 0x2200F9) = .ok (.unePut 0xF9) ∧
  decode (.cmd 0x300080) = .ok (.txStart 0x80) ∧ decode (.cmd 0x31002A) = .ok (.txPut 0x2A) ∧
  decode (.cmd 0x43FFFF) = .ok (.rxLd 0xFFFF) ∧ decode (.wire .first [0x80]) = .ok .startToDev ∧
  decode (.wire .interior [0x80]) = .ok (.lit 0x80) ∧ decode (.wire .interior [0x1B, 0xF2]) = .ok .escStop ∧
  decode (.wire .interior [0x1B, 0x41]) = .ok (.esc 0x41) ∧
  decode (.cmd 0x310100) = .error .argHighNotZero ∧ decode (.cmd 0x500000) = .error .undefinedOpcode

/-- When the next command word decodes to an instruction i, or RX.PUT words of wire symbol i come next, a step is exec of i. That a wire symbol is offered as the command words RX.PUT of its bytes is the MODEL'S CHOICE (log entry 4). Derived from 00_scope.md section 4 (R9), 30_encoding.md section B3 (R106), log entry 3, log entry 4. -/
def Obligations.StepRunsDecodedInstruction : Prop :=
  (∀ (s : State) (w : CmdWord) (rest : List Input) (i : Instr),
    s.pending = .word w :: rest → decode (.cmd w) = .ok i → i.wellFormed = true →
    step s = exec i { s with pending := rest }) ∧
  ∀ (s : State) (p : WirePos) (bytes : List Byte) (rest : List Input) (i : Instr),
    s.pending = bytes.map (fun b => .word (cmdWord 0x41 (BitVec.ofNat 16 b.toNat))) ++ rest →
    decode (.wire p bytes) = .ok i → step s = exec i { s with pending := rest }

/-- A step takes one input from the front, a command word with exactly one response after all earlier ones or reset with none, and does nothing with no input. MODEL'S CHOICE: inputs and responses are queues in the state (log entry 3). Derived from 00_scope.md section 4 (R9), 30_encoding.md section B3 (R106), 20_memory.md section 5 (R69), log entry 3. -/
def Obligations.InputsAreTakenInOrderAndAnsweredInOrder : Prop :=
  ∀ s t : State, step s = .next t →
    t.pending = s.pending.tail ∧ (s.pending = [] → t = s) ∧
    ∃ rs, t.responses = s.responses ++ rs ∧
      (∀ w rest, s.pending = .word w :: rest → rs.length = 1) ∧
      (∀ rest, s.pending = .rst :: rest → rs = []) ∧ (∀ w rest, s.pending = .cut w :: rest → rs = [])

/-- The reset signal is one step with no response that zeroes every register; a word it cuts off is abandoned. Formalises R260. -/
def Obligations.ResetSignalZeroesEveryRegister : Prop :=
  ∀ (s : State) (i : Input) (rest : List Input), s.pending = i :: rest → (i = .rst ∨ ∃ w, i = .cut w) →
    ∃ t, step s = .next t ∧ t.crc = 0x0000 ∧ t.unepend = false ∧ t.txph = .idle ∧ t.txcnt = 0 ∧ t.txcrc = 0x0000 ∧
      t.rxlen = 0 ∧ t.rxovf = false ∧ t.rxstat = .fill ∧ t.rxtype = 0x00 ∧ t.rxaddr = 0x00 ∧ t.rxcmd = 0x00 ∧
      t.rxdlen = 0 ∧ t.responses = s.responses ∧ t.pending = rest

/-- CRC.CLR, UNE.CLR, TX.CLR and RX.CLR in any order leave the registers as reset does. Derived from 70_reset_and_hazards.md section 1 (R261), R126, R148, R166, R184. -/
def Obligations.FourClearsEqualReset : Prop :=
  ∀ (s : State) (ops : List Instr), ops.Perm [.crcClr, .uneClr, .txClr, .rxClr] →
    ∃ t, runOps ops s = .next t ∧ t.SameReachable (applyReset s) ∧ t.rxbuf = s.rxbuf ∧ t.rxdata = s.rxdata

/-- The state after reset has the register values of R42. Derived from 10_state.md section 8 (R42). -/
def Obligations.ResetStateRegistersAreZero : Prop :=
  State.reset.crc = 0 ∧ State.reset.unepend = false ∧ State.reset.txph = .idle ∧ State.reset.txcnt = 0 ∧
  State.reset.txcrc = 0 ∧ State.reset.rxlen = 0 ∧ State.reset.rxovf = false ∧ State.reset.rxstat = .fill ∧
  State.reset.rxtype = 0 ∧ State.reset.rxaddr = 0 ∧ State.reset.rxcmd = 0 ∧ State.reset.rxdlen = 0 ∧
  ∀ n, n ≤ 10 → statusRegister State.reset n = some 0

/-- The state after reset satisfies the invariants of R43 and holds no result. Derived from 10_state.md section 9 (R43), 10_state.md section 8 (R42), 20_memory.md section 1 (R62). -/
def Obligations.ResetSatisfiesInvariants : Prop :=
  State.reset.Inv ∧ State.reset.HoldsResultOfBuffer

/-- Every step keeps the invariants of R43 and the canonical, fully covered memories. Derived from 10_state.md section 9 (R43), 20_memory.md section 1 (R60, R61, R62). -/
def Obligations.EveryStepKeepsInvariants : Prop :=
  ∀ s t : State, s.Inv → step s = .next t → t.Inv

/-- While a result is held it is the decode result of the bytes in RXBUF: every step keeps this. Derived from 43_frame_decompose.md section 3 (R186, R200), 92_eei_decisions.md D25. -/
def Obligations.EveryStepKeepsHeldResultCoherent : Prop :=
  ∀ s t : State, s.HoldsResultOfBuffer → step s = .next t → t.HoldsResultOfBuffer

/-- From a state that satisfies the invariants no step faults or is refused: it always answers a next state. Derived from 00_scope.md section 4 (R9), 20_memory.md section 1 (R62), 60_exceptions.md section 1 (R230). -/
def Obligations.InvariantStatesNeverFault : Prop :=
  ∀ s : State, s.Inv → ∃ t, step s = .next t

/-- An instruction changes no state of another unit; NOP and GET change none at all (a wire symbol's unit is RX by the model's choice, log entry 4). The rules speak of operations; that a wire symbol belongs to RX, does RX.PUT of its first byte and offers RX.PUT of the others is the MODEL'S CHOICE (log entry 4). Derived from 70_reset_and_hazards.md section 3 (R277), 10_state.md section 1 (R20), log entry 3, log entry 4. -/
def Obligations.OperationsWriteOnlyTheirOwnUnit : Prop :=
  ∀ (i : Instr) (s t : State), exec i s = .next t →
    (∀ u, u ≠ .sys → u ≠ unitOf i → agreeOn u s t) ∧ (unitOf i = .sys → agreeOn .sys s t) ∧
    (isOperation i = true → t.pending = s.pending) ∧
    t.pending = (wireBytes i).tail.map (fun b => .word (cmdWord 0x41 (BitVec.ofNat 16 b.toNat))) ++ s.pending

/-- What an operation answers and writes depends on its own unit's state alone. Derived from 70_reset_and_hazards.md section 3 (R277), 60_exceptions.md section 6 (R247). -/
def Obligations.OperationsReadOnlyTheirOwnUnit : Prop :=
  ∀ (i : Instr) (s s' t : State), isOperation i = true → agreeOn (unitOf i) s s' → exec i s = .next t →
    ∃ t' r, exec i s' = .next t' ∧ agreeOn (unitOf i) t t' ∧
      t.responses = s.responses ++ [r] ∧ t'.responses = s'.responses ++ [r]

/-- Every memory byte is unchanged except RXBUF where RX.PUT, or a wire symbol (model's choice, log entry 4), stores and RXDATA below the new RXDLEN at RX.END. R60 says that only RX.PUT writes RXBUF; that a wire symbol does RX.PUT of its first byte is the MODEL'S CHOICE (log entry 4). Derived from 20_memory.md section 1 (R60, R61, R75), 20_memory.md section 3 (R68), log entry 4. -/
def Obligations.MemoryCellsOutsideStoresKeepTheirBytes : Prop :=
  ∀ (i : Instr) (s t : State), exec i s = .next t →
    (∀ k, k ≠ s.rxlen.toNat → t.rxbuf.get k = s.rxbuf.get k) ∧
    ((∀ b, i ≠ .rxPut b) → isOperation i = true → ∀ k, t.rxbuf.get k = s.rxbuf.get k) ∧
    (i ≠ .rxEnd → t.rxdata = s.rxdata) ∧
    (i = .rxEnd → ∀ k, t.rxdlen.toNat ≤ k → t.rxdata.get k = s.rxdata.get k)

/-- Cells at or above RXLEN and RXDLEN influence no response and no reachable state of any step. Derived from 20_memory.md section 1 (R75), 10_state.md section 8 (R42), 93_implementation_defined.md U7. -/
def Obligations.UnreachableCellsAreUnobservable : Prop :=
  ∀ s s' t : State, s.Inv → s'.Inv → s.SameReachable s' → s.pending = s'.pending → step s = .next t →
    ∃ t' rs, step s' = .next t' ∧ t.SameReachable t' ∧ t.pending = t'.pending ∧
      t.responses = s.responses ++ rs ∧ t'.responses = s'.responses ++ rs

/-- The packed response port holds output byte k in bits 8k+7 to 8k and the number of output bytes. Derived from 70_reset_and_hazards.md section 4 (R281), 30_encoding.md section B3 (R104). -/
def Obligations.ResponsePortsCarryOutputBytes : Prop :=
  ∀ (lines : BitVec 40) (r : Response), r.out.length ≤ 5 →
    (rspNout r).toNat = r.out.length ∧
    ∀ (k : Nat) (b : Byte), r.out[k]? = some b → (rspOut lines r).extractLsb' (8 * k) 8 = b
end

