-- ==== Sys2Proof/Laws/State.lean ====
section
/-! SUPPORT. One lemma per field per update of State, all by rfl, so that no proof unfolds a record update. -/

namespace Sys2Proof.Machine

section respond
variable (r : Response) (s : State)

@[simp] theorem State.respond_crc : (s.respond r).crc = s.crc := rfl
@[simp] theorem State.respond_unepend : (s.respond r).unepend = s.unepend := rfl
@[simp] theorem State.respond_txph : (s.respond r).txph = s.txph := rfl
@[simp] theorem State.respond_txcnt : (s.respond r).txcnt = s.txcnt := rfl
@[simp] theorem State.respond_txcrc : (s.respond r).txcrc = s.txcrc := rfl
@[simp] theorem State.respond_rxlen : (s.respond r).rxlen = s.rxlen := rfl
@[simp] theorem State.respond_rxovf : (s.respond r).rxovf = s.rxovf := rfl
@[simp] theorem State.respond_rxstat : (s.respond r).rxstat = s.rxstat := rfl
@[simp] theorem State.respond_rxtype : (s.respond r).rxtype = s.rxtype := rfl
@[simp] theorem State.respond_rxaddr : (s.respond r).rxaddr = s.rxaddr := rfl
@[simp] theorem State.respond_rxcmd : (s.respond r).rxcmd = s.rxcmd := rfl
@[simp] theorem State.respond_rxdlen : (s.respond r).rxdlen = s.rxdlen := rfl
@[simp] theorem State.respond_rxbuf : (s.respond r).rxbuf = s.rxbuf := rfl
@[simp] theorem State.respond_rxdata : (s.respond r).rxdata = s.rxdata := rfl
@[simp] theorem State.respond_pending : (s.respond r).pending = s.pending := rfl
@[simp] theorem State.respond_responses : (s.respond r).responses = s.responses ++ [r] := rfl

end respond

section applyReset
variable (s : State)

@[simp] theorem applyReset_crc : (applyReset s).crc = 0 := rfl
@[simp] theorem applyReset_unepend : (applyReset s).unepend = false := rfl
@[simp] theorem applyReset_txph : (applyReset s).txph = .idle := rfl
@[simp] theorem applyReset_txcnt : (applyReset s).txcnt = 0 := rfl
@[simp] theorem applyReset_txcrc : (applyReset s).txcrc = 0 := rfl
@[simp] theorem applyReset_rxlen : (applyReset s).rxlen = 0 := rfl
@[simp] theorem applyReset_rxovf : (applyReset s).rxovf = false := rfl
@[simp] theorem applyReset_rxstat : (applyReset s).rxstat = .fill := rfl
@[simp] theorem applyReset_rxtype : (applyReset s).rxtype = 0 := rfl
@[simp] theorem applyReset_rxaddr : (applyReset s).rxaddr = 0 := rfl
@[simp] theorem applyReset_rxcmd : (applyReset s).rxcmd = 0 := rfl
@[simp] theorem applyReset_rxdlen : (applyReset s).rxdlen = 0 := rfl
@[simp] theorem applyReset_rxbuf : (applyReset s).rxbuf = [] := rfl
@[simp] theorem applyReset_rxdata : (applyReset s).rxdata = [] := rfl
@[simp] theorem applyReset_pending : (applyReset s).pending = s.pending := rfl
@[simp] theorem applyReset_responses : (applyReset s).responses = s.responses := rfl

end applyReset

section offer
variable (f : FetchWord) (s : State)

@[simp] theorem State.offer_crc : (s.offer f).crc = s.crc := rfl
@[simp] theorem State.offer_unepend : (s.offer f).unepend = s.unepend := rfl
@[simp] theorem State.offer_txph : (s.offer f).txph = s.txph := rfl
@[simp] theorem State.offer_txcnt : (s.offer f).txcnt = s.txcnt := rfl
@[simp] theorem State.offer_txcrc : (s.offer f).txcrc = s.txcrc := rfl
@[simp] theorem State.offer_rxlen : (s.offer f).rxlen = s.rxlen := rfl
@[simp] theorem State.offer_rxovf : (s.offer f).rxovf = s.rxovf := rfl
@[simp] theorem State.offer_rxstat : (s.offer f).rxstat = s.rxstat := rfl
@[simp] theorem State.offer_rxtype : (s.offer f).rxtype = s.rxtype := rfl
@[simp] theorem State.offer_rxaddr : (s.offer f).rxaddr = s.rxaddr := rfl
@[simp] theorem State.offer_rxcmd : (s.offer f).rxcmd = s.rxcmd := rfl
@[simp] theorem State.offer_rxdlen : (s.offer f).rxdlen = s.rxdlen := rfl
@[simp] theorem State.offer_rxbuf : (s.offer f).rxbuf = s.rxbuf := rfl
@[simp] theorem State.offer_rxdata : (s.offer f).rxdata = s.rxdata := rfl
@[simp] theorem State.offer_pending : (s.offer f).pending = commandInputs f ++ s.pending := rfl
@[simp] theorem State.offer_responses : (s.offer f).responses = s.responses := rfl

end offer

/-- `answer` always answers a next state: the response, and nothing else of the state. -/
theorem answer_eq (v : Half) (out : List Byte) (s : State) : answer v out s = .next (s.respond ⟨.ok, v, out⟩) := rfl

/-- `raise` always answers a next state: the refusal `(CODE, 0, [])`, and nothing else of the state. -/
theorem raise_eq (c : Rc) (s : State) : raise c s = .next (s.respond ⟨c, 0, []⟩) := rfl

/-- Taking an offered word back out of the queue gives the state before the offer. -/
@[simp] theorem fetch_offer_cmd (s : State) (w : CmdWord) : fetch (s.offer (.cmd w)) = some (.word w, s) := rfl

/-- With nothing offered, nothing is fetched. -/
theorem fetch_nil (s : State) (h : s.pending = []) : fetch s = none := by simp [fetch, h]

/-- The head of the queue is what is fetched. -/
theorem fetch_cons (s : State) (i : Input) (rest : List Input) (h : s.pending = i :: rest) :
    fetch s = some (i, { s with pending := rest }) := by simp [fetch, h]

end Sys2Proof.Machine
end

