-- ==== Sys2Proof/Laws/Memory.lean ====
section
/-! SUPPORT. The memories: read after write, the canonical form is kept by every memory operation, and one lemma per shared access that says all it can do. -/

namespace Sys2Proof.Machine

theorem rxmax_ge : 6 ≤ Config.rxmax := by simp [Config.rxmax]

theorem rxmax_le : Config.rxmax ≤ 65535 := by
  have := Config.rxmaxChoice.isLt
  simp only [Config.rxmax]; omega

@[simp] theorem Memory.get_nil (i : Nat) : Memory.get [] i = none := rfl

/-- Reading where a byte was just written gives that byte. -/
@[simp] theorem Memory.get_set_same (m : Memory) (i : Nat) (v : Byte) : (m.set i v).get i = some v := by
  induction m with
  | nil => simp [Memory.set, Memory.get]
  | cons c m ih =>
    obtain ⟨k, x⟩ := c
    unfold Memory.set
    split
    · simp [Memory.get]
    · split
      · simp [Memory.get]
      · simp [Memory.get, ih]; omega

/-- A write leaves every other index as it was. -/
theorem Memory.get_set_other (m : Memory) (i j : Nat) (v : Byte) (h : j ≠ i) : (m.set i v).get j = m.get j := by
  induction m with
  | nil => simp [Memory.set, Memory.get]; omega
  | cons c m ih =>
    obtain ⟨k, x⟩ := c
    unfold Memory.set
    split
    · simp [Memory.get]; omega
    · split
      · subst_vars; simp [Memory.get, Ne.symm h]
      · simp [Memory.get, ih]

/-- A write to an existing index keeps every listed index inside the memory. -/
theorem Memory.within_set (size : Nat) (m : Memory) (i : Nat) (v : Byte) (hi : i < size)
    (h : m.within size = true) : (m.set i v).within size = true := by
  induction m with
  | nil => simp [Memory.set, Memory.within, hi]
  | cons c m ih =>
    obtain ⟨k, x⟩ := c
    simp only [Memory.within, List.all_cons, Bool.and_eq_true, decide_eq_true_eq] at h ih
    unfold Memory.set
    split
    · simp [Memory.within, hi, h]
    · split
      · simp [Memory.within, hi, h]
      · simp [Memory.within, h, ih h.2]

theorem Memory.wf_cons (k : Nat) (x : Byte) (m : Memory) :
    Memory.wf ((k, x) :: m) = true ↔ (∀ c, m.head? = some c → k < c.1) ∧ m.wf = true := by
  cases m with
  | nil => simp [Memory.wf]
  | cons c m => obtain ⟨a, y⟩ := c; simp [Memory.wf]

theorem Memory.head_set (m : Memory) (i : Nat) (v : Byte) (c : Host.Cell) (h : (m.set i v).head? = some c) :
    c.1 = i ∨ m.head? = some c := by
  cases m with
  | nil => simp [Memory.set] at h; simp [← h]
  | cons d m =>
    obtain ⟨k, x⟩ := d
    unfold Memory.set at h
    split at h
    · simp at h; simp [← h]
    · split at h
      · simp at h; simp [← h]
      · simp at h; simp [h]

/-- A write keeps the canonical form. -/
theorem Memory.wf_set (m : Memory) (i : Nat) (v : Byte) (h : m.wf = true) : (m.set i v).wf = true := by
  induction m with
  | nil => simp [Memory.set, Memory.wf]
  | cons c m ih =>
    obtain ⟨k, x⟩ := c
    have hk := (Memory.wf_cons k x m).1 h
    unfold Memory.set
    split
    · rw [Memory.wf_cons]; exact ⟨by simpa using ‹_›, h⟩
    · split
      · subst_vars; rw [Memory.wf_cons]; exact hk
      · rw [Memory.wf_cons]
        refine ⟨fun c hc => ?_, ih hk.2⟩
        rcases Memory.head_set m i v c hc with e | e
        · omega
        · exact hk.1 c e

/-- `memRead` answers exactly the byte that was written at the index. -/
theorem memRead_ok (m : Memory) (i : Nat) (v : Byte) : memRead m i = .ok v ↔ m.get i = some v := by
  unfold memRead
  cases h : m.get i <;> simp

/-- All that `memWrite` can do. -/
theorem memWrite_ok (size : Nat) (m m' : Memory) (i : Nat) (v : Byte) :
    memWrite size m i v = .ok m' ↔ i < size ∧ m' = m.set i v := by
  unfold memWrite
  split <;> simp_all [eq_comm]

/-- All that `readBytes` can answer: the bytes written at the indices asked for. -/
theorem readBytes_ok (m : Memory) (i n : Nat) (vs : List Byte) :
    readBytes m i n = .ok vs ↔ vs.length = n ∧ ∀ k, k < n → m.get (i + k) = vs[k]? := by
  induction n generalizing i vs with
  | zero => cases vs <;> simp [readBytes]
  | succ n ih =>
    constructor
    · intro h
      unfold readBytes at h
      split at h
      · cases h
      · rename_i v hv
        split at h
        · cases h
        · rename_i vs' hvs
          obtain rfl : v :: vs' = vs := by simpa using h
          obtain ⟨hl, hr⟩ := (ih _ _).1 hvs
          rw [memRead_ok] at hv
          refine ⟨by simp [hl], fun k hk => ?_⟩
          cases k with
          | zero => simpa using hv
          | succ k =>
            have := hr k (by omega)
            rw [show i + (k + 1) = i + 1 + k by omega]
            simpa using this
    · rintro ⟨hl, hr⟩
      cases vs with
      | nil => simp at hl
      | cons v vs =>
        have h0 := hr 0 (by omega)
        have hv : memRead m i = .ok v := (memRead_ok _ _ _).2 (by simpa using h0)
        have hvs : readBytes m (i + 1) n = .ok vs := by
          refine (ih _ _).2 ⟨by simpa using hl, fun k hk => ?_⟩
          have := hr (k + 1) (by omega)
          rw [show i + 1 + k = i + (k + 1) by omega]
          simpa using this
        simp [readBytes, hv, hvs]

/-- All that `writeBytes` can do: every index written is one of the memory, the written indices read as the bytes, every
other index reads as before, and the canonical form is kept. -/
theorem writeBytes_ok (size : Nat) (m m' : Memory) (i : Nat) (vs : List Byte) (h : writeBytes size m i vs = .ok m') :
    (vs ≠ [] → i + vs.length ≤ size) ∧ (∀ k, k < vs.length → m'.get (i + k) = vs[k]?)
    ∧ (∀ j, (j < i ∨ i + vs.length ≤ j) → m'.get j = m.get j)
    ∧ (m.wf = true → m'.wf = true) ∧ (m.within size = true → m'.within size = true) := by
  induction vs generalizing i m with
  | nil => simp [writeBytes] at h; subst h; simp
  | cons v vs ih =>
    unfold writeBytes at h
    split at h
    · cases h
    · rename_i m1 hm
      obtain ⟨hi, rfl⟩ := (memWrite_ok _ _ _ _ _).1 hm
      obtain ⟨h1, h2, h3, h4, h5⟩ := ih _ _ h
      refine ⟨fun _ => ?_, fun k hk => ?_, fun j hj => ?_, fun hw => h4 (Memory.wf_set _ _ _ hw),
        fun hw => h5 (Memory.within_set _ _ _ _ hi hw)⟩
      · cases vs with
        | nil => simpa using hi
        | cons _ _ => have := h1 (by simp); simp at this ⊢; omega
      · cases k with
        | zero => rw [h3 _ (by omega)]; simp
        | succ k =>
          rw [show i + (k + 1) = i + 1 + k by omega]
          simpa using h2 k (by simpa using hk)
      · simp only [List.length_cons] at hj
        rw [h3 _ (by omega), Memory.get_set_other _ _ _ _ (by omega)]

/-- `writeBytes` never fails when the indices are inside the memory. -/
theorem writeBytes_total (size : Nat) (m : Memory) (i : Nat) (vs : List Byte) (h : i + vs.length ≤ size) :
    ∃ m', writeBytes size m i vs = .ok m' := by
  induction vs generalizing i m with
  | nil => exact ⟨m, rfl⟩
  | cons v vs ih =>
    simp only [List.length_cons] at h
    obtain ⟨m', hm⟩ := ih (m.set i v) (i + 1) (by omega)
    exact ⟨m', by simp [writeBytes, memWrite, show i < size by omega, hm]⟩

/-- The memories of the state after reset are in canonical form. -/
theorem reset_memories_wf : State.reset.rxbuf.wf = true ∧ State.reset.rxdata.wf = true := ⟨rfl, rfl⟩

end Sys2Proof.Machine
end

