-- ==== Sys2Proof/Laws/Ops.lean ====
section
/-! SUPPORT. One lemma per shared operation that says once everything it can do, and the same for a step. -/

namespace Sys2Proof.Machine

/-- Everything `rxPut` can answer as a next state. -/
theorem rxPut_cases (rxmax : Nat) (b : Byte) (s t : State) (h : rxPut rxmax b s = .next t) :
    (s.rxstat ≠ .fill ∧ t = s.respond ⟨.seq, 0, []⟩)
    ∨ (s.rxstat = .fill ∧ s.rxlen.toNat = rxmax ∧ t = ({ s with rxovf := true } : State).respond ⟨.ovf, 0, []⟩)
    ∨ (s.rxstat = .fill ∧ s.rxlen.toNat < rxmax
        ∧ t = ({ s with rxbuf := s.rxbuf.set s.rxlen.toNat b, rxlen := s.rxlen + 1 } : State).respond ⟨.ok, 0, []⟩) := by
  unfold rxPut at h
  split at h
  · rw [raise_eq] at h; injection h with h; exact .inl ⟨‹_›, h.symm⟩
  · split at h
    · rw [raise_eq] at h; injection h with h; exact .inr (.inl ⟨by simp_all, ‹_›, h.symm⟩)
    · split at h
      · cases h
      · rename_i m hm
        obtain ⟨hi, rfl⟩ := (memWrite_ok _ _ _ _ _).1 hm
        rw [answer_eq] at h; injection h with h
        exact .inr (.inr ⟨by simp_all, hi, h.symm⟩)

/-- `rxPut` answers a next state whenever `RXLEN` is at most `RXMAX` (or a result is held). -/
theorem rxPut_next (rxmax : Nat) (b : Byte) (s : State) (h : s.rxlen.toNat ≤ rxmax) : ∃ t, rxPut rxmax b s = .next t := by
  unfold rxPut
  split
  · exact ⟨_, rfl⟩
  · split
    · exact ⟨_, rfl⟩
    · simp only [memWrite, show s.rxlen.toNat < rxmax by omega, if_true]
      exact ⟨_, rfl⟩

/-- `rxPut` never refuses. -/
theorem rxPut_not_refused (rxmax : Nat) (b : Byte) (s : State) (r : Refusal) : rxPut rxmax b s ≠ .refused r := by
  unfold rxPut
  split
  · simp [raise_eq]
  · split
    · simp [raise_eq]
    · split <;> simp [answer_eq]

@[simp] theorem putInputs_nil : putInputs [] = [] := rfl
@[simp] theorem putInputs_cons (b : Byte) (bs : List Byte) :
    putInputs (b :: bs) = .word (rxPutWord b) :: putInputs bs := rfl
@[simp] theorem give_nil (rxmax : Nat) (s : State) : give rxmax [] s = .next s := rfl
@[simp] theorem give_singleton (rxmax : Nat) (b : Byte) (s : State) : give rxmax [b] s = rxPut rxmax b s := rfl

/-- Giving bytes puts the first and offers the command words of the others. -/
theorem give_cons (rxmax : Nat) (b : Byte) (bs : List Byte) (s : State) :
    give rxmax (b :: bs) s = rxPut rxmax b { s with pending := putInputs bs ++ s.pending } := rfl

/-- `rxFinish` keeps the result code and answers it. -/
theorem rxFinish_eq (st : RxStat) (s : State) :
    rxFinish st s = .next (({ s with rxstat := st } : State).respond ⟨.ok, 0#13 ++ rxStatCode st, []⟩) := rfl

/-- Everything `rxKeep` can answer as a next state. -/
theorem rxKeep_cases (rxmax : Nat) (d : Decoded) (s t : State) (h : rxKeep rxmax d s = .next t) :
    (∃ ty a c data m, d = .frame ty a c data ∧ writeBytes (Config.rxdataSize rxmax) s.rxdata 0 data = .ok m
      ∧ t = ({ s with rxaddr := a, rxcmd := c, rxdlen := BitVec.ofNat 16 data.length, rxdata := m, rxstat := .frame }
          : State).respond ⟨.ok, 1, []⟩)
    ∨ (d = .empty ∧ t = ({ s with rxstat := .empty } : State).respond ⟨.ok, 3, []⟩)
    ∨ (d = .short ∧ t = ({ s with rxstat := .short } : State).respond ⟨.ok, 4, []⟩)
    ∨ (d = .type ∧ t = ({ s with rxstat := .type } : State).respond ⟨.ok, 5, []⟩)
    ∨ (d = .csum ∧ t = ({ s with rxstat := .csum } : State).respond ⟨.ok, 6, []⟩)
    ∨ (d = .ackd ∧ t = ({ s with rxstat := .ackd } : State).respond ⟨.ok, 2, []⟩) := by
  cases d with
  | frame ty a c data =>
    simp only [rxKeep] at h
    split at h
    · cases h
    · rw [rxFinish_eq] at h; injection h with h
      exact .inl ⟨ty, a, c, data, _, rfl, ‹_›, h.symm⟩
  | empty => simp only [rxKeep, rxFinish_eq] at h; injection h with h; simp [← h]; rfl
  | short => simp only [rxKeep, rxFinish_eq] at h; injection h with h; simp [← h]; rfl
  | type => simp only [rxKeep, rxFinish_eq] at h; injection h with h; simp [← h]; rfl
  | csum => simp only [rxKeep, rxFinish_eq] at h; injection h with h; simp [← h]; rfl
  | ackd => simp only [rxKeep, rxFinish_eq] at h; injection h with h; simp [← h]; rfl

/-- Everything `rxEnd` can answer as a next state. -/
theorem rxEnd_cases (rxmax : Nat) (s t : State) (h : rxEnd rxmax s = .next t) :
    (s.rxstat ≠ .fill ∧ t = s.respond ⟨.seq, 0, []⟩)
    ∨ (s.rxstat = .fill ∧ ∃ raw, readBytes s.rxbuf 0 s.rxlen.toNat = .ok raw ∧
        ((s.rxovf = true ∧ t = ({ s with rxtype := raw.headD 0, rxaddr := 0, rxcmd := 0, rxdlen := 0, rxstat := .ovfl }
            : State).respond ⟨.ok, 7, []⟩)
        ∨ (s.rxovf = false ∧ rxKeep rxmax (decodeFrame raw)
            { s with rxtype := raw.headD 0, rxaddr := 0, rxcmd := 0, rxdlen := 0 } = .next t))) := by
  unfold rxEnd at h
  split at h
  · rw [raise_eq] at h; injection h with h; exact .inl ⟨‹_›, h.symm⟩
  · split at h
    · cases h
    · rename_i raw hr
      refine .inr ⟨by simp_all, raw, hr, ?_⟩
      simp only at h
      split at h
      · rw [rxFinish_eq] at h; injection h with h; exact .inl ⟨‹_›, h.symm⟩
      · exact .inr ⟨by simp_all, h⟩

/-- Everything `rxLoad` can answer as a next state. -/
theorem rxLoad_cases (i : Half) (s t : State) (h : rxLoad i s = .next t) :
    (s.rxstat ≠ .frame ∧ t = s.respond ⟨.seq, 0, []⟩)
    ∨ (s.rxstat = .frame ∧ s.rxdlen.toNat ≤ i.toNat ∧ t = s.respond ⟨.range, 0, []⟩)
    ∨ (s.rxstat = .frame ∧ i.toNat < s.rxdlen.toNat ∧ ∃ v, s.rxdata.get i.toNat = some v
        ∧ t = s.respond ⟨.ok, zext16 v, []⟩) := by
  unfold rxLoad at h
  split at h
  · rw [raise_eq] at h; injection h with h; exact .inl ⟨‹_›, h.symm⟩
  · split at h
    · rw [raise_eq] at h; injection h with h; exact .inr (.inl ⟨by simp_all, ‹_›, h.symm⟩)
    · split at h
      · cases h
      · rename_i v hv
        rw [answer_eq] at h; injection h with h
        exact .inr (.inr ⟨by simp_all, by omega, v, (memRead_ok _ _ _).1 hv, h.symm⟩)

/-- The command word `RX.PUT b` decodes to the operation. -/
theorem decode_rxPutWord (b : Byte) : decode (.cmd (rxPutWord b)) = .ok (.rxPut b) := by
  revert b; decide +kernel

/-- Everything a step can answer as a next state. -/
theorem step_cases (s t : State) (h : step s = .next t) :
    (s.pending = [] ∧ t = s)
    ∨ (∃ i rest, s.pending = i :: rest ∧ (i = .rst ∨ ∃ w, i = .cut w) ∧ t = applyReset { s with pending := rest })
    ∨ (∃ w rest i, s.pending = .word w :: rest ∧ decode (.cmd w) = .ok i ∧ exec i { s with pending := rest } = .next t)
    ∨ (∃ w rest e, s.pending = .word w :: rest ∧ decode (.cmd w) = .error e
        ∧ t = ({ s with pending := rest } : State).respond ⟨.illegal, 0, []⟩) := by
  cases hp : s.pending with
  | nil => simp [step, fetch_nil s hp] at h; exact .inl ⟨rfl, h.symm⟩
  | cons i rest =>
    cases i with
    | rst =>
      simp only [step, fetch_cons s _ rest hp] at h; injection h with h
      exact .inr (.inl ⟨_, rest, rfl, .inl rfl, h.symm⟩)
    | cut w =>
      simp only [step, fetch_cons s _ rest hp] at h; injection h with h
      exact .inr (.inl ⟨_, rest, rfl, .inr ⟨w, rfl⟩, h.symm⟩)
    | word w =>
      simp only [step, fetch_cons s _ rest hp] at h
      cases hd : decode (.cmd w) with
      | ok i => rw [hd] at h; exact .inr (.inr (.inl ⟨w, rest, i, rfl, hd, h⟩))
      | error e =>
        simp only [hd, rejectWord, raise_eq] at h; injection h with h
        exact .inr (.inr (.inr ⟨w, rest, e, rfl, hd, h.symm⟩))

/-- A step on the command word `RX.PUT b` puts the byte: this is how each byte of a wire symbol reaches the block. -/
theorem step_rxPutWord (s : State) (b : Byte) (rest : List Input) (h : s.pending = .word (rxPutWord b) :: rest) :
    step s = rxPut Config.rxmax b { s with pending := rest } := by
  simp only [step, fetch_cons s _ rest h, decode_rxPutWord]; rfl

end Sys2Proof.Machine
end

