-- ==== Sys2Proof/Laws/PerInstr.lean ====
section
/-! SUPPORT. Per-instruction lemmas about the instruction as syntax. Family EncodedBits: the encoding has as many bits as spec/opcode_table.json gives the row. -/

namespace Sys2Proof.Laws

/-- The width of the row in spec/opcode_table.json: CMD24, WIRE8 or WIRE16. -/
def tableBits : Instr → Nat
  | .nop | .get _ | .crcClr | .crcPut _ | .escPut _ | .uneClr | .unePut _ | .uneEnd | .txStart _ | .txPut _
  | .txEnd | .txClr | .rxClr | .rxPut _ | .rxEnd | .rxLd _ => 24
  | .startToDev | .startFromDev | .startNul | .ack | .stop | .lit _ => 8
  | .esc _ | .escStop | .escAck | .escEsc | .escToDev | .escFromDev => 16

/-- The encoding of an instruction has the width of its row. -/
def EncodedBits.Statement (i : Instr) : Prop := (encode i).nbits = tableBits i

theorem EncodedBits.nop : EncodedBits.Statement (.nop) := rfl
theorem EncodedBits.get (n : Half) : EncodedBits.Statement (.get n) := rfl
theorem EncodedBits.crcClr : EncodedBits.Statement (.crcClr) := rfl
theorem EncodedBits.crcPut (b : Byte) : EncodedBits.Statement (.crcPut b) := rfl
theorem EncodedBits.escPut (b : Byte) : EncodedBits.Statement (.escPut b) := rfl
theorem EncodedBits.uneClr : EncodedBits.Statement (.uneClr) := rfl
theorem EncodedBits.unePut (b : Byte) : EncodedBits.Statement (.unePut b) := rfl
theorem EncodedBits.uneEnd : EncodedBits.Statement (.uneEnd) := rfl
theorem EncodedBits.txStart (t : Byte) : EncodedBits.Statement (.txStart t) := rfl
theorem EncodedBits.txPut (b : Byte) : EncodedBits.Statement (.txPut b) := rfl
theorem EncodedBits.txEnd : EncodedBits.Statement (.txEnd) := rfl
theorem EncodedBits.txClr : EncodedBits.Statement (.txClr) := rfl
theorem EncodedBits.rxClr : EncodedBits.Statement (.rxClr) := rfl
theorem EncodedBits.rxPut (b : Byte) : EncodedBits.Statement (.rxPut b) := rfl
theorem EncodedBits.rxEnd : EncodedBits.Statement (.rxEnd) := rfl
theorem EncodedBits.rxLd (i : Half) : EncodedBits.Statement (.rxLd i) := rfl
theorem EncodedBits.startToDev : EncodedBits.Statement (.startToDev) := rfl
theorem EncodedBits.startFromDev : EncodedBits.Statement (.startFromDev) := rfl
theorem EncodedBits.startNul : EncodedBits.Statement (.startNul) := rfl
theorem EncodedBits.ack : EncodedBits.Statement (.ack) := rfl
theorem EncodedBits.stop : EncodedBits.Statement (.stop) := rfl
theorem EncodedBits.esc (x : Byte) : EncodedBits.Statement (.esc x) := rfl
theorem EncodedBits.escStop : EncodedBits.Statement (.escStop) := rfl
theorem EncodedBits.escAck : EncodedBits.Statement (.escAck) := rfl
theorem EncodedBits.escEsc : EncodedBits.Statement (.escEsc) := rfl
theorem EncodedBits.escToDev : EncodedBits.Statement (.escToDev) := rfl
theorem EncodedBits.escFromDev : EncodedBits.Statement (.escFromDev) := rfl
theorem EncodedBits.lit (b : Byte) : EncodedBits.Statement (.lit b) := rfl

end Sys2Proof.Laws
end

