-- ==== Sys2Proof/Machine/Written.lean ====
section
/-! DEFINITION. The written form of operations, command words, wire listings and trace lines (spec 30 R107); no step depends on this file. -/

namespace Sys2Proof.Machine

/-- One hexadecimal digit, capital letters as in the spec. -/
def hexDigit (n : Nat) : String := ("0123456789ABCDEF".toList.getD (n % 16) '0').toString

/-- `v` in `n` hexadecimal digits. -/
def hexText : Nat → Nat → String
  | 0, _ => ""
  | n + 1, v => hexText n (v / 16) ++ hexDigit v

/-- A command word as six hexadecimal digits. -/
def wordText (w : CmdWord) : String := hexText 6 w.toNat

/-- Bytes as a wire listing. -/
def bytesText (l : List Byte) : String := " ".intercalate (l.map (fun b => hexText 2 b.toNat))

/-- A mnemonic with a byte operand. -/
def withByte (m : String) (b : Byte) : String := m ++ " 0x" ++ hexText 2 b.toNat

/-- An operation in written form; a wire symbol as its wire bytes. -/
def written (i : Instr) : String :=
  match i with
  | .nop => "NOP"
  | .get n => "GET " ++ toString n.toNat
  | .crcClr => "CRC.CLR"
  | .crcPut b => withByte "CRC.PUT" b
  | .escPut b => withByte "ESC.PUT" b
  | .uneClr => "UNE.CLR"
  | .unePut b => withByte "UNE.PUT" b
  | .uneEnd => "UNE.END"
  | .txStart t => withByte "TX.START" t
  | .txPut b => withByte "TX.PUT" b
  | .txEnd => "TX.END"
  | .txClr => "TX.CLR"
  | .rxClr => "RX.CLR"
  | .rxPut b => withByte "RX.PUT" b
  | .rxEnd => "RX.END"
  | .rxLd k => "RX.LD " ++ toString k.toNat
  | .startToDev | .startFromDev | .startNul | .ack | .stop => bytesText (wireBytes i)
  | .esc _ | .escStop | .escAck | .escEsc | .escToDev | .escFromDev | .lit _ => bytesText (wireBytes i)

/-- The name of a response code (60 R232). -/
def rcText : Rc → String
  | .ok => "OK"
  | .illegal => "ILLEGAL"
  | .seq => "SEQ"
  | .range => "RANGE"
  | .ovf => "OVF"
  | .trail => "TRAIL"

/-- A trace line: the operation, then the response with the parts that are zero or empty left out. -/
def traceLine (i : Instr) (r : Response) : String :=
  written i ++ " -> " ++ rcText r.rc
    ++ (if r.val = 0 then "" else " val=0x" ++ hexText 4 r.val.toNat)
    ++ (if r.out = [] then "" else " out=[" ++ bytesText r.out ++ "]")

end Sys2Proof.Machine
end

