-- ==== Sys2Proof/Tests/Slice0.lean ====
section
/-! SUPPORT. The session's own tests. Expected values are the spec's: the vectors V<n> and programs P<n> of 95_test_vectors.md and the examples of the operation rules. The theorems witness_… each show a concrete state and operands that meet the hypotheses of the statement they are named after. -/

namespace Sys2Proof.Tests

open Sys2Proof.Machine

/-- The next state of an answer. -/
def nextOf : Result → Option State
  | .next t => some t
  | _ => none

/-- The next state after the command word `w`. -/
def after (w : CmdWord) (s : State) : Option State := nextOf (step (s.offer (.cmd w)))

/-- The response to the command word `w`. -/
def reply (w : CmdWord) (s : State) : Option Response := (after w s).bind (fun t => t.responses.getLast?)

def ok (val : Half) (out : List Byte) : Option Response := some ⟨.ok, val, out⟩
def refusal (c : Rc) : Option Response := some ⟨c, 0, []⟩

/-- One raw byte stored. -/
def filling : State := { State.reset with rxlen := 1, rxbuf := [(0, 0x40)] }

/-- A frame held with no data: the bytes of V50. -/
def held : State :=
  { State.reset with rxlen := 6, rxstat := .frame, rxtype := 0x80, rxaddr := 0x2A, rxcmd := 0x01,
                     rxbuf := [(0, 0x80), (1, 0x2A), (2, 0x01), (3, 0xF9), (4, 0x0C), (5, 0x0D)] }

/-- The bytes of V50 put and not yet decoded. -/
def received : State :=
  { State.reset with rxlen := 6, rxbuf := [(0, 0x80), (1, 0x2A), (2, 0x01), (3, 0xF9), (4, 0x0C), (5, 0x0D)] }

/-- The raw buffer full. -/
def full : State := { State.reset with rxlen := BitVec.ofNat 16 Config.rxmax }

/-- A frame open, two bytes put. -/
def opened : State := { State.reset with txph := .opened, txcnt := 2, txcrc := 0x2A01 }

/-- An introducer pending in the unstuffer. -/
def introduced : State := { State.reset with unepend := true }

-- WellFormed: each check refuses an ill-formed term (30 R80, R102).
theorem test_wellFormed_refuses_get_11 : (Instr.get 11).wellFormed = false := by decide
theorem test_wellFormed_refuses_other_start_type : (Instr.txStart 0x55).wellFormed = false := by decide
theorem test_wellFormed_refuses_null_start_type : (Instr.txStart 0x00).wellFormed = false := by decide
theorem test_wellFormed_refuses_canonical_pair_as_esc : (Instr.esc 0xF2).wellFormed = false := by decide
theorem test_wellFormed_refuses_introducer_as_literal : (Instr.lit 0x1B).wellFormed = false := by decide
theorem test_wellFormed_accepts :
    (Instr.get 10).wellFormed = true ∧ (Instr.txStart 0x06).wellFormed = true ∧ (Instr.esc 0x41).wellFormed = true
    ∧ (Instr.lit 0x80).wellFormed = true := by decide

-- Decoding: every constructor from a word written out from 30 R100 and R80.
theorem test_decode_system :
    decode (.cmd 0b000000000000000000000000) = .ok .nop
    ∧ decode (.cmd 0b000000010000000000001010) = .ok (.get 10) := by decide
theorem test_decode_checksum :
    decode (.cmd 0b000100000000000000000000) = .ok .crcClr
    ∧ decode (.cmd 0b000100010000000000110001) = .ok (.crcPut 0x31) := by decide
theorem test_decode_escape :
    decode (.cmd 0b001000000000000011100100) = .ok (.escPut 0xE4)
    ∧ decode (.cmd 0b001000010000000000000000) = .ok .uneClr
    ∧ decode (.cmd 0b001000100000000000011011) = .ok (.unePut 0x1B)
    ∧ decode (.cmd 0b001000110000000000000000) = .ok .uneEnd := by decide
theorem test_decode_compose :
    decode (.cmd 0b001100000000000010000000) = .ok (.txStart 0x80)
    ∧ decode (.cmd 0b001100010000000000101010) = .ok (.txPut 0x2A)
    ∧ decode (.cmd 0b001100100000000000000000) = .ok .txEnd
    ∧ decode (.cmd 0b001100110000000000000000) = .ok .txClr := by decide
theorem test_decode_decompose :
    decode (.cmd 0b010000000000000000000000) = .ok .rxClr
    ∧ decode (.cmd 0b010000010000000001000000) = .ok (.rxPut 0x40)
    ∧ decode (.cmd 0b010000100000000000000000) = .ok .rxEnd
    ∧ decode (.cmd 0b010000110000000100000010) = .ok (.rxLd 0x0102) := by decide
theorem test_decode_start_stop_symbols :
    decode (.wire .first [0b10000000]) = .ok .startToDev ∧ decode (.wire .first [0b01000000]) = .ok .startFromDev
    ∧ decode (.wire .first [0b00000000]) = .ok .startNul ∧ decode (.wire .first [0b00000110]) = .ok .ack
    ∧ decode (.wire .last [0b00001101]) = .ok .stop := by decide
theorem test_decode_payload_symbols :
    decode (.wire .interior [0b00011011, 0b01000001]) = .ok (.esc 0x41)
    ∧ decode (.wire .interior [0b00011011, 0b11110010]) = .ok .escStop
    ∧ decode (.wire .interior [0b00011011, 0b11111001]) = .ok .escAck
    ∧ decode (.wire .interior [0b00011011, 0b11100100]) = .ok .escEsc
    ∧ decode (.wire .interior [0b00011011, 0b01111111]) = .ok .escToDev
    ∧ decode (.wire .interior [0b00011011, 0b10111111]) = .ok .escFromDev
    ∧ decode (.wire .interior [0b10000000]) = .ok (.lit 0x80) := by decide
theorem test_decode_rejects_by_name :
    decode (.cmd 0x500000) = .error .undefinedOpcode ∧ decode (.cmd 0x000001) = .error .argNotZero
    ∧ decode (.cmd 0x310100) = .error .argHighNotZero ∧ decode (.wire .interior [0x1B]) = .error .noSuchSymbol
    ∧ decode (.wire .first [0x55]) = .error .noSuchSymbol ∧ decode (.wire .last [0x0A]) = .error .noSuchSymbol := by
  decide
-- 30 R102: the words of V71 to V75 are illegal, those of V70, V73, V76 and V78 are not.
theorem test_illegal_words :
    ([0x000001, 0x500000, 0x020000, 0x120000, 0x240000, 0x340000, 0x440000, 0xFF0000, 0x01000B, 0x310100, 0x300000,
      0x300055, 0x30000D, 0x320001] : List CmdWord).all isIllegalWord = true
    ∧ ([0x000000, 0x01000A, 0x31002A, 0x43FFFF, 0x300006] : List CmdWord).all (fun w => !isIllegalWord w) = true := by
  decide
-- opcode_table.json's numbering of its rows.
theorem test_decodeTableWord :
    decodeTableWord 24 0x43FFFF = some (.rxLd 0xFFFF) ∧ decodeTableWord 8 0x40 = some .startFromDev
    ∧ decodeTableWord 16 0x1BF2 = some .escStop ∧ decodeTableWord 16 0x1B00 = some (.esc 0x00)
    ∧ decodeTableWord 8 0x41 = some (.lit 0x41) ∧ decodeTableWord 8 0x1B = none := by decide

-- Checksum engine: V5, V8, V12 (40 R132), V17, V18.
theorem test_checksum_vectors :
    checksum [0x01, 0x00, 0x00] = 0x1021 ∧ checksum [0xFF, 0xFF, 0xFF] = 0xE10F
    ∧ checksum [0x31, 0x32, 0x33, 0x34, 0x35, 0x36, 0x37, 0x38, 0x39, 0x00, 0x00] = 0x31C3 := by decide +kernel
theorem test_crcPut_example : (after 0x110000 { State.reset with crc := 0x8000 }).map (·.crc) = some 0x9188 := by decide
theorem test_crcPut_all_ones : (after 0x1100FF { State.reset with crc := 0xFFFF }).map (·.crc) = some 0xE10F := by decide
theorem test_crcClr : (after 0x100000 { State.reset with crc := 0x8000 }).map (·.crc) = some 0 := by decide
-- Escape codec: V23, V26 to V29, P5.
theorem test_stuff_escape_set :
    stuff [0x0D, 0x06, 0x1B, 0x80, 0x40] = [0x1B, 0xF2, 0x1B, 0xF9, 0x1B, 0xE4, 0x1B, 0x7F, 0x1B, 0xBF] := by decide
theorem test_unstuff_corners :
    unstuff [0x1B, 0x1B] = some [0xE4] ∧ unstuff [0x1B, 0x1B, 0x1B] = none ∧ unstuff [0x1B, 0x41] = some [0xBE]
    ∧ unstuff [0x41, 0x1B] = none ∧ unstuff [0x80, 0x40, 0x06, 0x0D] = some [0x80, 0x40, 0x06, 0x0D] := by decide
theorem test_escPut : reply 0x20001B State.reset = ok 0 [0x1B, 0xE4] ∧ reply 0x2000E4 State.reset = ok 0 [0xE4] := by decide
theorem test_unePut_introducer :
    reply 0x22001B State.reset = ok 0 [] ∧ (after 0x22001B State.reset).map (·.unepend) = some true := by decide
theorem test_unePut_second_introducer_is_data :
    reply 0x22001B introduced = ok 0 [0xE4] ∧ (after 0x22001B introduced).map (·.unepend) = some false := by decide
theorem test_uneEnd_trail :
    reply 0x230000 introduced = refusal .trail ∧ (after 0x230000 introduced).map (·.unepend) = some false := by decide
theorem test_uneEnd_ok : reply 0x230000 State.reset = ok 0 [] := by decide
theorem test_uneClr : (after 0x210000 introduced).map (·.unepend) = some false := by decide
-- Composer: V36, V40, P2, P6.
theorem test_encode_vectors :
    encodeFrame .fromDevice 0x2A 0x10 [0x06, 0x5E] = [0x40, 0x2A, 0x10, 0x1B, 0xF9, 0x5E, 0x1B, 0xF2, 0x1B, 0xE4, 0x0D]
    ∧ encodeFrame .toDevice 0x00 0x00 [] = [0x80, 0x00, 0x00, 0x00, 0x00, 0x0D] ∧ encodeFrame .acknowledge 0x00 0x00 [] = [0x06] := by
  decide +kernel
theorem test_txStart_legality_before_phase :
    reply 0x300055 opened = refusal .illegal ∧ reply 0x300080 opened = refusal .seq
    ∧ reply 0x300000 State.reset = refusal .illegal := by decide
theorem test_txStart_ack_opens_nothing :
    reply 0x300006 State.reset = ok 0 [0x06] ∧ (after 0x300006 State.reset).map (·.txph) = some .idle := by decide
theorem test_txPut_escapes_and_saturates :
    reply 0x31000D opened = ok 0 [0x1B, 0xF2] ∧ (after 0x31000D opened).map (·.txcnt) = some 2 := by decide
theorem test_txPut_closed : reply 0x31002A State.reset = refusal .seq ∧ reply 0x310100 State.reset = refusal .illegal := by
  decide
theorem test_txEnd_example :
    reply 0x320000 opened = ok 0 [0xF9, 0x0C, 0x0D] ∧ (after 0x320000 opened).map (·.txcrc) = some 0xF90C := by decide +kernel
theorem test_txEnd_too_early : reply 0x320000 { opened with txcnt := 1 } = refusal .seq := by decide
theorem test_txClr : (after 0x330000 opened).map (·.txcnt) = some 0 ∧ (after 0x330000 opened).map (·.txph) = some .idle := by
  decide
-- Decomposer: V49, V51, V54 to V57, V59b, V61.
theorem test_decode_frames :
    decodeFrame [0x80, 0x00, 0x00, 0x00, 0x00, 0x0D] = .frame 0x80 0x00 0x00 []
    ∧ decodeFrame [0x80, 0x1B, 0xD5, 0x1B, 0xFE, 0x1B, 0x06, 0x1B, 0xF3, 0x0D] = .frame 0x80 0x2A 0x01 []
    ∧ decodeFrame [0x80, 0x2A, 0x10, 0x01, 0x00, 0x3C, 0x95, 0x52, 0x0D] = .frame 0x80 0x2A 0x10 [0x01, 0x00, 0x3C] := by
  decide +kernel
theorem test_decode_priorities :
    decodeFrame [0x06, 0x1B, 0x0D] = .short ∧ decodeFrame [0x55, 0x1B, 0x0D] = .short ∧ decodeFrame [0x0D] = .type
    ∧ decodeFrame [0x80, 0x2A, 0x01, 0xF8, 0x0C, 0x0A] = .csum ∧ decodeFrame [0x80, 0x2A, 0x01, 0xF9, 0x0C, 0x0A] = .short
    ∧ decodeFrame [0x06, 0x2A, 0x01, 0xF9, 0x0C] = .ackd ∧ decodeFrame [] = .empty := by decide +kernel
theorem test_rxPut_example :
    (after 0x410040 State.reset).map (·.rxbuf) = some [(0, 0x40)] ∧ (after 0x410040 State.reset).map (·.rxlen) = some 1 := by
  decide
theorem test_rxPut_held : reply 0x410080 held = refusal .seq := by decide
/-- P7 with RXMAX = 6: the seventh byte is dropped. -/
theorem test_rxPut_overflow :
    (nextOf (rxPut 6 0x0D received)).map (fun t => (t.rxovf, t.rxlen, t.rxbuf == received.rxbuf)) = some (true, 6, true) := by
  decide
/-- The example of 43 R186. -/
theorem test_rxEnd_example :
    (nextOf (rxEnd 6 received)).map (fun t => (t.rxstat, t.rxtype, t.rxaddr, t.rxcmd, t.rxdlen))
      = some (.frame, 0x80, 0x2A, 0x01, 0) := by decide +kernel
/-- V80. -/
theorem test_rxEnd_empty : reply 0x420000 State.reset = ok 3 [] := by decide
/-- V78, P3: SEQ before RANGE; RANGE at RXDLEN. -/
theorem test_rxLd_refusals : reply 0x43FFFF State.reset = refusal .seq ∧ reply 0x430000 held = refusal .range := by decide
/-- V58: the data bytes of a held frame. -/
theorem test_rxLd_example :
    (nextOf (rxLoad 4 { held with rxdlen := 5, rxdata := [(0, 0x0D), (1, 0x06), (2, 0x1B), (3, 0x80), (4, 0x40)] })).bind
      (·.responses.getLast?) = ok 0x0040 [] := by decide
theorem test_rxClr : (after 0x400000 held).map (fun t => (t.rxstat, t.rxlen, t.rxtype, t.rxbuf == held.rxbuf))
    = some (.fill, 0, 0x00, true) := by decide
-- System: V70, V73, P6.
theorem test_nop : reply 0x000000 opened = ok 0 [] := by decide
theorem test_get_packs_fields : reply 0x010002 opened = ok 0x0005 [] ∧ reply 0x01000B opened = refusal .illegal := by decide
-- Wire symbols are given to the block by RX.PUT of their bytes, one word a step.
theorem test_start_symbols_stored :
    (nextOf (exec .startToDev State.reset)).map (·.rxbuf) = some [(0, 0x80)]
    ∧ (nextOf (exec .startFromDev State.reset)).map (·.rxbuf) = some [(0, 0x40)]
    ∧ (nextOf (exec .startNul State.reset)).map (·.rxbuf) = some [(0, 0x00)]
    ∧ (nextOf (exec .ack State.reset)).map (·.rxbuf) = some [(0, 0x06)] := by decide
theorem test_payload_and_stop_symbols_stored :
    (nextOf (exec .escStop filling)).map (fun t => (t.rxbuf, t.pending)) = some ([(0, 0x40), (1, 0x1B)], [.word 0x4100F2])
    ∧ ((nextOf (exec (.esc 0x41) filling)).bind (fun t => nextOf (step t))).map (·.rxbuf)
      = some [(0, 0x40), (1, 0x1B), (2, 0x41)]
    ∧ (nextOf (exec (.lit 0x2A) filling)).map (·.rxbuf) = some [(0, 0x40), (1, 0x2A)]
    ∧ (nextOf (exec .stop filling)).map (·.rxbuf) = some [(0, 0x40), (1, 0x0D)] := by decide
/-- The words of a pair reach the block as RX.PUT words, and the first step on them is the pair's meaning. -/
theorem test_withFetchWord_pair :
    (State.reset.withFetchWord 16 0x1BF2).pending = [.word 0x41001B, .word 0x4100F2]
    ∧ nextOf (step (State.reset.withFetchWord 16 0x1BF2)) = nextOf (exec .escStop State.reset) := by decide
/-- The start and the payload symbols of V50, put one after another and followed by RX.END, are the frame. -/
theorem test_symbols_of_a_frame :
    ([Instr.startToDev, .lit 0x2A, .lit 0x01, .lit 0xF9, .lit 0x0C, .stop].flatMap wireBytes)
      = encodeFrame .toDevice 0x2A 0x01 [] := by decide +kernel
-- 30 R107: written forms and the command word in six digits.
theorem test_written : written (.crcPut 0x31) = "CRC.PUT 0x31" ∧ wordText 0x31000D = "31000D" := by decide
theorem test_traceLine : traceLine (.txPut 0x0D) ⟨.ok, 0, [0x1B, 0xF2]⟩ = "TX.PUT 0x0D -> OK out=[1B F2]" := by decide
-- 70 R281: output byte k in bits 8k+7 to 8k, whatever the lines above the output bytes carry (log entry 11).
theorem test_ports :
    (rspOut 0 ⟨.ok, 0, [0xF9, 0x0C, 0x0D]⟩).extractLsb' 0 24 = 0x0D0CF9
    ∧ (rspOut 0xA5A5A5A5A5 ⟨.ok, 0, [0xF9, 0x0C, 0x0D]⟩).extractLsb' 0 24 = 0x0D0CF9
    ∧ rspNout ⟨.ok, 0, [0xF9, 0x0C, 0x0D]⟩ = 3 := by
  decide

-- Witnesses: the invariant holds of states with a byte received, with a frame held and with a frame open.
theorem inv_filling : filling.Inv where
  txcnt_le := by decide
  idle_txcnt := by decide
  rxlen_le := by have := rxmax_ge; simp [filling, State.reset]; omega
  ovf_full := by decide
  frame_dlen := by decide
  frame_type := by decide
  ackd_type := by decide
  no_frame_zero := by decide
  fill_type := by decide
  rxbuf_wf := by decide
  rxbuf_within := by have := rxmax_ge; simp [filling, Memory.within]; omega
  rxbuf_covers := by intro k hk; simp [filling, State.reset] at hk ⊢; subst hk; rfl
  rxdata_wf := by decide
  rxdata_within := by decide
  rxdata_covers := by intro k hk; simp [filling, State.reset] at hk

theorem inv_held : held.Inv where
  txcnt_le := by decide
  idle_txcnt := by decide
  rxlen_le := by have := rxmax_ge; simpa [held] using this
  ovf_full := by decide
  frame_dlen := by decide
  frame_type := by decide
  ackd_type := by decide
  no_frame_zero := by decide
  fill_type := by decide
  rxbuf_wf := by decide
  rxbuf_within := by have := rxmax_ge; simp [held, Memory.within]; omega
  rxbuf_covers := by
    intro k hk
    have : k < 6 := by simpa [held] using hk
    interval_cases k <;> rfl
  rxdata_wf := by decide
  rxdata_within := by decide
  rxdata_covers := by intro k hk; simp [held, State.reset] at hk

theorem inv_opened : opened.Inv where
  txcnt_le := by decide
  idle_txcnt := by decide
  rxlen_le := by simp [opened, State.reset]
  ovf_full := by decide
  frame_dlen := by decide
  frame_type := by decide
  ackd_type := by decide
  no_frame_zero := by decide
  fill_type := by decide
  rxbuf_wf := by decide
  rxbuf_within := by decide
  rxbuf_covers := by intro k hk; simp [opened, State.reset] at hk
  rxdata_wf := by decide
  rxdata_within := by decide
  rxdata_covers := by intro k hk; simp [opened, State.reset] at hk

theorem full_rxlen : full.rxlen.toNat = Config.rxmax := by
  have := rxmax_le
  simp only [full, BitVec.toNat_ofNat]; omega

/-- One byte of room left. -/
def nearlyFull : State := { State.reset with rxlen := BitVec.ofNat 16 (Config.rxmax - 1) }

theorem nearlyFull_rxlen : nearlyFull.rxlen.toNat + 1 = Config.rxmax := by
  have := rxmax_le; have := rxmax_ge
  simp only [nearlyFull, BitVec.toNat_ofNat]; omega

-- system and status registers
theorem witness_GetReturnsStatusRegisterWithoutSideEffect : (10 : Half).toNat ≤ 10 ∧ 10 < (11 : Half).toNat := by decide
theorem witness_StatusRegistersHoldTheirFields : held.rxstat = .frame ∧ (10 : Nat) < 11 := by decide
-- checksum engine
theorem witness_ChecksumIsLinear : [(0x2A : Byte), 0x10].length = [(0x01 : Byte), 0x02].length := by decide
theorem witness_SingleByteChangeChangesChecksum : (0x3C : Byte) ≠ 0x3D := by decide
/-- Both alternatives: with the CRC.CLR, and without it from a state whose CRC is 0. -/
theorem witness_InterleavedCrcPutsComputeChecksum :
    held.Inv ∧ held.crc = 0
    ∧ (∀ i ∈ [Instr.txStart 0x80, .crcClr, .get 0, .crcPut 0x2A, .rxPut 0x06, .crcPut 0x01], isOperation i = true)
    ∧ [Instr.txStart 0x80, .crcClr, .get 0, .crcPut 0x2A, .rxPut 0x06, .crcPut 0x01].filter (fun i => unitOf i == .ce)
        = .crcClr :: [(0x2A : Byte), 0x01].map .crcPut
    ∧ [Instr.nop, .crcPut 0x2A, .uneEnd, .crcPut 0x01].filter (fun i => unitOf i == .ce)
        = [(0x2A : Byte), 0x01].map .crcPut :=
  ⟨inv_held, by decide, by decide, by decide, by decide⟩
-- escape codec
theorem witness_EscPutAnswersWireForm :
    (0x40 : Byte) ∈ [(0x0D : Byte), 0x06, 0x1B, 0x80, 0x40] ∧ (0x41 : Byte) ∉ [(0x0D : Byte), 0x06, 0x1B, 0x80, 0x40] := by
  decide
theorem witness_UnePutUnstuffsOneByte :
    introduced.unepend = true ∧ State.reset.unepend = false ∧ (0x1B : Byte) = 0x1B ∧ (0x1C : Byte) ≠ 0x1B := by decide
theorem witness_UneEndReportsDanglingEscape : State.reset.unepend = false ∧ introduced.unepend = true := by decide
theorem witness_StuffedBytesAvoidControlValues :
    (0x1B : Byte) ∈ stuff [0x2A, 0x0D] ∧ stuff [0x2A, 0x0D] = [0x2A] ++ 0x1B :: [0xF2] := by decide
theorem witness_UnstuffOfConcatenation :
    unstuff [0x1B, 0x1B] = some [0xE4] ∧ unstuff [0x41, 0x1B] = none := by decide
/-- The three runs: a good region, a dangling one, and a stuffing run. -/
theorem witness_InterleavedUnePutsComputeUnstuff :
    held.Inv
    ∧ (∀ i ∈ [Instr.uneClr, .crcPut 0x01, .unePut 0x1B, .get 1, .unePut 0xF9, .uneEnd], isOperation i = true)
    ∧ [Instr.uneClr, .crcPut 0x01, .unePut 0x1B, .get 1, .unePut 0xF9, .uneEnd].filter (fun i => unitOf i == .ec)
        = unstuffOps [0x1B, 0xF9] ∧ unstuff [0x1B, 0xF9] = some [0x06]
    ∧ [Instr.uneClr, .nop, .unePut 0x41, .unePut 0x1B, .uneEnd].filter (fun i => unitOf i == .ec) = unstuffOps [0x41, 0x1B]
    ∧ unstuff [0x41, 0x1B] = none
    ∧ [Instr.escPut 0x0D, .nop, .escPut 0x41].filter (fun i => unitOf i == .ec) = stuffOps [0x0D, 0x41] :=
  ⟨inv_held, by decide, by decide, by decide, by decide, by decide, by decide⟩
-- wire symbols
theorem witness_SymbolReadingAgreesWithUnstuff :
    readInterior [0x2A, 0x1B, 0xF2, 0x1B, 0x41] = some [.lit 0x2A, .escStop, .esc 0x41] := by decide
theorem witness_ComposerSendsCanonicalSymbols : inEscSet 0x41 = false ∧ inEscSet 0x40 = true := by decide
theorem witness_OneByteSymbolsAreStoredRaw :
    filling.rxstat = .fill ∧ filling.rxlen.toNat < Config.rxmax ∧ full.rxstat = .fill ∧ full.rxlen.toNat = Config.rxmax
    ∧ held.rxstat ≠ .fill := by
  refine ⟨by decide, ?_, rfl, full_rxlen, by decide⟩
  have := rxmax_ge; simp [filling]; omega
theorem witness_EscapePairsAreStoredRaw :
    filling.rxlen.toNat + 1 < Config.rxmax ∧ nearlyFull.rxstat = .fill ∧ nearlyFull.rxlen.toNat + 1 = Config.rxmax
    ∧ full.rxstat = .fill ∧ full.rxlen.toNat = Config.rxmax ∧ held.rxstat ≠ .fill := by
  refine ⟨?_, rfl, nearlyFull_rxlen, rfl, full_rxlen, by decide⟩
  have := rxmax_ge; simp [filling]; omega
-- composer
theorem witness_TxStartOpensFrame :
    State.reset.txph = .idle ∧ opened.txph = .opened ∧ ((0x80 : Byte) = 0x80 ∨ (0x80 : Byte) = 0x40)
    ∧ (0x00 : Byte) ≠ 0x80 ∧ (0x00 : Byte) ≠ 0x40 ∧ (0x00 : Byte) ≠ 0x06 := by decide
theorem witness_TxPutEmitsAndChecksumsByte : opened.txph = .opened ∧ State.reset.txph = .idle := by decide
theorem witness_TxEndEmitsChecksumAndStop :
    opened.txph = .opened ∧ 2 ≤ opened.txcnt.toNat ∧ State.reset.txph = .idle
    ∧ ({ opened with txcnt := 1 } : State).txcnt.toNat < 2 := by decide
theorem witness_EncodedFrameShape : FrameType.toDevice ≠ .acknowledge ∧ FrameType.fromDevice ≠ .acknowledge := by decide
/-- A frame composed among other units' operations while a received frame is held, and an acknowledge. -/
theorem witness_InterleavedComposeEmitsEncodedFrame :
    held.Inv ∧ held.txph = .idle
    ∧ (∀ i ∈ [Instr.txStart 0x80, .rxLd 0, .txPut 0x2A, .crcPut 0x01, .txPut 0x01, .txPut 0x0D, .txEnd],
        isOperation i = true)
    ∧ [Instr.txStart 0x80, .rxLd 0, .txPut 0x2A, .crcPut 0x01, .txPut 0x01, .txPut 0x0D, .txEnd].filter
        (fun i => unitOf i == .tx) = composeOps .toDevice 0x2A 0x01 [0x0D]
    ∧ [Instr.nop, .txStart 0x06].filter (fun i => unitOf i == .tx) = composeOps .acknowledge 0 0 [] :=
  ⟨inv_held, by decide, by decide, by decide, by decide⟩
-- decomposer
theorem witness_RxPutStoresRawByte :
    filling.rxstat = .fill ∧ filling.rxlen.toNat < Config.rxmax ∧ full.rxstat = .fill ∧ full.rxlen.toNat = Config.rxmax
    ∧ held.rxstat ≠ .fill := witness_OneByteSymbolsAreStoredRaw
theorem witness_RxEndKeepsDecodeResult :
    received.rxstat = .fill ∧ received.rxlen.toNat ≤ Config.rxmax
    ∧ received.raw = some [0x80, 0x2A, 0x01, 0xF9, 0x0C, 0x0D] ∧ held.rxstat ≠ .fill := by
  refine ⟨by decide, ?_, by decide, by decide⟩
  have := rxmax_ge; simpa [received] using this
/-- A frame with one data byte held. -/
def heldData : State := { State.reset with rxlen := 7, rxstat := .frame, rxdlen := 1, rxdata := [(0, 0x01)] }
theorem witness_RxLdLoadsDataByte :
    heldData.rxstat = .frame ∧ (0 : Half).toNat < heldData.rxdlen.toNat
    ∧ heldData.rxdata.get (0 : Half).toNat = some 0x01 ∧ heldData.rxdlen.toNat ≤ (1 : Half).toNat
    ∧ State.reset.rxstat ≠ .frame := by decide
theorem witness_DecodeInvertsEncode :
    FrameType.toDevice ≠ .acknowledge ∧ ¬((0xF8 : Byte) = hi (frameChecksum 0x2A 0x01 []) ∧ (0x0C : Byte) = lo (frameChecksum 0x2A 0x01 [])) := by
  decide +kernel
/-- A raw input that fits, with a result that is a frame, and one that is longer than RXMAX. -/
theorem witness_InterleavedDecomposeComputesDecode :
    held.Inv
    ∧ (∀ i ∈ [Instr.rxClr, .nop, .rxPut 0x80, .txStart 0x80, .rxPut 0x0D, .rxEnd], isOperation i = true)
    ∧ [Instr.rxClr, .nop, .rxPut 0x80, .txStart 0x80, .rxPut 0x0D, .rxEnd].filter (fun i => unitOf i == .rx)
        = decomposeOps [0x80, 0x0D]
    ∧ [(0x80 : Byte), 0x0D].length ≤ Config.rxmax
    ∧ [(0x80 : Byte), 0x2A, 0x01, 0xF9, 0x0C, 0x0D].length ≤ Config.rxmax
    ∧ decodeFrame [0x80, 0x2A, 0x01, 0xF9, 0x0C, 0x0D] = .frame 0x80 0x2A 0x01 []
    ∧ (∀ n, (∀ i ∈ decomposeOps (List.replicate n 0x2A), isOperation i = true)
        ∧ (decomposeOps (List.replicate n 0x2A)).filter (fun i => unitOf i == .rx)
            = decomposeOps (List.replicate n 0x2A))
    ∧ Config.rxmax < (List.replicate (Config.rxmax + 1) (0x2A : Byte)).length := by
  refine ⟨inv_held, by decide, by decide, ?_, rxmax_ge, by decide +kernel, fun n => ⟨?_, ?_⟩, by simp⟩
  · have := rxmax_ge; simp; omega
  · intro i hi
    simp [decomposeOps] at hi
    rcases hi with rfl | ⟨_, rfl⟩ | rfl <;> rfl
  · simp [decomposeOps, unitOf]
-- words, responses, refusals
/-- One word for each condition, at the values next to the legal ones, and a legal word. -/
theorem witness_IllegalCommandWordsChangeNothing :
    ((0x50 : Byte) ∉ [(0x00 : Byte), 0x01, 0x10, 0x11, 0x20, 0x21, 0x22, 0x23, 0x30, 0x31, 0x32, 0x33, 0x40, 0x41, 0x42,
      0x43]) ∧ (1 : Half) ≠ 0 ∧ 256 ≤ (0x100 : Half).toNat ∧ 10 < (11 : Half).toNat
    ∧ (0x81 : Half) ∉ [(0x80 : Half), 0x40, 0x06] ∧ ¬ 256 ≤ (0xFF : Half).toNat := by decide
theorem witness_EveryCommandWordGetsOneLegalResponse : held.Inv := inv_held
theorem witness_OutputByteCountsByOperation :
    isOperation .txEnd = true ∧ reply 0x320000 opened = ok 0 [0xF9, 0x0C, 0x0D] := by decide +kernel
/-- One refusal for each clause: SEQ (nothing changes), OVF (RXOVF set), TRAIL (UNEPEND cleared). -/
theorem witness_RefusedOperationsChangeNothing :
    isOperation (.rxLd 0) = true ∧ isOperation (.rxPut 0x2A) = true ∧ isOperation .uneEnd = true
    ∧ exec (.rxLd 0) State.reset = .next { State.reset with responses := [] ++ [⟨.seq, 0, []⟩] }
    ∧ exec (.rxPut 0x2A) full = .next { full with rxovf := true, responses := [] ++ [⟨.ovf, 0, []⟩] }
    ∧ exec .uneEnd introduced = .next { introduced with unepend := false, responses := [] ++ [⟨.trail, 0, []⟩] } := by
  refine ⟨rfl, rfl, rfl, rfl, ?_, rfl⟩
  show rxPut Config.rxmax 0x2A full = _
  simp only [rxPut, show full.rxstat = .fill from rfl, full_rxlen, ne_eq, not_true_eq_false, if_false, if_true]
  rfl
theorem witness_RefusalCodesHaveExactlyTheirCauses :
    isOperation (.rxLd 0) = true ∧ exec (.rxLd 0) held = .next { held with responses := [] ++ [⟨.range, 0, []⟩] } :=
  ⟨rfl, rfl⟩
-- encoding and steps
theorem witness_DecodeOfEncodeIsIdentity : (Instr.get 10).wellFormed = true ∧ (Instr.lit 0x0D).wellFormed = true := by
  decide
theorem witness_EncodeOfDecodeIsIdentity :
    decode (.wire .interior [0x1B, 0x1B]) = .ok (.esc 0x1B) ∧ decode (.cmd 0x4100FF) = .ok (.rxPut 0xFF) := by decide
theorem witness_StepRunsDecodedInstruction :
    (held.offer (.cmd 0x430000)).pending = .word 0x430000 :: [] ∧ decode (.cmd 0x430000) = .ok (.rxLd 0)
    ∧ (Instr.rxLd 0).wellFormed = true
    ∧ (filling.offer (.wire .interior [0x1B, 0xF2])).pending
      = [(0x1B : Byte), 0xF2].map (fun b => Input.word (cmdWord 0x41 (BitVec.ofNat 16 b.toNat))) ++ []
    ∧ decode (.wire .interior [0x1B, 0xF2]) = .ok .escStop := by decide
theorem witness_InputsAreTakenInOrderAndAnsweredInOrder :
    step (held.offer (.cmd 0x000000)) = .next { held with responses := [⟨.ok, 0, []⟩] }
    ∧ step { held with pending := [.cut 0x420000] } = .next (applyReset held) ∧ step held = .next held :=
  ⟨rfl, rfl, rfl⟩
theorem witness_ResetSignalZeroesEveryRegister :
    ({ held with pending := [.rst] } : State).pending = .rst :: []
    ∧ ({ held with pending := [.cut 0x420000] } : State).pending = .cut 0x420000 :: [] := by decide
theorem witness_FourClearsEqualReset :
    [Instr.txClr, .rxClr, .crcClr, .uneClr].Perm [.crcClr, .uneClr, .txClr, .rxClr] := by decide
-- invariants and independence
theorem witness_EveryStepKeepsInvariants :
    (filling.offer (.cmd 0x420000)).Inv ∧ (after 0x420000 filling).map (·.rxstat) = some .short := by
  exact ⟨{ inv_filling with }, by decide⟩
theorem witness_EveryStepKeepsHeldResultCoherent :
    held.HoldsResultOfBuffer ∧ (after 0x430000 held).map (·.rxstat) = some .frame := by
  refine ⟨fun _ => ⟨[0x80, 0x2A, 0x01, 0xF9, 0x0C, 0x0D], by decide, ?_⟩, by decide⟩
  have hd : decodeFrame [0x80, 0x2A, 0x01, 0xF9, 0x0C, 0x0D] = .frame 0x80 0x2A 0x01 [] := by decide +kernel
  refine ⟨rfl, ?_⟩
  rw [hd]
  refine ⟨rfl, fun t a c data h => ?_⟩
  injection h with h1 h2 h3 h4
  subst h1 h2 h3 h4
  exact ⟨rfl, rfl, rfl, rfl, fun k hk => absurd hk (by simp)⟩
theorem witness_InvariantStatesNeverFault :
    (held.offer (.cmd 0x500000)).Inv
    ∧ step (held.offer (.cmd 0x500000)) = .next { held with responses := [⟨.illegal, 0, []⟩] } :=
  ⟨{ inv_held with }, rfl⟩
theorem witness_OperationsWriteOnlyTheirOwnUnit :
    (nextOf (exec (.crcPut 0x01) held)).map (·.crc) = some 0x0001 ∧ BlockUnit.tx ≠ .sys ∧ BlockUnit.tx ≠ unitOf (.crcPut 0x01)
    ∧ unitOf (.get 0) = .sys ∧ (nextOf (exec .stop filling)).map (·.rxlen) = some 2 ∧ BlockUnit.tx ≠ unitOf .stop := by
  decide
theorem witness_OperationsReadOnlyTheirOwnUnit :
    isOperation (.crcPut 0x01) = true ∧ agreeOn (unitOf (.crcPut 0x01)) held State.reset
    ∧ (nextOf (exec (.crcPut 0x01) held)).map (·.crc) = some 0x0001 := ⟨rfl, rfl, by decide⟩
theorem witness_MemoryCellsOutsideStoresKeepTheirBytes :
    (nextOf (exec (.rxPut 0x2A) filling)).map (·.rxbuf) = some [(0, 0x40), (1, 0x2A)]
    ∧ (nextOf (exec .rxEnd filling)).map (·.rxstat) = some .short
    ∧ (nextOf (exec .escStop filling)).map (·.rxbuf) = some [(0, 0x40), (1, 0x1B)] := by decide
/-- Two different states that agree on all that can be reached: a stale cell above RXLEN. -/
def stale : State := { filling with rxbuf := [(0, 0x40), (3, 0xAA)] }
theorem witness_UnreachableCellsAreUnobservable :
    filling.Inv ∧ stale.Inv ∧ filling.SameReachable stale ∧ filling.pending = stale.pending ∧ filling ≠ stale
    ∧ step filling = .next filling := by
  refine ⟨inv_filling, { inv_filling with rxbuf_wf := by decide, rxbuf_within := ?_, rxbuf_covers := ?_ }, ?_, rfl,
    by decide, rfl⟩
  · have := rxmax_ge; simp [stale, Memory.within]; omega
  · intro k hk; simp [stale, filling] at hk; subst hk; rfl
  · exact ⟨rfl, rfl, rfl, rfl, rfl, rfl, rfl, rfl, rfl, rfl, rfl, rfl,
      by intro k hk; simp [filling] at hk; subst hk; rfl, by intro k hk; simp [filling, State.reset] at hk⟩
theorem witness_ResponsePortsCarryOutputBytes :
    (⟨.ok, 0, [0x1B, 0xF9, 0x1B, 0xBF, 0x0D]⟩ : Response).out.length ≤ 5
    ∧ (⟨.ok, 0, [0x1B, 0xF9, 0x1B, 0xBF, 0x0D]⟩ : Response).out[4]? = some 0x0D := by decide

end Sys2Proof.Tests
end

section
/-! SUPPORT. What one step does with the two queues and why it always answers (00 R9, 20 R62, 30 R106): the operations of
the command channel, the decoder's results, and the totality of the three operations that access memory. -/

namespace Sys2Proof.Machine

/-! ### What the decoder answers -/

@[simp] theorem operandNone_eq_ok (arg : Half) (i j : Instr) : operandNone arg i = .ok j ↔ arg = 0 ∧ i = j := by
  unfold operandNone; split <;> simp_all

@[simp] theorem operandByte_eq_ok (arg : Half) (f : Byte → Instr) (j : Instr) :
    operandByte arg f = .ok j ↔ hi arg = 0 ∧ f (lo arg) = j := by
  unfold operandByte; split <;> simp_all

@[simp] theorem operandArg_eq_ok (arg : Half) (f : Half → Instr) (j : Instr) :
    operandArg arg f = .ok j ↔ f arg = j := by
  simp [operandArg]

/-- A command word never spells a wire symbol: all sixteen rows of 30 R100 are operations. -/
theorem isOperation_of_decodeCmd {w : CmdWord} {i : Instr} (h : decodeCmd w = .ok i) : isOperation i = true := by
  simp only [decodeCmd] at h
  split at h <;> simp only [operandNone_eq_ok, operandByte_eq_ok, operandArg_eq_ok, reduceCtorEq] at h
  all_goals simp [← h, isOperation]

/-- The symbol of an escape pair has the pair as its wire bytes. -/
@[simp] theorem wireBytes_pairSymbol (x : Byte) : wireBytes (pairSymbol x) = [Config.ESC, x] := by
  unfold pairSymbol
  repeat' split
  all_goals simp_all [wireBytes]

theorem wireBytes_of_decodeFirst {b : Byte} {i : Instr} (h : decodeFirst b = .ok i) : wireBytes i = [b] := by
  unfold decodeFirst at h
  repeat' split at h
  all_goals cases h
  all_goals simp_all [wireBytes]

/-- Reading a symbol off the front splits the bytes into the symbol's own and the rest. -/
theorem wireBytes_append_of_readSymbol {bytes rest : List Byte} {i : Instr}
    (h : readSymbol bytes = some (i, rest)) : wireBytes i ++ rest = bytes := by
  unfold readSymbol at h
  split at h
  · cases h
  · split at h <;> cases h
    rfl
  · split at h <;> cases h
    · simp [*]
    · rfl

/-- Bytes that decode to a symbol are that symbol's wire bytes. -/
theorem wireBytes_of_decodeWire {p : WirePos} {bytes : List Byte} {i : Instr}
    (h : decodeWire p bytes = .ok i) : wireBytes i = bytes := by
  unfold decodeWire at h
  split at h
  · exact wireBytes_of_decodeFirst h
  · split at h <;> cases h
    simp_all [wireBytes]
  · split at h <;> cases h
    rename_i hr
    rw [← wireBytes_append_of_readSymbol hr, List.append_nil]
  · cases h

theorem ne_nil_of_decodeWire {p : WirePos} {bytes : List Byte} {i : Instr}
    (h : decodeWire p bytes = .ok i) : bytes ≠ [] := by
  rintro rfl
  cases p <;> cases h

/-! ### Wire symbols as `RX.PUT` command words (log entry 4) -/

/-- The command word that a statement writes out with the byte's number is `RX.PUT` of the byte. -/
theorem putInputs_eq_map (bytes : List Byte) :
    putInputs bytes = bytes.map (fun b => .word (cmdWord 0x41 (BitVec.ofNat 16 b.toNat))) := by
  simp only [putInputs, rxPutWord, argOfByte, zext16, BitVec.ofNat_toNat]

/-- The meaning of a wire symbol is to give its bytes to the block. -/
theorem exec_eq_give {i : Instr} (h : wireBytes i ≠ []) (s : State) :
    exec i s = give Config.rxmax (wireBytes i) s := by
  cases i with
  | startToDev | startFromDev | startNul | ack | stop | esc | escStop | escAck | escEsc | escToDev | escFromDev | lit => rfl
  | nop | get | crcClr | crcPut | escPut | uneClr | unePut | uneEnd | txStart | txPut | txEnd | txClr | rxClr | rxPut
  | rxEnd | rxLd => exact absurd rfl h

/-! ### What a step does with its input -/

theorem step_nil {s : State} (h : s.pending = []) : step s = .next s := by
  simp only [step, fetch_nil s h]

theorem step_rst {s : State} {rest : List Input} (h : s.pending = .rst :: rest) :
    step s = .next (applyReset { s with pending := rest }) := by
  simp only [step, fetch_cons s _ rest h]

theorem step_cut {s : State} {w : CmdWord} {rest : List Input} (h : s.pending = .cut w :: rest) :
    step s = .next (applyReset { s with pending := rest }) := by
  simp only [step, fetch_cons s _ rest h]

theorem step_word_ok {s : State} {w : CmdWord} {rest : List Input} {i : Instr} (h : s.pending = .word w :: rest)
    (hd : decodeCmd w = .ok i) : step s = exec i { s with pending := rest } := by
  simp only [step, fetch_cons s _ rest h, decode, hd]

theorem step_word_error {s : State} {w : CmdWord} {rest : List Input} {e : DecodeReject}
    (h : s.pending = .word w :: rest) (hd : decodeCmd w = .error e) :
    step s = .next (({ s with pending := rest } : State).respond ⟨.illegal, 0, []⟩) := by
  simp only [step, fetch_cons s _ rest h, decode, hd, rejectWord, raise_eq]

/-! ### Operations give one response and leave the inputs alone (30 R104, R106) -/

/-- `t` has the inputs of `s`, and its responses followed by exactly one more. -/
def State.AnsweredOnce (s t : State) : Prop := t.pending = s.pending ∧ ∃ r, t.responses = s.responses ++ [r]

/-- The result `o` is a next state, with one more response than `s`. -/
def Answers (s : State) (o : Result) : Prop := ∃ t, o = .next t ∧ s.AnsweredOnce t

/-- Responding after any change that leaves both queues alone gives one response. -/
theorem State.answeredOnce_respond {s u : State} (r : Response) (hp : u.pending = s.pending)
    (hr : u.responses = s.responses) : s.AnsweredOnce (u.respond r) :=
  ⟨hp, r, by rw [State.respond_responses, hr]⟩

theorem answers_answer {s u : State} (v : Half) (out : List Byte) (hp : u.pending = s.pending)
    (hr : u.responses = s.responses) : Answers s (answer v out u) :=
  ⟨_, answer_eq v out u, State.answeredOnce_respond _ hp hr⟩

theorem answers_raise {s u : State} (c : Rc) (hp : u.pending = s.pending)
    (hr : u.responses = s.responses) : Answers s (raise c u) :=
  ⟨_, raise_eq c u, State.answeredOnce_respond _ hp hr⟩

theorem execGet_answers (n : Half) (s : State) : Answers s (execGet n s) := by
  unfold execGet
  split
  · exact answers_answer _ _ rfl rfl
  · exact answers_raise _ rfl rfl

theorem execUnePut_answers (b : Byte) (s : State) : Answers s (execUnePut b s) := by
  unfold execUnePut
  split
  · exact answers_answer _ _ rfl rfl
  · split <;> exact answers_answer _ _ rfl rfl

theorem execUneEnd_answers (s : State) : Answers s (execUneEnd s) := by
  unfold execUneEnd
  split
  · exact answers_raise _ rfl rfl
  · exact answers_answer _ _ rfl rfl

theorem execTxStart_answers (b : Byte) (s : State) : Answers s (execTxStart b s) := by
  unfold execTxStart
  split
  · exact answers_raise _ rfl rfl
  · split
    · exact answers_raise _ rfl rfl
    · dsimp only
      split <;> exact answers_answer _ _ rfl rfl

theorem execTxPut_answers (b : Byte) (s : State) : Answers s (execTxPut b s) := by
  unfold execTxPut
  split
  · exact answers_raise _ rfl rfl
  · exact answers_answer _ _ rfl rfl

theorem execTxEnd_answers (s : State) : Answers s (execTxEnd s) := by
  unfold execTxEnd
  split
  · exact answers_raise _ rfl rfl
  · exact answers_answer _ _ rfl rfl

/-- Every operation answers in every state, but for the three that access a memory. -/
theorem exec_answers_or_accesses_memory {i : Instr} (hi : isOperation i = true) (s : State) :
    Answers s (exec i s) ∨ (∃ b, i = .rxPut b) ∨ i = .rxEnd ∨ ∃ k, i = .rxLd k := by
  cases i with
  | nop | crcClr | crcPut | escPut | uneClr | txClr | rxClr => exact .inl (answers_answer _ _ rfl rfl)
  | get n => exact .inl (execGet_answers n s)
  | unePut b => exact .inl (execUnePut_answers b s)
  | uneEnd => exact .inl (execUneEnd_answers s)
  | txStart b => exact .inl (execTxStart_answers b s)
  | txPut b => exact .inl (execTxPut_answers b s)
  | txEnd => exact .inl (execTxEnd_answers s)
  | rxPut b => exact .inr (.inl ⟨b, rfl⟩)
  | rxEnd => exact .inr (.inr (.inl rfl))
  | rxLd k => exact .inr (.inr (.inr ⟨k, rfl⟩))
  | startToDev | startFromDev | startNul | ack | stop | esc | escStop | escAck | escEsc | escToDev | escFromDev | lit =>
    cases hi

theorem rxPut_answeredOnce {rxmax : Nat} {b : Byte} {s t : State} (h : rxPut rxmax b s = .next t) :
    s.AnsweredOnce t := by
  obtain ⟨-, rfl⟩ | ⟨-, -, rfl⟩ | ⟨-, -, rfl⟩ := rxPut_cases rxmax b s t h
  all_goals exact State.answeredOnce_respond _ rfl rfl

theorem rxKeep_answeredOnce {rxmax : Nat} {d : Decoded} {s t : State} (h : rxKeep rxmax d s = .next t) :
    s.AnsweredOnce t := by
  obtain ⟨_, _, _, _, _, -, -, rfl⟩ | ⟨-, rfl⟩ | ⟨-, rfl⟩ | ⟨-, rfl⟩ | ⟨-, rfl⟩ | ⟨-, rfl⟩ := rxKeep_cases rxmax d s t h
  all_goals exact State.answeredOnce_respond _ rfl rfl

theorem rxEnd_answeredOnce {rxmax : Nat} {s t : State} (h : rxEnd rxmax s = .next t) : s.AnsweredOnce t := by
  obtain ⟨-, rfl⟩ | ⟨-, raw, -, ⟨-, rfl⟩ | ⟨-, hk⟩⟩ := rxEnd_cases rxmax s t h
  · exact State.answeredOnce_respond _ rfl rfl
  · exact State.answeredOnce_respond _ rfl rfl
  · -- `RX.END` clears the result registers before it keeps the result, and touches neither queue
    exact (rxKeep_answeredOnce hk :)

theorem rxLoad_answeredOnce {k : Half} {s t : State} (h : rxLoad k s = .next t) : s.AnsweredOnce t := by
  obtain ⟨-, rfl⟩ | ⟨-, -, rfl⟩ | ⟨-, -, _, -, rfl⟩ := rxLoad_cases k s t h
  all_goals exact State.answeredOnce_respond _ rfl rfl

/-- An operation that answers a next state gives exactly one response and takes and offers no input. -/
theorem exec_answeredOnce {i : Instr} (hi : isOperation i = true) {s t : State} (h : exec i s = .next t) :
    s.AnsweredOnce t := by
  obtain ⟨u, hu, hs⟩ | ⟨b, rfl⟩ | rfl | ⟨k, rfl⟩ := exec_answers_or_accesses_memory hi s
  · rw [hu] at h; cases h; exact hs
  · exact rxPut_answeredOnce h
  · exact rxEnd_answeredOnce h
  · exact rxLoad_answeredOnce h

/-! ### Lengths of unescaped and decoded input -/

theorem length_le_of_unstuff {w v : List Byte} (h : unstuff w = some v) : v.length ≤ w.length := by
  fun_induction unstuff w generalizing v with
  | case1 => cases h; rfl
  | case2 => cases h
  | case3 => cases h; rfl
  | case4 x w ih =>
    obtain ⟨v', hv, rfl⟩ := Option.map_eq_some_iff.1 h
    have := ih hv
    simp only [List.length_cons]; omega
  | case5 b x w _ ih =>
    obtain ⟨v', hv, rfl⟩ := Option.map_eq_some_iff.1 h
    have := ih hv
    simp only [List.length_cons] at this ⊢; omega

theorem length_le_of_unescapeFrame {first : Byte} {rest u : List Byte} (h : unescapeFrame first rest = some u) :
    u.length ≤ (first :: rest).length := by
  cases rest with
  | nil => cases h; rfl
  | cons b bs =>
    obtain ⟨mid, hmid, rfl⟩ := Option.map_eq_some_iff.1 h
    have := length_le_of_unstuff hmid
    simp only [List.length_append, List.length_cons, List.length_dropLast, List.length_nil] at this ⊢; omega

theorem length_of_decodeFields_frame {u data : List Byte} {t a c : Byte} (h : decodeFields u = .frame t a c data) :
    data.length + Config.MINLEN = u.length := by
  simp only [decodeFields] at h
  split at h
  · cases h
  · have hmin : Config.MINLEN = 6 := rfl
    repeat' split at h
    all_goals cases h
    simp only [List.length_drop, List.length_take]; omega

/-- A frame's data is at least `MINLEN` bytes shorter than the raw input that holds it, so it fits RXDATA (20 R61). -/
theorem length_le_of_decodeFrame_frame {raw data : List Byte} {t a c : Byte}
    (h : decodeFrame raw = .frame t a c data) : data.length + Config.MINLEN ≤ raw.length := by
  cases raw with
  | nil => cases h
  | cons first rest =>
    simp only [decodeFrame] at h
    split at h
    · cases h
    · rename_i u hu
      split at h
      · cases h
      · split at h
        · cases h
        · rw [length_of_decodeFields_frame h]
          exact length_le_of_unescapeFrame hu

/-! ### The memory accesses of the decomposer succeed (20 R62) -/

/-- Reading succeeds where every cell has been written. -/
theorem readBytes_total {m : Memory} {n : Nat} (h : m.covers n) : ∃ raw, readBytes m 0 n = .ok raw := by
  refine ⟨(List.range n).map (fun k => (m.get k).getD 0), (readBytes_ok _ _ _ _).2 ⟨by simp, fun k hk => ?_⟩⟩
  obtain ⟨v, hv⟩ := Option.isSome_iff_exists.1 (h k hk)
  simp [hk, hv]

/-- `rxKeep` answers when the data of a decoded frame fits RXDATA. -/
theorem rxKeep_next {rxmax : Nat} {d : Decoded}
    (h : ∀ t a c data, d = .frame t a c data → data.length ≤ Config.rxdataSize rxmax) (s : State) :
    ∃ t, rxKeep rxmax d s = .next t := by
  cases d with
  | frame ty a c data =>
    obtain ⟨m, hm⟩ := writeBytes_total (Config.rxdataSize rxmax) s.rxdata 0 data (by simpa using h ty a c data rfl)
    exact ⟨_, by simp only [rxKeep, hm]; rfl⟩
  | empty | short | type | csum | ackd => exact ⟨_, rfl⟩

/-- `rxEnd` answers when the raw bytes have been written and are at most `RXMAX`. -/
theorem rxEnd_next {rxmax : Nat} {s : State} (hc : s.rxbuf.covers s.rxlen.toNat) (hl : s.rxlen.toNat ≤ rxmax) :
    ∃ t, rxEnd rxmax s = .next t := by
  obtain ⟨raw, hraw⟩ := readBytes_total hc
  have hlen : raw.length = s.rxlen.toNat := ((readBytes_ok _ _ _ _).1 hraw).1
  simp only [rxEnd, hraw]
  split
  · exact ⟨_, raise_eq _ _⟩
  · split
    · exact ⟨_, rxFinish_eq _ _⟩
    · refine rxKeep_next (fun t a c data hd => ?_) _
      have := length_le_of_decodeFrame_frame hd
      simp only [Config.rxdataSize]; omega

/-- `rxLoad` answers when the cells below `RXDLEN` have been written. -/
theorem rxLoad_next (k : Half) {s : State} (hc : s.rxdata.covers s.rxdlen.toNat) : ∃ t, rxLoad k s = .next t := by
  unfold rxLoad
  split
  · exact ⟨_, raise_eq _ _⟩
  · split
    · exact ⟨_, raise_eq _ _⟩
    · obtain ⟨v, hv⟩ := Option.isSome_iff_exists.1 (hc k.toNat (by omega))
      simp only [(memRead_ok _ _ _).2 hv]
      exact ⟨_, answer_eq _ _ _⟩

/-- No operation faults in a state that satisfies the invariants. -/
theorem exec_next_of_inv {i : Instr} (hi : isOperation i = true) {s : State} (hs : s.Inv) :
    ∃ t, exec i s = .next t := by
  obtain ⟨u, hu, -⟩ | ⟨b, rfl⟩ | rfl | ⟨k, rfl⟩ := exec_answers_or_accesses_memory hi s
  · exact ⟨u, hu⟩
  · exact rxPut_next _ b s hs.rxlen_le
  · exact rxEnd_next hs.rxbuf_covers hs.rxlen_le
  · exact rxLoad_next k hs.rxdata_covers

/-- The invariants say nothing of the inputs. -/
theorem State.Inv.with_pending {s : State} (hs : s.Inv) (l : List Input) : ({ s with pending := l } : State).Inv :=
  { hs with }

/-! ### The statements -/

/-- Settles O48, by the four things a step can do: a word's one response comes from its operation or from the decoder's
rejection. -/
theorem inputsAreTakenInOrderAndAnsweredInOrder : Obligations.InputsAreTakenInOrderAndAnsweredInOrder := by
  intro s t h
  obtain ⟨hp, rfl⟩ | ⟨j, rest, hp, hj, rfl⟩ | ⟨w, rest, i, hp, hd, he⟩ | ⟨w, rest, e, hp, -, rfl⟩ := step_cases s t h
  · exact ⟨by simp [hp], fun _ => rfl, [], by simp [hp]⟩
  · refine ⟨by simp [hp], by simp [hp], [], by simp, fun w r hw => ?_, fun _ _ => rfl, fun _ _ _ => rfl⟩
    obtain ⟨rfl, -⟩ := List.cons.inj (hp.symm.trans hw)
    simp at hj
  · obtain ⟨hpend, r, hr⟩ := exec_answeredOnce (isOperation_of_decodeCmd hd) he
    exact ⟨by simp [hp, hpend], by simp [hp], [r], hr, by simp [hp]⟩
  · exact ⟨by simp [hp], by simp [hp], [⟨.illegal, 0, []⟩], by simp [hp]⟩

/-- Settles O55, by the kind of the next input: reset and an illegal word answer in every state, a decoded operation by
`exec_next_of_inv`. -/
theorem invariantStatesNeverFault : Obligations.InvariantStatesNeverFault := by
  intro s hs
  match hp : s.pending with
  | [] => exact ⟨_, step_nil hp⟩
  | .rst :: _ => exact ⟨_, step_rst hp⟩
  | .cut _ :: _ => exact ⟨_, step_cut hp⟩
  | .word w :: rest =>
    match hd : decodeCmd w with
    | .error _ => exact ⟨_, step_word_error hp hd⟩
    | .ok i =>
      rw [step_word_ok hp hd]
      exact exec_next_of_inv (isOperation_of_decodeCmd hd) (hs.with_pending rest)

/-- Settles O47: a command word by the definition of a step, a wire symbol because its meaning gives its bytes and a step
on the first `RX.PUT` word puts the first of them. -/
theorem stepRunsDecodedInstruction : Obligations.StepRunsDecodedInstruction := by
  refine ⟨fun s w rest i hp hd _ => step_word_ok hp hd, fun s p bytes rest i hp hd => ?_⟩
  have hbytes : wireBytes i = bytes := wireBytes_of_decodeWire hd
  have hne : bytes ≠ [] := ne_nil_of_decodeWire hd
  rw [← putInputs_eq_map] at hp
  rw [exec_eq_give (hbytes ▸ hne), hbytes]
  cases bytes with
  | nil => exact absurd rfl hne
  | cons b bs => rw [give_cons]; exact step_rxPutWord s b (putInputs bs ++ rest) hp

end Sys2Proof.Machine
end

section
/-! SUPPORT. The registers as `GET` shows them (10 R40), the state after reset (10 R42), and the invariants of 10 R43 and
20 R62: kept by every change an operation makes, hence by every step. -/

namespace Sys2Proof.Machine

/-! ### Status registers -/

/-- A byte with eight zero bits above it is the byte's number. -/
theorem zeros_append_byte (b : Byte) : 0#8 ++ b = BitVec.ofNat 16 b.toNat :=
  BitVec.eq_of_toNat_eq <| by
    rw [BitVec.toNat_ofNat, Nat.mod_eq_of_lt (by omega)]
    exact (BitVec.toNat_append 0#8 b).trans (by simp)

theorem zeros_append_flagBit (f : Bool) : 0#15 ++ flagBit f = if f then 1 else 0 := by
  cases f <;> rfl

/-- The composer's register packs the count above the phase bit. -/
theorem zeros_append_txcnt_txph (c : BitVec 2) (p : TxPhase) :
    0#13 ++ c ++ txPhaseBit p = BitVec.ofNat 16 (2 * c.toNat + if p = .opened then 1 else 0) := by
  cases p <;> revert c <;> decide

/-- Status registers end at number 10. -/
theorem statusRegister_eq_none (s : State) {n : Nat} (h : 10 < n) : statusRegister s n = none := by
  obtain ⟨k, rfl⟩ := Nat.exists_eq_add_of_lt h
  rw [Nat.add_right_comm, Nat.add_comm]
  rfl

/-! ### The first byte decides the kind of a decode result (43 R180) -/

/-- Unescaping passes the first byte through. -/
theorem byteAt_zero_of_unescapeFrame {first : Byte} {rest u : List Byte} (h : unescapeFrame first rest = some u) :
    byteAt u 0 = first := by
  cases rest with
  | nil => cases h; rfl
  | cons b bs => obtain ⟨mid, -, rfl⟩ := Option.map_eq_some_iff.1 h; rfl

/-- Steps 3 to 9 of `decode`: the raw first byte selects acknowledge, a bad type, or the fields of a frame. -/
theorem decodeFrame_of_unescapeFrame {first : Byte} {rest u : List Byte} (h : unescapeFrame first rest = some u) :
    decodeFrame (first :: rest) =
      if first = Config.ACK then .ackd else if isFrameType first = false then .type else decodeFields u := by
  simp only [decodeFrame, h, byteAt_zero_of_unescapeFrame h]

theorem decodeFrame_of_dangling {first : Byte} {rest : List Byte} (h : unescapeFrame first rest = none) :
    decodeFrame (first :: rest) = .short := by
  simp only [decodeFrame, h]

theorem decodeFields_ne_ackd (u : List Byte) : decodeFields u ≠ .ackd := by
  simp only [decodeFields]
  repeat' split
  all_goals simp

/-- Only an acknowledge byte in front decodes to an acknowledge. -/
theorem head_of_decodeFrame_ackd {raw : List Byte} (h : decodeFrame raw = .ackd) : raw.headD 0 = Config.ACK := by
  cases raw with
  | nil => cases h
  | cons first rest =>
    cases hu : unescapeFrame first rest with
    | none => rw [decodeFrame_of_dangling hu] at h; cases h
    | some u =>
      rw [decodeFrame_of_unescapeFrame hu] at h
      split at h
      · assumption
      · split at h
        · cases h
        · exact absurd h (decodeFields_ne_ackd u)

/-- Only a frame type byte in front decodes to a frame. -/
theorem isFrameType_head_of_decodeFrame_frame {raw data : List Byte} {t a c : Byte}
    (h : decodeFrame raw = .frame t a c data) : isFrameType (raw.headD 0) = true := by
  cases raw with
  | nil => cases h
  | cons first rest =>
    cases hu : unescapeFrame first rest with
    | none => rw [decodeFrame_of_dangling hu] at h; cases h
    | some u =>
      rw [decodeFrame_of_unescapeFrame hu] at h
      split at h
      · cases h
      · split at h
        · cases h
        · exact Bool.eq_true_of_not_eq_false ‹_›

/-! ### Covered memories (20 R62) -/

theorem Memory.covers_zero (m : Memory) : m.covers 0 := fun _ h => absurd h (Nat.not_lt_zero _)

/-- Writing the cell at the length extends the covered part by one. -/
theorem Memory.covers_set_succ {m : Memory} {n : Nat} (h : m.covers n) (v : Byte) : (m.set n v).covers (n + 1) := by
  intro k hk
  obtain rfl | hne := eq_or_ne k n
  · simp
  · rw [Memory.get_set_other m n k v hne]
    exact h k (by omega)

/-- Bytes written from index 0 on cover their number of cells. -/
theorem covers_of_writeBytes {size : Nat} {m m' : Memory} {vs : List Byte} (h : writeBytes size m 0 vs = .ok m') :
    m'.covers vs.length := by
  obtain ⟨-, hget, -⟩ := writeBytes_ok _ _ _ _ _ h
  intro k hk
  have hk' := hget k hk
  rw [Nat.zero_add] at hk'
  simp [hk', hk]

/-! ### The invariants under the changes operations make -/

namespace State.Inv

variable {s : State}

/-- The invariants say nothing of the responses. -/
theorem respond (hs : s.Inv) (r : Response) : (s.respond r).Inv := { hs with }

/-- The composer may change its registers within the bounds of `TXCNT`. -/
theorem with_tx (hs : s.Inv) {ph : TxPhase} {cnt : BitVec 2} (crc : Half) (hle : cnt.toNat ≤ 2)
    (hidle : ph = .idle → cnt = 0) : ({ s with txph := ph, txcnt := cnt, txcrc := crc } : State).Inv :=
  { hs with txcnt_le := hle, idle_txcnt := hidle }

/-- The decomposer's registers cleared, whatever the memories hold. -/
theorem rxClear (hs : s.Inv) : (Machine.rxClear s).Inv :=
  { hs with
    rxlen_le := Nat.zero_le _
    ovf_full := by simp [Machine.rxClear]
    frame_dlen := by simp [Machine.rxClear]
    frame_type := by simp [Machine.rxClear]
    ackd_type := by simp [Machine.rxClear]
    no_frame_zero := fun _ => ⟨rfl, rfl, rfl⟩
    fill_type := fun _ => rfl
    rxbuf_covers := Memory.covers_zero _
    rxdata_covers := Memory.covers_zero _ }

/-- The overflow flag may be set when the raw buffer is full. -/
theorem with_ovf (hs : s.Inv) (hfull : s.rxlen.toNat = Config.rxmax) : ({ s with rxovf := true } : State).Inv :=
  { hs with ovf_full := fun _ => hfull }

/-- A raw byte may be stored while there is room and no result is held. -/
theorem with_rawByte (hs : s.Inv) (hfill : s.rxstat = .fill) (hroom : s.rxlen.toNat < Config.rxmax) (b : Byte) :
    ({ s with rxbuf := s.rxbuf.set s.rxlen.toNat b, rxlen := s.rxlen + 1 } : State).Inv := by
  have hlen : (s.rxlen + 1).toNat = s.rxlen.toNat + 1 := by
    have := rxmax_le
    bv_omega
  exact
    { hs with
      rxlen_le := hlen.trans_le hroom
      ovf_full := fun hovf => absurd (hs.ovf_full hovf) hroom.ne
      frame_dlen := fun hframe => by simp [hfill] at hframe
      rxbuf_wf := Memory.wf_set _ _ _ hs.rxbuf_wf
      rxbuf_within := Memory.within_set _ _ _ _ hroom hs.rxbuf_within
      rxbuf_covers := by simpa only [hlen] using Memory.covers_set_succ hs.rxbuf_covers b }

/-- A result that is no frame may be held, with the result registers cleared. -/
theorem with_verdict (hs : s.Inv) {st : RxStat} {ty : Byte} (hframe : st ≠ .frame) (hfill : st ≠ .fill)
    (hackd : st = .ackd → ty = Config.ACK) :
    ({ s with rxtype := ty, rxaddr := 0, rxcmd := 0, rxdlen := 0, rxstat := st } : State).Inv :=
  { hs with
    frame_dlen := fun h => absurd h hframe
    frame_type := fun h => absurd h hframe
    ackd_type := hackd
    no_frame_zero := fun _ => ⟨rfl, rfl, rfl⟩
    fill_type := fun h => absurd h hfill
    rxdata_covers := Memory.covers_zero _ }

/-- A frame may be held when the raw buffer is long enough for it and its data stand in RXDATA. -/
theorem with_frame (hs : s.Inv) {ty a c : Byte} {data : List Byte} {m : Memory} (hty : isFrameType ty = true)
    (hlen : data.length + Config.MINLEN ≤ s.rxlen.toNat)
    (hm : writeBytes (Config.rxdataSize Config.rxmax) s.rxdata 0 data = .ok m) :
    ({ s with rxtype := ty, rxaddr := a, rxcmd := c, rxdlen := BitVec.ofNat 16 data.length, rxdata := m,
              rxstat := .frame } : State).Inv := by
  have hdlen : (BitVec.ofNat 16 data.length).toNat = data.length :=
    Nat.mod_eq_of_lt (by have := s.rxlen.isLt; omega)
  obtain ⟨-, -, -, hwf, hwithin⟩ := writeBytes_ok _ _ _ _ _ hm
  exact
    { hs with
      frame_dlen := fun _ => by simpa only [hdlen] using hlen
      frame_type := fun _ => hty
      ackd_type := by simp
      no_frame_zero := by simp
      fill_type := by simp
      rxdata_wf := hwf hs.rxdata_wf
      rxdata_within := hwithin hs.rxdata_within
      rxdata_covers := by simpa only [hdlen] using covers_of_writeBytes hm }

end State.Inv

/-- The state after reset: every register zero and no cell counted as written. -/
theorem inv_reset : State.reset.Inv where
  txcnt_le := Nat.zero_le _
  idle_txcnt := fun _ => rfl
  rxlen_le := Nat.zero_le _
  ovf_full := nofun
  frame_dlen := nofun
  frame_type := nofun
  ackd_type := nofun
  no_frame_zero := fun _ => ⟨rfl, rfl, rfl⟩
  fill_type := fun _ => rfl
  rxbuf_wf := reset_memories_wf.1
  rxbuf_within := rfl
  rxbuf_covers := Memory.covers_zero _
  rxdata_wf := reset_memories_wf.2
  rxdata_within := rfl
  rxdata_covers := Memory.covers_zero _

/-- The reset signal establishes the invariants in any state. -/
theorem inv_applyReset (s : State) : (applyReset s).Inv := { inv_reset with }

/-! ### The invariants under the operations -/

/-- The next state, if `o` answers one, satisfies the invariants. -/
def NextInv (o : Result) : Prop := ∀ t, o = .next t → t.Inv

section
variable {s u : State}

theorem nextInv_answer (v : Half) (out : List Byte) (hu : u.Inv) : NextInv (answer v out u) := by
  rintro t ⟨⟩
  exact hu.respond _

theorem nextInv_raise (c : Rc) (hu : u.Inv) : NextInv (raise c u) := by
  rintro t ⟨⟩
  exact hu.respond _

theorem execGet_nextInv (n : Half) (hs : s.Inv) : NextInv (execGet n s) := by
  unfold execGet
  split
  · exact nextInv_answer _ _ hs
  · exact nextInv_raise _ hs

theorem execUnePut_nextInv (b : Byte) (hs : s.Inv) : NextInv (execUnePut b s) := by
  unfold execUnePut
  split
  · exact nextInv_answer _ _ { hs with }
  · split <;> exact nextInv_answer _ _ { hs with }

theorem execUneEnd_nextInv (hs : s.Inv) : NextInv (execUneEnd s) := by
  unfold execUneEnd
  split
  · exact nextInv_raise _ { hs with }
  · exact nextInv_answer _ _ hs

theorem execTxStart_nextInv (b : Byte) (hs : s.Inv) : NextInv (execTxStart b s) := by
  unfold execTxStart
  split
  · exact nextInv_raise _ hs
  · split
    · exact nextInv_raise _ hs
    · dsimp only
      split <;> exact nextInv_answer _ _ (hs.with_tx _ (Nat.zero_le _) (fun _ => rfl))

/-- `TXCNT` saturates at 2 (10 R26). -/
theorem txCountNext_le (c : BitVec 2) : (txCountNext c).toNat ≤ 2 := by
  revert c; decide

theorem execTxPut_nextInv (b : Byte) (hs : s.Inv) : NextInv (execTxPut b s) := by
  unfold execTxPut
  split
  · exact nextInv_raise _ hs
  · rename_i hopen
    exact nextInv_answer _ _ (hs.with_tx _ (txCountNext_le _) (fun hidle => absurd hidle hopen))

theorem execTxEnd_nextInv (hs : s.Inv) : NextInv (execTxEnd s) := by
  unfold execTxEnd
  split
  · exact nextInv_raise _ hs
  · exact nextInv_answer _ _ (hs.with_tx _ (Nat.zero_le _) (fun _ => rfl))

theorem rxPut_nextInv (b : Byte) (hs : s.Inv) : NextInv (rxPut Config.rxmax b s) := by
  intro t h
  obtain ⟨-, rfl⟩ | ⟨-, hfull, rfl⟩ | ⟨hfill, hroom, rfl⟩ := rxPut_cases _ b s t h
  · exact hs.respond _
  · exact (hs.with_ovf hfull).respond _
  · exact (hs.with_rawByte hfill hroom b).respond _

/-- Keeping the decode result of the bytes in the raw buffer. -/
theorem rxKeep_nextInv {raw : List Byte} (hs : s.Inv) (hlen : raw.length = s.rxlen.toNat) :
    NextInv (rxKeep Config.rxmax (decodeFrame raw)
      { s with rxtype := raw.headD 0, rxaddr := 0, rxcmd := 0, rxdlen := 0 }) := by
  intro t h
  obtain ⟨ty, a, c, data, m, hd, hm, rfl⟩ | ⟨-, rfl⟩ | ⟨-, rfl⟩ | ⟨-, rfl⟩ | ⟨-, rfl⟩ | ⟨hd, rfl⟩ := rxKeep_cases _ _ _ t h
  · have hfits : data.length + Config.MINLEN ≤ s.rxlen.toNat := hlen ▸ length_le_of_decodeFrame_frame hd
    exact (hs.with_frame (isFrameType_head_of_decodeFrame_frame hd) hfits hm).respond _
  iterate 4 exact State.Inv.respond (hs.with_verdict (by simp) (by simp) (by simp)) _
  · exact State.Inv.respond (hs.with_verdict (by simp) (by simp) (fun _ => head_of_decodeFrame_ackd hd)) _

theorem rxEnd_nextInv (hs : s.Inv) : NextInv (rxEnd Config.rxmax s) := by
  intro t h
  obtain ⟨-, rfl⟩ | ⟨-, raw, hraw, ⟨-, rfl⟩ | ⟨-, hkeep⟩⟩ := rxEnd_cases _ s t h
  · exact hs.respond _
  · exact State.Inv.respond (hs.with_verdict (by simp) (by simp) (by simp)) _
  · obtain ⟨hlen, -⟩ := (readBytes_ok _ _ _ _).1 hraw
    exact rxKeep_nextInv hs hlen t hkeep

theorem rxLoad_nextInv (k : Half) (hs : s.Inv) : NextInv (rxLoad k s) := by
  intro t h
  obtain ⟨-, rfl⟩ | ⟨-, -, rfl⟩ | ⟨-, -, _, -, rfl⟩ := rxLoad_cases k s t h
  all_goals exact hs.respond _

/-- Every operation of the command channel keeps the invariants. -/
theorem exec_nextInv {i : Instr} (hi : isOperation i = true) (hs : s.Inv) : NextInv (exec i s) := by
  cases i with
  | nop | escPut => exact nextInv_answer _ _ hs
  | crcClr | crcPut | uneClr => exact nextInv_answer _ _ { hs with }
  | get n => exact execGet_nextInv n hs
  | unePut b => exact execUnePut_nextInv b hs
  | uneEnd => exact execUneEnd_nextInv hs
  | txStart b => exact execTxStart_nextInv b hs
  | txPut b => exact execTxPut_nextInv b hs
  | txEnd => exact execTxEnd_nextInv hs
  | txClr => exact nextInv_answer _ _ (hs.with_tx _ (Nat.zero_le _) (fun _ => rfl))
  | rxClr => exact nextInv_answer _ _ hs.rxClear
  | rxPut b => exact rxPut_nextInv b hs
  | rxEnd => exact rxEnd_nextInv hs
  | rxLd k => exact rxLoad_nextInv k hs
  | startToDev | startFromDev | startNul | ack | stop | esc | escStop | escAck | escEsc | escToDev | escFromDev | lit =>
    cases hi

end

/-! ### The statements -/

/-- Settles O53, by the four things a step can do: nothing, a reset, an operation, or the refusal of an illegal word. -/
theorem everyStepKeepsInvariants : Obligations.EveryStepKeepsInvariants := by
  intro s t hs h
  obtain ⟨-, rfl⟩ | ⟨_, _, -, -, rfl⟩ | ⟨w, rest, i, -, hd, he⟩ | ⟨_, rest, _, -, -, rfl⟩ := step_cases s t h
  · exact hs
  · exact inv_applyReset _
  · exact exec_nextInv (isOperation_of_decodeCmd hd) (hs.with_pending rest) t he
  · exact (hs.with_pending rest).respond _

/-- Settles O3: the registers that are wider than their field by the packing lemmas, `RXSTAT` by the table of its numbers,
the others by definition. -/
theorem statusRegistersHoldTheirFields : Obligations.StatusRegistersHoldTheirFields := by
  intro s
  refine ⟨rfl, congrArg some (zeros_append_flagBit _), congrArg some (zeros_append_txcnt_txph _ _), rfl, rfl,
    congrArg some (zeros_append_flagBit _), fun st code hmem hst => ?_, congrArg some (zeros_append_byte _),
    congrArg some (zeros_append_byte _), congrArg some (zeros_append_byte _), rfl, fun n hn => statusRegister_eq_none s hn⟩
  obtain ⟨rfl, rfl⟩ | ⟨rfl, rfl⟩ | ⟨rfl, rfl⟩ | ⟨rfl, rfl⟩ | ⟨rfl, rfl⟩ | ⟨rfl, rfl⟩ | ⟨rfl, rfl⟩ | ⟨rfl, rfl⟩ := by
    simpa using hmem
  all_goals exact congrArg (fun st => some (0#13 ++ rxStatCode st)) hst

/-- Settles O51: the fields by definition of the reset state, the eleven registers one by one. -/
theorem resetStateRegistersAreZero : Obligations.ResetStateRegistersAreZero := by
  refine ⟨rfl, rfl, rfl, rfl, rfl, rfl, rfl, rfl, rfl, rfl, rfl, rfl, fun n hn => ?_⟩
  interval_cases n <;> rfl

/-- Settles O52: no result is held after reset, since `RXSTAT` is `FILL`. -/
theorem resetSatisfiesInvariants : Obligations.ResetSatisfiesInvariants :=
  ⟨inv_reset, fun h => absurd rfl h⟩

end Sys2Proof.Machine
end

section
/-! SUPPORT. The two memories (20 R60 to R62, R75): what each operation does to them, which cells a step can tell apart
(93 U7), and how the bytes of a wire symbol reach RXBUF (log entry 4). -/

namespace Sys2Proof.Machine

/-! ### The three operations that access a memory, one equation per outcome (43 R185, R186, R199) -/

theorem rxPut_of_held (rxmax : Nat) (b : Byte) {s : State} (h : s.rxstat ≠ .fill) :
    rxPut rxmax b s = .next (s.respond ⟨.seq, 0, []⟩) :=
  if_pos h

theorem rxPut_of_full {rxmax : Nat} (b : Byte) {s : State} (hfill : s.rxstat = .fill) (hfull : s.rxlen.toNat = rxmax) :
    rxPut rxmax b s = .next (({ s with rxovf := true } : State).respond ⟨.ovf, 0, []⟩) := by
  simp [rxPut, hfill, hfull, raise_eq]

theorem rxPut_of_room {rxmax : Nat} (b : Byte) {s : State} (hfill : s.rxstat = .fill) (hroom : s.rxlen.toNat < rxmax) :
    rxPut rxmax b s = .next (({ s with rxbuf := s.rxbuf.set s.rxlen.toNat b, rxlen := s.rxlen + 1 } : State).respond
      ⟨.ok, 0, []⟩) := by
  have hw : memWrite rxmax s.rxbuf s.rxlen.toNat b = .ok (s.rxbuf.set s.rxlen.toNat b) :=
    (memWrite_ok _ _ _ _ _).2 ⟨hroom, rfl⟩
  simp [rxPut, hfill, hroom.ne, hw, answer_eq]

/-- `RXLEN` counts a byte for which there is room without wrap. -/
theorem rxlen_add_one_toNat {s : State} (hroom : s.rxlen.toNat < Config.rxmax) :
    (s.rxlen + 1).toNat = s.rxlen.toNat + 1 := by
  have := rxmax_le
  bv_omega

theorem rxEnd_of_held (rxmax : Nat) {s : State} (h : s.rxstat ≠ .fill) :
    rxEnd rxmax s = .next (s.respond ⟨.seq, 0, []⟩) :=
  if_pos h

theorem rxEnd_of_raw (rxmax : Nat) {s : State} {raw : List Byte} (hfill : s.rxstat = .fill)
    (hraw : readBytes s.rxbuf 0 s.rxlen.toNat = .ok raw) :
    rxEnd rxmax s =
      if s.rxovf then rxFinish .ovfl { s with rxtype := raw.headD 0, rxaddr := 0, rxcmd := 0, rxdlen := 0 }
      else rxKeep rxmax (decodeFrame raw) { s with rxtype := raw.headD 0, rxaddr := 0, rxcmd := 0, rxdlen := 0 } := by
  simp [rxEnd, hfill, hraw]

theorem rxLoad_of_noFrame (k : Half) {s : State} (h : s.rxstat ≠ .frame) :
    rxLoad k s = .next (s.respond ⟨.seq, 0, []⟩) :=
  if_pos h

theorem rxLoad_of_beyond {k : Half} {s : State} (hframe : s.rxstat = .frame) (hk : s.rxdlen.toNat ≤ k.toNat) :
    rxLoad k s = .next (s.respond ⟨.range, 0, []⟩) := by
  simp [rxLoad, hframe, hk, raise_eq]

theorem rxLoad_of_stored {k : Half} {s : State} {v : Byte} (hframe : s.rxstat = .frame)
    (hk : k.toNat < s.rxdlen.toNat) (hv : s.rxdata.get k.toNat = some v) :
    rxLoad k s = .next (s.respond ⟨.ok, zext16 v, []⟩) := by
  simp [rxLoad, hframe, Nat.not_le.2 hk, (memRead_ok _ _ _).2 hv, answer_eq]

/-! ### The operations that neither read nor write a memory -/

/-- `s` with other memories and other earlier responses. -/
def State.over (s : State) (buf data : Memory) (l : List Response) : State :=
  { s with rxbuf := buf, rxdata := data, responses := l }

theorem statusRegister_over (s : State) (buf data : Memory) (l : List Response) (n : Nat) :
    statusRegister (s.over buf data l) n = statusRegister s n := rfl

/-- From `s`, the operation `f` gives one response `r` and the registers of `t`, whatever the memories and the earlier
responses are; it leaves both as they are and lengthens neither reachable part. -/
def IgnoresMemories (s : State) (f : State → Result) : Prop :=
  ∃ (t : State) (r : Response), t.rxlen.toNat ≤ s.rxlen.toNat ∧ t.rxdlen.toNat ≤ s.rxdlen.toNat ∧
    ∀ buf data l, f (s.over buf data l) = .next (t.over buf data (l ++ [r]))

theorem execGet_ignoresMemories (n : Half) (s : State) : IgnoresMemories s (execGet n) := by
  cases hv : statusRegister s n.toNat with
  | some v => exact ⟨s, ⟨.ok, v, []⟩, le_rfl, le_rfl, fun _ _ _ => by simp only [execGet, statusRegister_over, hv]; rfl⟩
  | none => exact ⟨s, ⟨.illegal, 0, []⟩, le_rfl, le_rfl, fun _ _ _ => by simp only [execGet, statusRegister_over, hv]; rfl⟩

theorem execUnePut_ignoresMemories (b : Byte) (s : State) : IgnoresMemories s (execUnePut b) := by
  by_cases hpend : s.unepend = true
  · exact ⟨{ s with unepend := false }, ⟨.ok, 0, _⟩, le_rfl, le_rfl, fun _ _ _ => if_pos hpend⟩
  · by_cases hesc : b = Config.ESC
    · exact ⟨{ s with unepend := true }, ⟨.ok, 0, _⟩, le_rfl, le_rfl, fun _ _ _ => (if_neg hpend).trans (if_pos hesc)⟩
    · exact ⟨s, ⟨.ok, 0, _⟩, le_rfl, le_rfl, fun _ _ _ => (if_neg hpend).trans (if_neg hesc)⟩

theorem execUneEnd_ignoresMemories (s : State) : IgnoresMemories s execUneEnd := by
  by_cases hpend : s.unepend = true
  · exact ⟨{ s with unepend := false }, ⟨.trail, 0, _⟩, le_rfl, le_rfl, fun _ _ _ => if_pos hpend⟩
  · exact ⟨s, ⟨.ok, 0, _⟩, le_rfl, le_rfl, fun _ _ _ => if_neg hpend⟩

theorem execTxStart_ignoresMemories (b : Byte) (s : State) : IgnoresMemories s (execTxStart b) := by
  by_cases htype : isStartType b = false
  · exact ⟨s, ⟨.illegal, 0, _⟩, le_rfl, le_rfl, fun _ _ _ => if_pos htype⟩
  · by_cases hopen : s.txph = .opened
    · exact ⟨s, ⟨.seq, 0, _⟩, le_rfl, le_rfl, fun _ _ _ => (if_neg htype).trans (if_pos hopen)⟩
    · by_cases hack : b = Config.ACK
      · exact ⟨{ s with txcnt := 0, txcrc := Config.INIT }, ⟨.ok, 0, _⟩, le_rfl, le_rfl,
          fun _ _ _ => (if_neg htype).trans ((if_neg hopen).trans (if_pos hack))⟩
      · exact ⟨{ s with txcnt := 0, txcrc := Config.INIT, txph := .opened }, ⟨.ok, 0, _⟩, le_rfl, le_rfl,
          fun _ _ _ => (if_neg htype).trans ((if_neg hopen).trans (if_neg hack))⟩

theorem execTxPut_ignoresMemories (b : Byte) (s : State) : IgnoresMemories s (execTxPut b) := by
  by_cases hidle : s.txph = .idle
  · exact ⟨s, ⟨.seq, 0, _⟩, le_rfl, le_rfl, fun _ _ _ => if_pos hidle⟩
  · exact ⟨{ s with txcrc := crcByte s.txcrc b, txcnt := txCountNext s.txcnt }, ⟨.ok, 0, _⟩, le_rfl, le_rfl,
      fun _ _ _ => if_neg hidle⟩

theorem execTxEnd_ignoresMemories (s : State) : IgnoresMemories s execTxEnd := by
  by_cases hearly : s.txph = .idle ∨ s.txcnt < 2
  · exact ⟨s, ⟨.seq, 0, _⟩, le_rfl, le_rfl, fun _ _ _ => if_pos hearly⟩
  · let cs := crcRun s.txcrc Config.placeholders
    exact ⟨{ s with txcrc := cs, txph := .idle, txcnt := 0 }, ⟨.ok, 0, esc (hi cs) ++ esc (lo cs) ++ [Config.STOP]⟩,
      le_rfl, le_rfl, fun _ _ _ => if_neg hearly⟩

theorem execRxClr_ignoresMemories (s : State) : IgnoresMemories s execRxClr :=
  ⟨rxClear s, ⟨.ok, 0, []⟩, Nat.zero_le _, Nat.zero_le _, fun _ _ _ => rfl⟩

/-- What an instruction has to do with the memories: nothing, or it is one of the three operations that access one, or it
is a wire symbol, whose bytes are put one by one. -/
theorem exec_memory_kinds (i : Instr) :
    (i ≠ .rxEnd ∧ ∀ s, IgnoresMemories s (exec i)) ∨ (∃ b, i = .rxPut b) ∨ i = .rxEnd ∨ (∃ k, i = .rxLd k) ∨
      (isOperation i = false ∧ ∃ b bs, wireBytes i = b :: bs) := by
  cases i with
  | nop | escPut => exact .inl ⟨nofun, fun s => ⟨s, ⟨.ok, 0, _⟩, le_rfl, le_rfl, fun _ _ _ => rfl⟩⟩
  | crcClr => exact .inl ⟨nofun, fun s => ⟨{ s with crc := Config.INIT }, ⟨.ok, 0, _⟩, le_rfl, le_rfl, fun _ _ _ => rfl⟩⟩
  | crcPut b =>
    exact .inl ⟨nofun, fun s => ⟨{ s with crc := crcByte s.crc b }, ⟨.ok, 0, _⟩, le_rfl, le_rfl, fun _ _ _ => rfl⟩⟩
  | uneClr => exact .inl ⟨nofun, fun s => ⟨{ s with unepend := false }, ⟨.ok, 0, _⟩, le_rfl, le_rfl, fun _ _ _ => rfl⟩⟩
  | txClr =>
    exact .inl ⟨nofun, fun s =>
      ⟨{ s with txph := .idle, txcnt := 0, txcrc := Config.INIT }, ⟨.ok, 0, _⟩, le_rfl, le_rfl, fun _ _ _ => rfl⟩⟩
  | get n => exact .inl ⟨nofun, execGet_ignoresMemories n⟩
  | unePut b => exact .inl ⟨nofun, execUnePut_ignoresMemories b⟩
  | uneEnd => exact .inl ⟨nofun, execUneEnd_ignoresMemories⟩
  | txStart b => exact .inl ⟨nofun, execTxStart_ignoresMemories b⟩
  | txPut b => exact .inl ⟨nofun, execTxPut_ignoresMemories b⟩
  | txEnd => exact .inl ⟨nofun, execTxEnd_ignoresMemories⟩
  | rxClr => exact .inl ⟨nofun, execRxClr_ignoresMemories⟩
  | rxPut b => exact .inr (.inl ⟨b, rfl⟩)
  | rxEnd => exact .inr (.inr (.inl rfl))
  | rxLd k => exact .inr (.inr (.inr (.inl ⟨k, rfl⟩)))
  | startToDev | startFromDev | startNul | ack | stop | esc | escStop | escAck | escEsc | escToDev | escFromDev | lit =>
    exact .inr (.inr (.inr (.inr ⟨rfl, _, _, rfl⟩)))

/-! ### What each access leaves of the memories (20 R60, R61) -/

theorem IgnoresMemories.memories_eq {f : State → Result} {s t : State} (hf : IgnoresMemories s f) (h : f s = .next t) :
    t.rxbuf = s.rxbuf ∧ t.rxdata = s.rxdata := by
  obtain ⟨u, r, -, -, hu⟩ := hf
  cases h.symm.trans (hu s.rxbuf s.rxdata s.responses)
  exact ⟨rfl, rfl⟩

theorem rxPut_memories {rxmax : Nat} {b : Byte} {s t : State} (h : rxPut rxmax b s = .next t) :
    (∀ k, k ≠ s.rxlen.toNat → t.rxbuf.get k = s.rxbuf.get k) ∧ t.rxdata = s.rxdata := by
  obtain ⟨-, rfl⟩ | ⟨-, -, rfl⟩ | ⟨-, -, rfl⟩ := rxPut_cases rxmax b s t h
  · exact ⟨fun _ _ => rfl, rfl⟩
  · exact ⟨fun _ _ => rfl, rfl⟩
  · exact ⟨fun k hk => Memory.get_set_other _ _ _ _ hk, rfl⟩

theorem rxKeep_memories {rxmax : Nat} {d : Decoded} {s t : State}
    (hlen : ∀ ty a c data, d = .frame ty a c data → data.length < 2 ^ 16) (h : rxKeep rxmax d s = .next t) :
    t.rxbuf = s.rxbuf ∧ ∀ k, t.rxdlen.toNat ≤ k → t.rxdata.get k = s.rxdata.get k := by
  obtain ⟨ty, a, c, data, m, hd, hm, rfl⟩ | ⟨-, rfl⟩ | ⟨-, rfl⟩ | ⟨-, rfl⟩ | ⟨-, rfl⟩ | ⟨-, rfl⟩ := rxKeep_cases rxmax d s t h
  · obtain ⟨-, -, hother, -⟩ := writeBytes_ok _ _ _ _ _ hm
    refine ⟨rfl, fun k hk => hother k (.inr ?_)⟩
    have hdlen : (BitVec.ofNat 16 data.length).toNat = data.length := Nat.mod_eq_of_lt (hlen _ _ _ _ hd)
    simpa [hdlen] using hk
  all_goals exact ⟨rfl, fun _ _ => rfl⟩

/-- The data of a decoded frame is shorter than the raw input, so `RXDLEN` counts it exactly. -/
theorem rxEnd_memories {rxmax : Nat} {s t : State} (h : rxEnd rxmax s = .next t) :
    t.rxbuf = s.rxbuf ∧ ∀ k, t.rxdlen.toNat ≤ k → t.rxdata.get k = s.rxdata.get k := by
  obtain ⟨-, rfl⟩ | ⟨-, raw, hraw, ⟨-, rfl⟩ | ⟨-, hkeep⟩⟩ := rxEnd_cases rxmax s t h
  · exact ⟨rfl, fun _ _ => rfl⟩
  · exact ⟨rfl, fun _ _ => rfl⟩
  · refine (rxKeep_memories (fun ty a c data hd => ?_) hkeep :)
    have hdata := length_le_of_decodeFrame_frame hd
    obtain ⟨hlen, -⟩ := (readBytes_ok _ _ _ _).1 hraw
    have := s.rxlen.isLt
    omega

theorem rxLoad_memories {k : Half} {s t : State} (h : rxLoad k s = .next t) :
    t.rxbuf = s.rxbuf ∧ t.rxdata = s.rxdata := by
  obtain ⟨-, rfl⟩ | ⟨-, -, rfl⟩ | ⟨-, -, _, -, rfl⟩ := rxLoad_cases k s t h
  all_goals exact ⟨rfl, rfl⟩

/-! ### States that differ in unreachable cells only (20 R75, 93 U7) -/

/-- From `s` and `s'` the next states `t` and `t'` agree on all that can be reached, and the new responses are the same. -/
def SameAnswer (s s' t t' : State) : Prop :=
  t.SameReachable t' ∧ t.pending = t'.pending ∧ ∃ rs, t.responses = s.responses ++ rs ∧ t'.responses = s'.responses ++ rs

section
variable {s s' t : State}

theorem State.SameReachable.eq_over (h : s.SameReachable s') (hp : s.pending = s'.pending) :
    s' = s.over s'.rxbuf s'.rxdata s'.responses := by
  obtain ⟨⟩ := s
  obtain ⟨⟩ := s'
  cases h
  simp_all [State.over]

theorem IgnoresMemories.sameAnswer {f : State → Result} (hf : IgnoresMemories s f) (h : s.SameReachable s')
    (hp : s.pending = s'.pending) (ht : f s = .next t) : ∃ t', f s' = .next t' ∧ SameAnswer s s' t t' := by
  obtain ⟨u, r, hlen, hdlen, hu⟩ := hf
  cases ht.symm.trans (hu s.rxbuf s.rxdata s.responses)
  refine ⟨u.over s'.rxbuf s'.rxdata (s'.responses ++ [r]), ?_, ?_, rfl, [r], rfl, rfl⟩
  · rw [h.eq_over hp]; exact hu _ _ _
  · exact ⟨rfl, rfl, rfl, rfl, rfl, rfl, rfl, rfl, rfl, rfl, rfl, rfl,
      fun k hk => h.rxbuf k (hk.trans_le hlen), fun k hk => h.rxdata k (hk.trans_le hdlen)⟩

theorem State.SameReachable.with_pending (h : s.SameReachable s') (l : List Input) :
    State.SameReachable { s with pending := l } { s' with pending := l } :=
  { h with }

/-- A byte stored at RXLEN in both states extends the part of RXBUF on which they agree. -/
theorem State.SameReachable.with_rawByte (h : s.SameReachable s') (b : Byte) :
    State.SameReachable { s with rxbuf := s.rxbuf.set s.rxlen.toNat b, rxlen := s.rxlen + 1 }
      { s' with rxbuf := s'.rxbuf.set s'.rxlen.toNat b, rxlen := s'.rxlen + 1 } := by
  refine { h with rxlen := congrArg (· + 1) h.rxlen, rxbuf := fun k hk => ?_ }
  have hk : k ≤ s.rxlen.toNat := by
    simp only at hk
    bv_omega
  dsimp only
  rw [← h.rxlen]
  obtain rfl | hne := eq_or_ne k s.rxlen.toNat
  · rw [Memory.get_set_same, Memory.get_set_same]
  · rw [Memory.get_set_other _ _ _ _ hne, Memory.get_set_other _ _ _ _ hne]
    exact h.rxbuf k (by omega)

theorem rxPut_sameAnswer {rxmax : Nat} {b : Byte} (h : s.SameReachable s') (hp : s.pending = s'.pending)
    (ht : rxPut rxmax b s = .next t) : ∃ t', rxPut rxmax b s' = .next t' ∧ SameAnswer s s' t t' := by
  obtain ⟨hheld, rfl⟩ | ⟨hfill, hfull, rfl⟩ | ⟨hfill, hroom, rfl⟩ := rxPut_cases rxmax b s t ht
  · exact ⟨_, rxPut_of_held _ _ (h.rxstat ▸ hheld), { h with }, hp, _, rfl, rfl⟩
  · exact ⟨_, rxPut_of_full _ (h.rxstat ▸ hfill) (h.rxlen ▸ hfull), { h with rxovf := rfl }, hp, _, rfl, rfl⟩
  · exact ⟨_, rxPut_of_room _ (h.rxstat ▸ hfill) (h.rxlen ▸ hroom), { h.with_rawByte b with }, hp, _, rfl, rfl⟩

theorem rxLoad_sameAnswer {k : Half} (h : s.SameReachable s') (hp : s.pending = s'.pending)
    (ht : rxLoad k s = .next t) : ∃ t', rxLoad k s' = .next t' ∧ SameAnswer s s' t t' := by
  obtain ⟨hno, rfl⟩ | ⟨hframe, hk, rfl⟩ | ⟨hframe, hk, v, hv, rfl⟩ := rxLoad_cases k s t ht
  · exact ⟨_, rxLoad_of_noFrame k (h.rxstat ▸ hno), { h with }, hp, _, rfl, rfl⟩
  · exact ⟨_, rxLoad_of_beyond (h.rxstat ▸ hframe) (h.rxdlen ▸ hk), { h with }, hp, _, rfl, rfl⟩
  · have hv' : s'.rxdata.get k.toNat = some v := (h.rxdata _ hk).symm.trans hv
    exact ⟨_, rxLoad_of_stored (h.rxstat ▸ hframe) (h.rxdlen ▸ hk) hv', { h with }, hp, _, rfl, rfl⟩

/-- Reading succeeds alike where two memories agree. -/
theorem readBytes_congr {m m' : Memory} {n : Nat} {raw : List Byte} (h : ∀ k, k < n → m.get k = m'.get k)
    (hr : readBytes m 0 n = .ok raw) : readBytes m' 0 n = .ok raw := by
  obtain ⟨hlen, hget⟩ := (readBytes_ok _ _ _ _).1 hr
  refine (readBytes_ok _ _ _ _).2 ⟨hlen, fun k hk => ?_⟩
  rw [← hget k hk, Nat.zero_add, h k hk]

/-- Whether writing succeeds depends on the indices only, and what is written reads alike. -/
theorem writeBytes_congr {size : Nat} {m m₁ : Memory} {vs : List Byte} (m' : Memory)
    (h : writeBytes size m 0 vs = .ok m₁) :
    ∃ m₁', writeBytes size m' 0 vs = .ok m₁' ∧ ∀ k, k < vs.length → m₁.get k = m₁'.get k := by
  obtain ⟨hin, hget, -⟩ := writeBytes_ok _ _ _ _ _ h
  obtain ⟨m₁', h'⟩ : ∃ m₁', writeBytes size m' 0 vs = .ok m₁' := by
    cases vs with
    | nil => exact ⟨m', rfl⟩
    | cons v vs => exact writeBytes_total _ _ _ _ (hin (by simp))
  obtain ⟨-, hget', -⟩ := writeBytes_ok _ _ _ _ _ h'
  refine ⟨m₁', h', fun k hk => ?_⟩
  simpa using (hget k hk).trans (hget' k hk).symm

theorem rxFinish_sameAnswer {st : RxStat} (h : s.SameReachable s') (hp : s.pending = s'.pending)
    (ht : rxFinish st s = .next t) : ∃ t', rxFinish st s' = .next t' ∧ SameAnswer s s' t t' := by
  cases ht
  exact ⟨_, rxFinish_eq st s', { h with rxstat := rfl }, hp, _, rfl, rfl⟩

theorem rxKeep_sameAnswer {rxmax : Nat} {d : Decoded} (h : s.SameReachable s') (hp : s.pending = s'.pending)
    (ht : rxKeep rxmax d s = .next t) : ∃ t', rxKeep rxmax d s' = .next t' ∧ SameAnswer s s' t t' := by
  cases d with
  | frame ty a c data =>
    simp only [rxKeep] at ht ⊢
    split at ht
    · cases ht
    · rename_i m hm
      obtain ⟨m', hm', hagree⟩ := writeBytes_congr s'.rxdata hm
      rw [hm']
      have hkept : State.SameReachable
          { s with rxaddr := a, rxcmd := c, rxdlen := BitVec.ofNat 16 data.length, rxdata := m }
          { s' with rxaddr := a, rxcmd := c, rxdlen := BitVec.ofNat 16 data.length, rxdata := m' } :=
        { h with rxaddr := rfl, rxcmd := rfl, rxdlen := rfl,
                 rxdata := fun k hk => hagree k (hk.trans_le (Nat.mod_le _ _)) }
      exact (rxFinish_sameAnswer hkept hp ht :)
  | empty | short | type | csum | ackd => exact rxFinish_sameAnswer h hp ht

/-- Both states hand the same raw bytes to `decode`. -/
theorem rxEnd_sameAnswer {rxmax : Nat} (h : s.SameReachable s') (hp : s.pending = s'.pending)
    (ht : rxEnd rxmax s = .next t) : ∃ t', rxEnd rxmax s' = .next t' ∧ SameAnswer s s' t t' := by
  obtain ⟨hheld, rfl⟩ | ⟨hfill, raw, hraw, hdone⟩ := rxEnd_cases rxmax s t ht
  · exact ⟨_, rxEnd_of_held rxmax (h.rxstat ▸ hheld), { h with }, hp, _, rfl, rfl⟩
  · have hraw' : readBytes s'.rxbuf 0 s'.rxlen.toNat = .ok raw := by
      rw [← h.rxlen]; exact readBytes_congr h.rxbuf hraw
    have hcleared : State.SameReachable { s with rxtype := raw.headD 0, rxaddr := 0, rxcmd := 0, rxdlen := 0 }
        { s' with rxtype := raw.headD 0, rxaddr := 0, rxcmd := 0, rxdlen := 0 } :=
      { h with rxtype := rfl, rxaddr := rfl, rxcmd := rfl, rxdlen := rfl,
               rxdata := fun _ hk => absurd hk (Nat.not_lt_zero _) }
    rw [rxEnd_of_raw rxmax (h.rxstat ▸ hfill) hraw']
    obtain ⟨hovf, rfl⟩ | ⟨hovf, hkeep⟩ := hdone
    · rw [if_pos (h.rxovf ▸ hovf)]
      exact (rxFinish_sameAnswer hcleared hp rfl :)
    · rw [if_neg (by simp [← h.rxovf, hovf])]
      exact (rxKeep_sameAnswer hcleared hp hkeep :)

theorem exec_sameAnswer {i : Instr} (hi : isOperation i = true) (h : s.SameReachable s')
    (hp : s.pending = s'.pending) (ht : exec i s = .next t) : ∃ t', exec i s' = .next t' ∧ SameAnswer s s' t t' := by
  obtain ⟨-, hf⟩ | ⟨b, rfl⟩ | rfl | ⟨k, rfl⟩ | ⟨hsym, -⟩ := exec_memory_kinds i
  · exact (hf s).sameAnswer h hp ht
  · exact rxPut_sameAnswer h hp ht
  · exact rxEnd_sameAnswer h hp ht
  · exact rxLoad_sameAnswer h hp ht
  · simp [hi] at hsym

/-- After reset nothing of the earlier state is left but the inputs and the responses. -/
theorem sameReachable_applyReset (s s' : State) : (applyReset s).SameReachable (applyReset s') :=
  ⟨rfl, rfl, rfl, rfl, rfl, rfl, rfl, rfl, rfl, rfl, rfl, rfl, fun _ _ => rfl, fun _ _ => rfl⟩

theorem step_sameAnswer (h : s.SameReachable s') (hp : s.pending = s'.pending) (ht : step s = .next t) :
    ∃ t', step s' = .next t' ∧ SameAnswer s s' t t' := by
  obtain ⟨hq, rfl⟩ | ⟨j, rest, hq, hj, rfl⟩ | ⟨w, rest, i, hq, hd, he⟩ | ⟨w, rest, e, hq, hd, rfl⟩ := step_cases s t ht
  · exact ⟨s', step_nil (hp ▸ hq), h, hp, [], by simp⟩
  · have hs' : step s' = .next (applyReset { s' with pending := rest }) := by
      obtain rfl | ⟨w, rfl⟩ := hj
      · exact step_rst (hp ▸ hq)
      · exact step_cut (hp ▸ hq)
    exact ⟨_, hs', sameReachable_applyReset _ _, rfl, [], by simp⟩
  · rw [step_word_ok (hp ▸ hq) hd]
    exact (exec_sameAnswer (isOperation_of_decodeCmd hd) (h.with_pending rest) rfl he :)
  · exact ⟨_, step_word_error (hp ▸ hq) hd, { h with }, rfl, _, rfl, rfl⟩

end

/-! ### The bytes of a wire symbol (30 R80, log entry 4) -/

/-- A one-byte symbol is `RX.PUT` of its byte. -/
theorem exec_of_oneByte {i : Instr} {b : Byte} (h : wireBytes i = [b]) (s : State) :
    exec i s = rxPut Config.rxmax b s := by
  rw [exec_eq_give (by simp [h]), h, give_singleton]

/-- `RX.PUT` acts alike whatever inputs wait, and leaves them as they are. -/
theorem rxPut_with_pending {rxmax : Nat} {b : Byte} {s v : State} (h : rxPut rxmax b s = .next v) (l : List Input) :
    rxPut rxmax b { s with pending := l } = .next { v with pending := l } := by
  obtain ⟨hheld, rfl⟩ | ⟨hfill, hfull, rfl⟩ | ⟨hfill, hroom, rfl⟩ := rxPut_cases rxmax b s v h
  · exact rxPut_of_held _ _ hheld
  · exact rxPut_of_full _ hfill hfull
  · exact rxPut_of_room _ hfill hroom

/-- A two-byte symbol is `RX.PUT` of its first byte, with the command word `RX.PUT` of its second byte offered next. -/
theorem exec_of_twoBytes {i : Instr} {b x : Byte} (h : wireBytes i = [b, x]) {s v : State}
    (hv : rxPut Config.rxmax b s = .next v) :
    exec i s = .next { v with pending := .word (rxPutWord x) :: s.pending } := by
  rw [exec_eq_give (by simp [h]), h, give_cons]
  exact rxPut_with_pending hv _

/-- The step after a two-byte symbol is `RX.PUT` of its second byte in the state that the put of the first one gave. -/
theorem step_after_twoBytes {i : Instr} {b x : Byte} (h : wireBytes i = [b, x]) {s u v : State}
    (hv : rxPut Config.rxmax b s = .next v) (hu : exec i s = .next u) : step u = rxPut Config.rxmax x v := by
  cases hu.symm.trans (exec_of_twoBytes h hv)
  obtain ⟨hpend, -⟩ := rxPut_answeredOnce hv
  exact (step_rxPutWord _ x s.pending rfl).trans (by rw [← hpend])

/-! ### The statements -/

/-- Settles O59, by `step_sameAnswer`: an operation that ignores the memories, and each of the three that access one,
answers alike in two such states, since `RX.END` and `RX.LD` read below RXLEN and RXDLEN only. -/
theorem unreachableCellsAreUnobservable : Obligations.UnreachableCellsAreUnobservable := by
  intro s s' t _ _ h hp ht
  obtain ⟨t', ht', hsame, hpend, rs, hrs, hrs'⟩ := step_sameAnswer h hp ht
  exact ⟨t', rs, ht', hsame, hpend, hrs, hrs'⟩

/-- Settles O58, by what the instruction has to do with the memories. -/
theorem memoryCellsOutsideStoresKeepTheirBytes : Obligations.MemoryCellsOutsideStoresKeepTheirBytes := by
  intro i s t h
  obtain ⟨hne, hf⟩ | ⟨b, rfl⟩ | rfl | ⟨k, rfl⟩ | ⟨hsym, b, bs, hbytes⟩ := exec_memory_kinds i
  · obtain ⟨hbuf, hdata⟩ := (hf s).memories_eq h
    exact ⟨fun _ _ => by rw [hbuf], fun _ _ _ => by rw [hbuf], fun _ => hdata, fun he => absurd he hne⟩
  · obtain ⟨hbuf, hdata⟩ := rxPut_memories h
    exact ⟨hbuf, fun hput => absurd rfl (hput b), fun _ => hdata, nofun⟩
  · obtain ⟨hbuf, hdata⟩ := rxEnd_memories h
    exact ⟨fun _ _ => by rw [hbuf], fun _ _ _ => by rw [hbuf], fun hne => absurd rfl hne, fun _ => hdata⟩
  · obtain ⟨hbuf, hdata⟩ := rxLoad_memories h
    exact ⟨fun _ _ => by rw [hbuf], fun _ _ _ => by rw [hbuf], fun _ => hdata, nofun⟩
  · rw [exec_eq_give (by simp [hbytes]), hbytes, give_cons] at h
    obtain ⟨hbuf, hdata⟩ := rxPut_memories h
    refine ⟨hbuf, fun _ hop => ?_, fun _ => hdata, ?_⟩
    · simp [hsym] at hop
    · rintro rfl
      simp [isOperation] at hsym

/-- Settles O23: each of the six symbols is `RX.PUT` of its byte, whose three outcomes the statement lists. -/
theorem oneByteSymbolsAreStoredRaw : Obligations.OneByteSymbolsAreStoredRaw := by
  intro s c i b hmem
  have hbytes : wireBytes i = [b] := by
    simp only [List.mem_cons, Prod.mk.injEq, List.not_mem_nil, or_false] at hmem
    obtain ⟨rfl, rfl⟩ | ⟨rfl, rfl⟩ | ⟨rfl, rfl⟩ | ⟨rfl, rfl⟩ | ⟨rfl, rfl⟩ | ⟨rfl, rfl⟩ := hmem <;> rfl
  rw [exec_of_oneByte hbytes]
  exact ⟨fun hfill hroom => ⟨_, rxPut_of_room b hfill hroom, Memory.get_set_same _ _ _,
      fun k hk => Memory.get_set_other _ _ _ _ hk⟩,
    fun hfill hfull => rxPut_of_full b hfill hfull, fun hheld => rxPut_of_held _ b hheld⟩

/-- Settles O24: each of the six pairs is `RX.PUT` of the introducer now and of the second byte at the next step; the
outcomes of the two puts are the four cases of the statement. -/
theorem escapePairsAreStoredRaw : Obligations.EscapePairsAreStoredRaw := by
  intro s c i x hmem second
  have hbytes : wireBytes i = [0x1B, x] := by
    simp only [List.mem_cons, Prod.mk.injEq, List.not_mem_nil, or_false] at hmem
    obtain ⟨rfl, rfl⟩ | ⟨rfl, rfl⟩ | ⟨rfl, rfl⟩ | ⟨rfl, rfl⟩ | ⟨rfl, rfl⟩ | ⟨rfl, rfl⟩ := hmem <;> rfl
  have hsecond : second = .word (rxPutWord x) := (List.cons.inj (putInputs_eq_map [x])).1.symm
  rw [hsecond]
  refine ⟨fun hfill hroom => ⟨_, exec_of_twoBytes hbytes (rxPut_of_room 0x1B hfill hroom), Memory.get_set_same _ _ _,
      fun k hk => Memory.get_set_other _ _ _ _ hk⟩,
    fun hfill hfull => exec_of_twoBytes hbytes (rxPut_of_full 0x1B hfill hfull),
    fun hheld => exec_of_twoBytes hbytes (rxPut_of_held _ 0x1B hheld), fun u hu => ⟨?room2, ?room1, ?full, ?held⟩⟩
  case room2 =>
    intro hfill hroom
    have hlt : s.rxlen.toNat < Config.rxmax := by omega
    have hlen := rxlen_add_one_toNat hlt
    rw [step_after_twoBytes hbytes (rxPut_of_room 0x1B hfill hlt) hu,
      rxPut_of_room x (by exact hfill) (by exact hlen.trans_lt hroom)]
    refine ⟨(s.rxbuf.set s.rxlen.toNat 0x1B).set (s.rxlen.toNat + 1) x, ?_, ?_, Memory.get_set_same _ _ _,
      fun k hk hk' => ?_⟩
    · have htwice : s.rxlen + 1 + 1 = s.rxlen + 2 := BitVec.add_assoc ..
      simp only [State.respond, hlen, htwice, List.append_assoc, List.cons_append, List.nil_append]
    · rw [Memory.get_set_other _ _ _ _ (by omega), Memory.get_set_same]
    · rw [Memory.get_set_other _ _ _ _ hk', Memory.get_set_other _ _ _ _ hk]
  case room1 =>
    intro hfill hroom
    have hlt : s.rxlen.toNat < Config.rxmax := by omega
    have hlen := rxlen_add_one_toNat hlt
    rw [step_after_twoBytes hbytes (rxPut_of_room 0x1B hfill hlt) hu,
      rxPut_of_full x (by exact hfill) (by exact hlen.trans hroom)]
    exact ⟨s.rxbuf.set s.rxlen.toNat 0x1B, by simp [State.respond], Memory.get_set_same _ _ _,
      fun k hk => Memory.get_set_other _ _ _ _ hk⟩
  case full =>
    intro hfill hfull
    rw [step_after_twoBytes hbytes (rxPut_of_full 0x1B hfill hfull) hu,
      rxPut_of_full x (by exact hfill) (by exact hfull)]
    simp [State.respond]
  case held =>
    intro hheld
    rw [step_after_twoBytes hbytes (rxPut_of_held _ 0x1B hheld) hu, rxPut_of_held _ x (by exact hheld)]
    simp [State.respond]

end Sys2Proof.Machine
end

section
/-! SUPPORT. The encodings (spec 30): decoding and encoding invert each other on command words (R100, R102) and on wire
symbols (R80, R86), and the symbols inside a raw input are what the escape codec reads and sends (R82, R84). -/

namespace Sys2Proof.Machine

/-! ### The fields of a command word, as numbers (30 R100) -/

theorem cmdWord_toNat (opc : Byte) (arg : Half) : (cmdWord opc arg).toNat = 65536 * opc.toNat + arg.toNat := by
  have happend : (opc ++ arg).toNat = opc.toNat <<< 16 ||| arg.toNat := BitVec.toNat_append opc arg
  rw [cmdWord, happend, ← Nat.shiftLeft_add_eq_or_of_lt arg.isLt, Nat.shiftLeft_eq]
  omega

theorem opcField_toNat (w : CmdWord) : (opcField w).toNat = w.toNat / 65536 := by
  rw [opcField, BitVec.extractLsb'_toNat, Nat.shiftRight_eq_div_pow]
  omega

theorem argField_toNat (w : CmdWord) : (argField w).toNat = w.toNat % 65536 := by
  rw [argField, BitVec.extractLsb'_toNat, Nat.shiftRight_eq_div_pow]
  omega

theorem hi_toNat (v : Half) : (hi v).toNat = v.toNat / 256 := by
  rw [hi, BitVec.extractLsb'_toNat, Nat.shiftRight_eq_div_pow]
  omega

theorem lo_toNat (v : Half) : (lo v).toNat = v.toNat % 256 := by
  rw [lo, BitVec.extractLsb'_toNat, Nat.shiftRight_eq_div_pow]
  omega

theorem argOfByte_toNat (b : Byte) : (argOfByte b).toNat = b.toNat := by
  rw [argOfByte, zext16, BitVec.toNat_setWidth]
  omega

@[simp] theorem opcField_cmdWord (opc : Byte) (arg : Half) : opcField (cmdWord opc arg) = opc :=
  BitVec.eq_of_toNat_eq <| by rw [opcField_toNat, cmdWord_toNat]; omega

@[simp] theorem argField_cmdWord (opc : Byte) (arg : Half) : argField (cmdWord opc arg) = arg :=
  BitVec.eq_of_toNat_eq <| by rw [argField_toNat, cmdWord_toNat]; omega

/-- A command word has no bits beside its two fields. -/
theorem cmdWord_fields (w : CmdWord) : cmdWord (opcField w) (argField w) = w :=
  BitVec.eq_of_toNat_eq <| by rw [cmdWord_toNat, opcField_toNat, argField_toNat]; omega

theorem cmdWord_inj {opc opc' : Byte} {arg arg' : Half} :
    cmdWord opc arg = cmdWord opc' arg' ↔ opc = opc' ∧ arg = arg' := by
  refine ⟨fun h => ⟨?_, ?_⟩, fun ⟨hopc, harg⟩ => by rw [hopc, harg]⟩
  · simpa using congrArg opcField h
  · simpa using congrArg argField h

/-- Bits 23:20 of the word are the upper nibble of `opc`. -/
theorem unitBits_cmdWord (opc : Byte) (arg : Half) : (cmdWord opc arg).extractLsb' 20 4 = opc.extractLsb' 4 4 :=
  BitVec.eq_of_toNat_eq <| by
    simp only [BitVec.extractLsb'_toNat, Nat.shiftRight_eq_div_pow, cmdWord_toNat]
    omega

@[simp] theorem hi_argOfByte (b : Byte) : hi (argOfByte b) = 0 :=
  BitVec.eq_of_toNat_eq <| by rw [hi_toNat, argOfByte_toNat]; exact Nat.div_eq_of_lt b.isLt

@[simp] theorem lo_argOfByte (b : Byte) : lo (argOfByte b) = b :=
  BitVec.eq_of_toNat_eq <| by rw [lo_toNat, argOfByte_toNat]; exact Nat.mod_eq_of_lt b.isLt

theorem hi_eq_zero_iff (arg : Half) : hi arg = 0 ↔ arg.toNat < 256 := by
  have hzero : (0 : Byte).toNat = 0 := rfl
  rw [← BitVec.toNat_inj, hi_toNat, hzero]
  omega

/-- An `arg` whose upper byte is 0 is its lower byte. -/
theorem argOfByte_lo {arg : Half} (h : hi arg = 0) : argOfByte (lo arg) = arg :=
  BitVec.eq_of_toNat_eq <| by
    rw [argOfByte_toNat, lo_toNat, Nat.mod_eq_of_lt ((hi_eq_zero_iff arg).1 h)]

/-! ### Command words: decoding and encoding invert each other (30 R100, R102) -/

theorem cmdWord_eq_of_fields {w : CmdWord} {opc : Byte} {arg : Half} (hopc : (opcField w).toNat = opc.toNat)
    (harg : argField w = arg) : cmdWord opc arg = w := by
  rw [← harg, ← BitVec.eq_of_toNat_eq hopc, cmdWord_fields]

/-- Which word spells the operation that a word decodes to: the word itself, by the three operand classes. -/
theorem encode_of_decodeCmd {w : CmdWord} {i : Instr} (h : decodeCmd w = .ok i) : encode i = .cmd w := by
  simp only [decodeCmd] at h
  split at h
  case h_1 hopc | h_3 hopc | h_6 hopc | h_8 hopc | h_11 hopc | h_12 hopc | h_13 hopc | h_15 hopc =>
    obtain ⟨harg, rfl⟩ := (operandNone_eq_ok _ _ _).1 h
    exact congrArg FetchWord.cmd (cmdWord_eq_of_fields hopc harg)
  case h_4 hopc | h_5 hopc | h_7 hopc | h_9 hopc | h_10 hopc | h_14 hopc =>
    obtain ⟨hhi, rfl⟩ := (operandByte_eq_ok _ _ _).1 h
    exact congrArg FetchWord.cmd (cmdWord_eq_of_fields hopc (argOfByte_lo hhi).symm)
  case h_2 hopc | h_16 hopc =>
    obtain rfl := (operandArg_eq_ok _ _ _).1 h
    exact congrArg FetchWord.cmd (cmdWord_eq_of_fields hopc rfl)
  case h_17 => cases h

theorem decodeCmd_of_encode {w : CmdWord} {i : Instr} (h : encode i = .cmd w) : decodeCmd w = .ok i := by
  cases i with
  | nop | crcClr | uneClr | uneEnd | txEnd | txClr | rxClr | rxEnd => cases h; simp [decodeCmd]
  | crcPut | escPut | unePut | txStart | txPut | rxPut => cases h; simp [decodeCmd]
  | get | rxLd => cases h; simp [decodeCmd]
  | startToDev | startFromDev | startNul | ack | stop | esc | escStop | escAck | escEsc | escToDev | escFromDev | lit =>
    cases h

theorem decode_encode_of_cmd {w : CmdWord} {i : Instr} (h : encode i = .cmd w) : decode (encode i) = .ok i := by
  rw [h]
  exact decodeCmd_of_encode h

/-- The unit of an operation stands in bits 23:20 of its word. -/
theorem unitBits_of_encode {w : CmdWord} {i : Instr} (h : encode i = .cmd w) :
    w.extractLsb' 20 4 = unitNibble (unitOf i) := by
  cases i with
  | nop | get | crcClr | crcPut | escPut | uneClr | unePut | uneEnd | txStart | txPut | txEnd | txClr | rxClr | rxPut
  | rxEnd | rxLd =>
    cases h
    rw [unitBits_cmdWord]
    rfl
  | startToDev | startFromDev | startNul | ack | stop | esc | escStop | escAck | escEsc | escToDev | escFromDev | lit =>
    cases h

/-! ### Escape pairs (30 R80, R82): the five canonical rows, and the general row -/

theorem xor_escmask_cancel (x : Byte) : x ^^^ Config.ESCMASK ^^^ Config.ESCMASK = x := by
  rw [BitVec.xor_assoc, BitVec.xor_self, BitVec.xor_zero]

/-- The canonical second bytes are the complements of the escape set. -/
theorem isCanonicalSecond_iff (x : Byte) : isCanonicalSecond x = true ↔ ∃ b ∈ Config.ESCSET, x = b ^^^ Config.ESCMASK := by
  rw [isCanonicalSecond, List.contains_iff_mem]
  refine ⟨fun h => ⟨_, h, (xor_escmask_cancel x).symm⟩, fun ⟨b, hb, hx⟩ => ?_⟩
  rwa [hx, xor_escmask_cancel]

/-- The rows of the five canonical pairs. -/
theorem pairSymbol_of_mem_escset : ∀ b ∈ Config.ESCSET,
    pairSymbol (b ^^^ Config.ESCMASK) ∈ [.escStop, .escAck, .escEsc, .escToDev, .escFromDev] ∧
    encode (pairSymbol (b ^^^ Config.ESCMASK)) = .wire .interior [Config.ESC, b ^^^ Config.ESCMASK] ∧
    payloadByte (pairSymbol (b ^^^ Config.ESCMASK)) = some b ∧
    (pairSymbol (b ^^^ Config.ESCMASK)).wellFormed = true := by
  decide

/-- Every pair that is not canonical has the general row. -/
theorem pairSymbol_of_not_canonical {x : Byte} (h : isCanonicalSecond x = false) : pairSymbol x = .esc x := by
  have hne : ∀ b ∈ Config.ESCSET, x ≠ b ^^^ Config.ESCMASK := fun b hb hx => by
    rw [(isCanonicalSecond_iff x).2 ⟨b, hb, hx⟩] at h; cases h
  simp only [List.forall_mem_cons] at hne
  obtain ⟨hstop, hack, hesc, htodev, hfromdev, -⟩ := hne
  rw [pairSymbol, if_neg hstop, if_neg hack, if_neg hesc, if_neg htodev, if_neg hfromdev]

/-- The pair `1B x` spells its symbol, which carries the complement of `x`. -/
theorem pairSymbol_spec (x : Byte) :
    encode (pairSymbol x) = .wire .interior [Config.ESC, x] ∧ payloadByte (pairSymbol x) = some (x ^^^ Config.ESCMASK) ∧
      (pairSymbol x).wellFormed = true := by
  cases hx : isCanonicalSecond x with
  | true =>
    obtain ⟨b, hb, rfl⟩ := (isCanonicalSecond_iff x).1 hx
    rw [xor_escmask_cancel]
    exact (pairSymbol_of_mem_escset b hb).2
  | false =>
    rw [pairSymbol_of_not_canonical hx]
    exact ⟨rfl, rfl, by rw [Instr.wellFormed, hx]; rfl⟩

/-! ### Wire symbols: decoding and encoding invert each other (30 R80, R86) -/

theorem encode_of_decodeFirst {b : Byte} {i : Instr} (h : decodeFirst b = .ok i) : encode i = .wire .first [b] := by
  unfold decodeFirst at h
  split_ifs at h with htodev hfromdev hnul hack
  all_goals
    cases h
    subst_vars
    rfl

/-- A symbol that is read to the end of the bytes is spelled by them. -/
theorem encode_of_readSymbol {bytes : List Byte} {i : Instr} (h : readSymbol bytes = some (i, [])) :
    encode i = .wire .interior bytes := by
  unfold readSymbol at h
  split at h
  case h_1 => cases h
  case h_2 b =>
    split_ifs at h
    cases h; rfl
  case h_3 b x rest =>
    split_ifs at h with hesc
    · cases h
      rw [hesc]
      exact (pairSymbol_spec x).1
    · cases h

theorem encode_of_decodeWire {p : WirePos} {bytes : List Byte} {i : Instr} (h : decodeWire p bytes = .ok i) :
    encode i = .wire p bytes := by
  unfold decodeWire at h
  split at h
  case h_1 => exact encode_of_decodeFirst h
  case h_2 b =>
    split_ifs at h with hstop
    cases h
    rw [hstop]; rfl
  case h_3 =>
    split at h
    case h_1 j hj =>
      cases h
      exact encode_of_readSymbol hj
    case h_2 => cases h
  case h_4 => cases h

/-- Whatever decodes is the encoding of the instruction it decodes to. -/
theorem encode_of_decode {f : FetchWord} {i : Instr} (h : decode f = .ok i) : encode i = f := by
  cases f with
  | cmd w => exact encode_of_decodeCmd h
  | wire p bytes => exact encode_of_decodeWire h

/-- Settles O44: an operation by the decoder of command words, whatever its operand; a wire symbol where it stands, the
general pair and the literal because the row's constraint excludes the bytes of the other rows. -/
theorem decodeOfEncodeIsIdentity : Obligations.DecodeOfEncodeIsIdentity := by
  intro i hwf
  cases i with
  | nop | get | crcClr | crcPut | escPut | uneClr | unePut | uneEnd | txStart | txPut | txEnd | txClr | rxClr | rxPut
  | rxEnd | rxLd => exact decode_encode_of_cmd rfl
  | startToDev | startFromDev | startNul | ack | stop => rfl
  | escStop | escAck | escEsc | escToDev | escFromDev => rfl
  | esc x =>
    have hx : isCanonicalSecond x = false := by simpa [Instr.wellFormed] using hwf
    exact congrArg Except.ok (pairSymbol_of_not_canonical hx)
  | lit b =>
    have hb : b ≠ Config.ESC := by simpa [Instr.wellFormed] using hwf
    simp [encode, decode, decodeWire, readSymbol, hb]

/-- Settles O45: the encoding of what a word decodes to is the word, and it carries the unit's nibble. -/
theorem encodeOfDecodeIsIdentity : Obligations.EncodeOfDecodeIsIdentity :=
  ⟨fun _ _ h => encode_of_decode h,
    fun _ _ h => ⟨isOperation_of_decodeCmd h, unitBits_of_encode (encode_of_decodeCmd h)⟩⟩

/-- Settles O46: eleven of the words are encodings, which decode to what they encode; the last two fail the condition of
30 R102 that the rejection names. -/
theorem writtenWordsDecode : Obligations.WrittenWordsDecode :=
  ⟨decodeOfEncodeIsIdentity .nop rfl, decodeOfEncodeIsIdentity (.get 10) rfl,
    decodeOfEncodeIsIdentity (.crcPut 0x31) rfl, decodeOfEncodeIsIdentity (.unePut 0xF9) rfl,
    decodeOfEncodeIsIdentity (.txStart 0x80) rfl, decodeOfEncodeIsIdentity (.txPut 0x2A) rfl,
    decodeOfEncodeIsIdentity (.rxLd 0xFFFF) rfl, decodeOfEncodeIsIdentity .startToDev rfl,
    decodeOfEncodeIsIdentity (.lit 0x80) rfl, decodeOfEncodeIsIdentity .escStop rfl,
    decodeOfEncodeIsIdentity (.esc 0x41) rfl, rfl, rfl⟩

/-! ### The symbols inside a raw input (30 R82, R84, R86) -/

/-- The payload bytes of the symbols that are read are what `unstuff` gives. -/
theorem payloadBytes_readInterior (w : List Byte) :
    (readInterior w).map (fun l => l.filterMap payloadByte) = unstuff w := by
  fun_induction unstuff w with
  | case1 => rfl
  | case2 => rfl
  | case3 b hb => simp [readInterior, hb, payloadByte]
  | case4 x w ih =>
    obtain ⟨-, hpay, -⟩ := pairSymbol_spec x
    rw [← ih]
    simp [readInterior, hpay, Function.comp_def]
  | case5 b x w hb ih =>
    rw [← ih]
    simp [readInterior, hb, payloadByte, Function.comp_def]

/-- A symbol that stands inside a raw input carries a payload byte and is an instruction of its row. -/
def IsPayloadSymbol (i : Instr) : Prop := (payloadByte i).isSome = true ∧ i.wellFormed = true

theorem isPayloadSymbol_pairSymbol (x : Byte) : IsPayloadSymbol (pairSymbol x) := by
  obtain ⟨-, hpay, hwf⟩ := pairSymbol_spec x
  exact ⟨by rw [hpay]; rfl, hwf⟩

theorem isPayloadSymbol_lit {b : Byte} (hb : b ≠ Config.ESC) : IsPayloadSymbol (.lit b) :=
  ⟨rfl, by simpa [Instr.wellFormed] using hb⟩

/-- The symbols that are read cover the bytes and are payload symbols. -/
theorem wireBytes_readInterior {w : List Byte} {l : List Instr} (h : readInterior w = some l) :
    l.flatMap wireBytes = w ∧ ∀ i ∈ l, IsPayloadSymbol i := by
  fun_induction readInterior w generalizing l with
  | case1 => cases h; simp
  | case2 => cases h
  | case3 b hb => cases h; simp [wireBytes, isPayloadSymbol_lit hb]
  | case4 x w ih =>
    obtain ⟨l', hl', rfl⟩ := Option.map_eq_some_iff.1 h
    obtain ⟨hbytes, hall⟩ := ih hl'
    exact ⟨by simp [hbytes], List.forall_mem_cons.2 ⟨isPayloadSymbol_pairSymbol x, hall⟩⟩
  | case5 b x w hb ih =>
    obtain ⟨l', hl', rfl⟩ := Option.map_eq_some_iff.1 h
    obtain ⟨hbytes, hall⟩ := ih hl'
    exact ⟨by simp [hbytes, wireBytes], List.forall_mem_cons.2 ⟨isPayloadSymbol_lit hb, hall⟩⟩

/-- Settles O21, by the recursion that the symbol reader and `unstuff` share. -/
theorem symbolReadingAgreesWithUnstuff : Obligations.SymbolReadingAgreesWithUnstuff :=
  fun w => ⟨payloadBytes_readInterior w, fun _ h => wireBytes_readInterior h⟩

/-- The composer's symbol for a byte has the byte's wire form. -/
theorem wireBytes_canonicalSymbol (b : Byte) : wireBytes (canonicalSymbol b) = esc b := by
  unfold canonicalSymbol esc
  split
  · exact wireBytes_pairSymbol _
  · rfl

theorem stuff_eq_flatMap (s : List Byte) : stuff s = s.flatMap esc := by
  induction s with
  | nil => rfl
  | cons b s ih => rw [stuff, ih, List.flatMap_cons]

theorem payloadByte_canonicalSymbol (b : Byte) : payloadByte (canonicalSymbol b) = some b := by
  unfold canonicalSymbol
  split
  · obtain ⟨-, hpay, -⟩ := pairSymbol_spec (b ^^^ Config.ESCMASK)
    rw [hpay, xor_escmask_cancel]
  · rfl

/-- Settles O22: `stuff` sends each byte's wire form, which is that of its canonical symbol. -/
theorem composerSendsCanonicalSymbols : Obligations.ComposerSendsCanonicalSymbols := by
  refine ⟨fun s => ?_, fun b => ⟨payloadByte_canonicalSymbol b, fun hb => ?_, fun hb => ?_⟩⟩
  · simp only [stuff_eq_flatMap, wireBytes_canonicalSymbol]
  · simp [canonicalSymbol, hb]
  · obtain ⟨hrow, -⟩ := pairSymbol_of_mem_escset b (List.contains_iff_mem.1 hb)
    rwa [canonicalSymbol, if_pos hb]

end Sys2Proof.Machine
end

section
/-! SUPPORT. What a command word is answered (spec 30 R102, R104, R105): what each operation's response can be, and which
words are illegal. -/

namespace Sys2Proof.Machine

/-! ### The response of an operation (30 R104, R105) -/

/-- The value of an OK answer: only `GET`, `RX.END` and `RX.LD` answer one (30 R104). -/
def OkValue (i : Instr) (s t : State) (v : Half) : Prop :=
  match i with
  | .get n => statusRegister s n.toNat = some v
  | .rxEnd => v = 0#13 ++ rxStatCode t.rxstat
  | .rxLd k => ∃ b, s.rxdata.get k.toNat = some b ∧ v = zext16 b
  | _ => v = 0

/-- The number of output bytes of an OK answer (30 R105). -/
def OkOutLength (i : Instr) (n : Nat) : Prop :=
  match i with
  | .escPut _ | .txPut _ => n = 1 ∨ n = 2
  | .unePut _ => n ≤ 1
  | .txStart _ => n = 1
  | .txEnd => 3 ≤ n ∧ n ≤ 5
  | _ => n = 0

/-- What `i` may respond on its way from `s` to `t`: OK with the value and the output bytes that belong to it, or a bare
refusal code, `ILLEGAL` only for an operand that the row excludes. -/
inductive IsReply (i : Instr) (s t : State) : Response → Prop
  | ok {v : Half} {out : List Byte} (hv : OkValue i s t v) (hout : OkOutLength i out.length) : IsReply i s t ⟨.ok, v, out⟩
  | refusal {c : Rc} (hc : c ≠ .ok) (hwf : c = .illegal → i.wellFormed = false) : IsReply i s t ⟨c, 0, []⟩

/-- The next state, if `o` is one, has exactly one more response than `s`, and that is a reply to `i`. -/
def Replies (i : Instr) (s : State) (o : Result) : Prop :=
  ∀ t, o = .next t → ∃ r, t.responses = s.responses ++ [r] ∧ IsReply i s t r

section
variable {i : Instr} {s u : State}

theorem replies_answer {v : Half} {out : List Byte} (hr : u.responses = s.responses)
    (hv : OkValue i s (u.respond ⟨.ok, v, out⟩) v) (hout : OkOutLength i out.length) :
    Replies i s (answer v out u) := by
  rintro t ⟨⟩
  exact ⟨_, by rw [State.respond_responses, hr], .ok hv hout⟩

theorem replies_raise {c : Rc} (hr : u.responses = s.responses) (hc : c ≠ .ok)
    (hwf : c = .illegal → i.wellFormed = false) : Replies i s (raise c u) := by
  rintro t ⟨⟩
  exact ⟨_, by rw [State.respond_responses, hr], .refusal hc hwf⟩

/-- An escaped byte is one or two wire bytes. -/
theorem length_esc (b : Byte) : (esc b).length = 1 ∨ (esc b).length = 2 := by
  unfold esc
  split
  · exact .inr rfl
  · exact .inl rfl

/-- Status registers 0 to 10 have a value in every state. -/
theorem exists_statusRegister (s : State) {n : Nat} (h : n ≤ 10) : ∃ v, statusRegister s n = some v := by
  interval_cases n <;> exact ⟨_, rfl⟩

theorem execGet_replies (n : Half) (s : State) : Replies (.get n) s (execGet n s) := by
  unfold execGet
  split
  · exact replies_answer rfl ‹_› rfl
  · rename_i hnone
    refine replies_raise rfl nofun fun _ => decide_eq_false fun hn => ?_
    obtain ⟨v, hv⟩ := exists_statusRegister s hn
    rw [hv] at hnone
    cases hnone

theorem execUnePut_replies (b : Byte) (s : State) : Replies (.unePut b) s (execUnePut b s) := by
  unfold execUnePut
  split
  · exact replies_answer rfl rfl (Nat.le_refl 1)
  · split
    · exact replies_answer rfl rfl (Nat.zero_le 1)
    · exact replies_answer rfl rfl (Nat.le_refl 1)

theorem execUneEnd_replies (s : State) : Replies .uneEnd s (execUneEnd s) := by
  unfold execUneEnd
  split
  · exact replies_raise rfl nofun nofun
  · exact replies_answer rfl rfl rfl

theorem execTxStart_replies (b : Byte) (s : State) : Replies (.txStart b) s (execTxStart b s) := by
  unfold execTxStart
  split
  · exact replies_raise rfl nofun fun _ => ‹_›
  · split
    · exact replies_raise rfl nofun nofun
    · dsimp only
      split <;> exact replies_answer rfl rfl rfl

theorem execTxPut_replies (b : Byte) (s : State) : Replies (.txPut b) s (execTxPut b s) := by
  unfold execTxPut
  split
  · exact replies_raise rfl nofun nofun
  · exact replies_answer rfl rfl (length_esc b)

theorem execTxEnd_replies (s : State) : Replies .txEnd s (execTxEnd s) := by
  unfold execTxEnd
  split
  · exact replies_raise rfl nofun nofun
  · refine replies_answer rfl rfl ?_
    generalize crcRun s.txcrc Config.placeholders = cs
    have hhi := length_esc (hi cs)
    have hlo := length_esc (lo cs)
    simp only [OkOutLength, List.length_append, List.length_singleton]
    omega

theorem rxPut_replies (b : Byte) (s : State) : Replies (.rxPut b) s (rxPut Config.rxmax b s) := by
  intro t h
  obtain ⟨-, rfl⟩ | ⟨-, -, rfl⟩ | ⟨-, -, rfl⟩ := rxPut_cases _ b s t h
  · exact ⟨_, rfl, .refusal nofun nofun⟩
  · exact ⟨_, rfl, .refusal nofun nofun⟩
  · exact ⟨_, rfl, .ok rfl rfl⟩

/-- The number of the result code that is kept is the value that is answered. -/
theorem rxFinish_replies (st : RxStat) (hr : u.responses = s.responses) : Replies .rxEnd s (rxFinish st u) :=
  replies_answer hr rfl rfl

theorem rxKeep_replies (rxmax : Nat) (d : Decoded) (hr : u.responses = s.responses) :
    Replies .rxEnd s (rxKeep rxmax d u) := by
  cases d with
  | frame ty a c data =>
    simp only [rxKeep]
    split
    · rintro t ⟨⟩
    · exact rxFinish_replies _ hr
  | empty | short | type | csum | ackd => exact rxFinish_replies _ hr

theorem rxEnd_replies (rxmax : Nat) (s : State) : Replies .rxEnd s (rxEnd rxmax s) := by
  unfold rxEnd
  split
  · exact replies_raise rfl nofun nofun
  · split
    · rintro t ⟨⟩
    · dsimp only
      split
      · exact rxFinish_replies _ rfl
      · exact rxKeep_replies _ _ rfl

theorem rxLoad_replies (k : Half) (s : State) : Replies (.rxLd k) s (rxLoad k s) := by
  intro t h
  obtain ⟨-, rfl⟩ | ⟨-, -, rfl⟩ | ⟨-, -, v, hv, rfl⟩ := rxLoad_cases k s t h
  · exact ⟨_, rfl, .refusal nofun nofun⟩
  · exact ⟨_, rfl, .refusal nofun nofun⟩
  · exact ⟨_, rfl, .ok ⟨v, hv, rfl⟩ rfl⟩

theorem exec_replies (hi : isOperation i = true) (s : State) : Replies i s (exec i s) := by
  cases i with
  | nop | crcClr | crcPut | uneClr | txClr | rxClr => exact replies_answer rfl rfl rfl
  | escPut b => exact replies_answer rfl rfl (length_esc b)
  | get n => exact execGet_replies n s
  | unePut b => exact execUnePut_replies b s
  | uneEnd => exact execUneEnd_replies s
  | txStart b => exact execTxStart_replies b s
  | txPut b => exact execTxPut_replies b s
  | txEnd => exact execTxEnd_replies s
  | rxPut b => exact rxPut_replies b s
  | rxEnd => exact rxEnd_replies _ s
  | rxLd k => exact rxLoad_replies k s
  | startToDev | startFromDev | startNul | ack | stop | esc | escStop | escAck | escEsc | escToDev | escFromDev | lit =>
    cases hi

/-- The response that an operation adds is a reply to it. -/
theorem isReply_of_exec {t : State} {r : Response} (hi : isOperation i = true) (h : exec i s = .next t)
    (hr : t.responses = s.responses ++ [r]) : IsReply i s t r := by
  obtain ⟨r', hr', hreply⟩ := exec_replies hi s t h
  obtain rfl : r = r' := by simpa using hr.symm.trans hr'
  exact hreply

/-- An operand that its row excludes is refused as `ILLEGAL` by the operation itself (42 R163, 44 R221). -/
theorem exec_of_not_wellFormed (hi : isOperation i = true) (hwf : i.wellFormed = false) (s : State) :
    exec i s = raise .illegal s := by
  cases i with
  | get n =>
    have hn : 10 < n.toNat := by simpa [Instr.wellFormed, isStatusNumber] using hwf
    simp only [exec, execGet, statusRegister_eq_none s hn]
  | txStart b => exact if_pos hwf
  | nop | crcClr | crcPut | escPut | uneClr | unePut | uneEnd | txPut | txEnd | txClr | rxClr | rxPut | rxEnd | rxLd =>
    cases hwf
  | startToDev | startFromDev | startNul | ack | stop | esc | escStop | escAck | escEsc | escToDev | escFromDev | lit =>
    cases hi

end

/-! ### A step on an offered command word -/

theorem step_offer_ok {w : CmdWord} {i : Instr} (s : State) (hd : decodeCmd w = .ok i) :
    step (s.offer (.cmd w)) = exec i s :=
  step_word_ok (rest := s.pending) rfl hd

theorem step_offer_error {w : CmdWord} {e : DecodeReject} (s : State) (hd : decodeCmd w = .error e) :
    step (s.offer (.cmd w)) = .next (s.respond ⟨.illegal, 0, []⟩) :=
  step_word_error (rest := s.pending) rfl hd

/-! ### The illegal words (30 R102) -/

/-- The five conditions of 30 R102 on the fields of a command word. -/
def IllegalWord (opc : Byte) (arg : Half) : Prop :=
  opc ∉ [0x00, 0x01, 0x10, 0x11, 0x20, 0x21, 0x22, 0x23, 0x30, 0x31, 0x32, 0x33, 0x40, 0x41, 0x42, 0x43] ∨
  (opc ∈ [0x00, 0x10, 0x21, 0x23, 0x32, 0x33, 0x40, 0x42] ∧ arg ≠ 0) ∨
  (opc ∈ [0x11, 0x20, 0x22, 0x30, 0x31, 0x41] ∧ 256 ≤ arg.toNat) ∨
  (opc = 0x01 ∧ 10 < arg.toNat) ∨
  (opc = 0x30 ∧ arg ∉ [0x80, 0x40, 0x06])

theorem operandNone_eq_error {arg : Half} {i : Instr} {e : DecodeReject} (h : operandNone arg i = .error e) :
    arg ≠ 0 := by
  unfold operandNone at h
  split at h
  · cases h
  · assumption

theorem operandByte_eq_error {arg : Half} {f : Byte → Instr} {e : DecodeReject} (h : operandByte arg f = .error e) :
    256 ≤ arg.toNat := by
  unfold operandByte at h
  split at h
  · cases h
  · rename_i hhi
    exact Nat.not_lt.1 fun hlt => hhi ((hi_eq_zero_iff arg).2 hlt)

/-- Each reason of the decoder to reject a command word is one of the first three conditions. -/
theorem illegalWord_of_error {opc : Byte} {arg : Half} {e : DecodeReject}
    (h : decodeCmd (cmdWord opc arg) = .error e) : IllegalWord opc arg := by
  simp only [decodeCmd, opcField_cmdWord, argField_cmdWord] at h
  split at h
  case h_1 hopc | h_3 hopc | h_6 hopc | h_8 hopc | h_11 hopc | h_12 hopc | h_13 hopc | h_15 hopc =>
    exact .inr (.inl ⟨by simp [← BitVec.toNat_inj, hopc], operandNone_eq_error h⟩)
  case h_4 hopc | h_5 hopc | h_7 hopc | h_9 hopc | h_10 hopc | h_14 hopc =>
    exact .inr (.inr (.inl ⟨by simp [← BitVec.toNat_inj, hopc], operandByte_eq_error h⟩))
  case h_2 | h_16 => cases h
  case h_17 =>
    refine .inl ?_
    simp only [List.mem_cons, List.not_mem_nil, or_false, not_or, ← BitVec.toNat_inj]
    and_intros <;> assumption

theorem argOfByte_inj {b c : Byte} : argOfByte b = argOfByte c ↔ b = c :=
  ⟨fun h => by simpa using congrArg lo h, congrArg argOfByte⟩

/-- The composer accepts a type operand exactly when the word's `arg` is one of its three type bytes. -/
theorem isStartType_eq_false_iff (b : Byte) : isStartType b = false ↔ argOfByte b ∉ [0x80, 0x40, 0x06] := by
  have hargs : ([0x80, 0x40, 0x06] : List Half) =
      [argOfByte Config.TODEV, argOfByte Config.FROMDEV, argOfByte Config.ACK] := rfl
  rw [hargs]
  simp only [isStartType, List.mem_cons, List.not_mem_nil, or_false, argOfByte_inj, not_or, Bool.or_eq_false_iff,
    beq_eq_false_iff_ne, ne_eq, and_assoc]

/-- A word that decodes is illegal exactly when its row excludes the operand: the other conditions fail by its form. -/
theorem illegalWord_iff_of_ok {opc : Byte} {arg : Half} {i : Instr} (h : decodeCmd (cmdWord opc arg) = .ok i) :
    IllegalWord opc arg ↔ i.wellFormed = false := by
  have henc := encode_of_decodeCmd h
  cases i with
  | nop | crcClr | uneClr | uneEnd | txEnd | txClr | rxClr | rxEnd =>
    obtain ⟨rfl, rfl⟩ := cmdWord_inj.1 (FetchWord.cmd.inj henc)
    simp [IllegalWord, Instr.wellFormed]
  | crcPut b | escPut b | unePut b | txPut b | rxPut b =>
    obtain ⟨rfl, rfl⟩ := cmdWord_inj.1 (FetchWord.cmd.inj henc)
    simp [IllegalWord, Instr.wellFormed, argOfByte_toNat, b.isLt]
  | txStart b =>
    obtain ⟨rfl, rfl⟩ := cmdWord_inj.1 (FetchWord.cmd.inj henc)
    rw [Instr.wellFormed, isStartType_eq_false_iff]
    simp [IllegalWord, argOfByte_toNat, b.isLt]
  | get n =>
    obtain ⟨rfl, rfl⟩ := cmdWord_inj.1 (FetchWord.cmd.inj henc)
    simp [IllegalWord, Instr.wellFormed, isStatusNumber]
  | rxLd k =>
    obtain ⟨rfl, rfl⟩ := cmdWord_inj.1 (FetchWord.cmd.inj henc)
    simp [IllegalWord, Instr.wellFormed]
  | startToDev | startFromDev | startNul | ack | stop | esc | escStop | escAck | escEsc | escToDev | escFromDev | lit =>
    cases henc

theorem step_of_illegalWord {opc : Byte} {arg : Half} (s : State) (h : IllegalWord opc arg) :
    step (s.offer (.cmd (cmdWord opc arg))) = .next (s.respond ⟨.illegal, 0, []⟩) := by
  cases hd : decodeCmd (cmdWord opc arg) with
  | error e => exact step_offer_error s hd
  | ok i =>
    rw [step_offer_ok s hd, exec_of_not_wellFormed (isOperation_of_decodeCmd hd) ((illegalWord_iff_of_ok hd).1 h),
      raise_eq]

/-- A word that is not illegal decodes to an operation with an operand of its row. -/
theorem decodeCmd_of_not_illegalWord {opc : Byte} {arg : Half} (h : ¬ IllegalWord opc arg) :
    ∃ i, decodeCmd (cmdWord opc arg) = .ok i ∧ i.wellFormed = true := by
  cases hd : decodeCmd (cmdWord opc arg) with
  | error e => exact absurd (illegalWord_of_error hd) h
  | ok i => exact ⟨i, rfl, Bool.eq_true_of_not_eq_false fun hwf => h ((illegalWord_iff_of_ok hd).2 hwf)⟩

/-- Settles O39: the conditions of R102 are the decoder's rejections together with the operands that a row excludes, and
an operation answers `ILLEGAL` to no other operand. -/
theorem illegalCommandWordsChangeNothing : Obligations.IllegalCommandWordsChangeNothing := by
  intro s opc arg illegal
  refine ⟨fun h => step_of_illegalWord s h, fun h t r ht hr hrc => ?_⟩
  obtain ⟨i, hd, hwf⟩ := decodeCmd_of_not_illegalWord h
  rw [step_offer_ok s hd] at ht
  cases isReply_of_exec (isOperation_of_decodeCmd hd) ht hr with
  | ok => cases hrc
  | refusal _ hill =>
    rw [hill hrc] at hwf
    cases hwf

/-! ### The responses to all words (30 R104, R105) -/

theorem rcCode_le (c : Rc) : (rcCode c).toNat ≤ 5 := by
  cases c <;> decide

theorem OkOutLength.le_five {i : Instr} {n : Nat} (h : OkOutLength i n) : n ≤ 5 := by
  cases i <;> simp only [OkOutLength] at h <;> omega

/-- What 30 R104 says of the response `r` to a command word, in terms of its fields. -/
def IsWordReply (opc : Byte) (arg : Half) (s t : State) (r : Response) : Prop :=
  r.legal ∧ (rcCode r.rc).toNat ≤ 5 ∧
  (opc ∉ [0x01, 0x42, 0x43] → r.val = 0) ∧ (opc ∉ [0x20, 0x22, 0x30, 0x31, 0x32] → r.out = []) ∧
  (opc = 0x01 → r.rc = .ok → statusRegister s arg.toNat = some r.val) ∧
  (opc = 0x43 → r.rc = .ok → ∃ v, s.rxdata.get arg.toNat = some v ∧ r.val = BitVec.ofNat 16 v.toNat) ∧
  (opc = 0x42 → r.rc = .ok → r.val = BitVec.ofNat 16 (rxStatCode t.rxstat).toNat)

theorem isWordReply_refusal {c : Rc} (hc : c ≠ .ok) (opc : Byte) (arg : Half) (s t : State) :
    IsWordReply opc arg s t ⟨c, 0, []⟩ :=
  ⟨⟨Nat.zero_le _, fun _ => ⟨rfl, rfl⟩⟩, rcCode_le c, fun _ => rfl, fun _ => rfl, fun _ h => absurd h hc,
    fun _ h => absurd h hc, fun _ h => absurd h hc⟩

theorem zeros_append_rxStatCode (st : RxStat) : 0#13 ++ rxStatCode st = BitVec.ofNat 16 (rxStatCode st).toNat := by
  cases st <;> rfl

theorem zext16_eq_ofNat (b : Byte) : zext16 b = BitVec.ofNat 16 b.toNat :=
  (BitVec.ofNat_toNat 16 b).symm

/-- The OK answer of the operation that a word spells, in terms of the word's fields. -/
theorem isWordReply_ok {opc : Byte} {arg : Half} {i : Instr} {s t : State} {v : Half} {out : List Byte}
    (henc : encode i = .cmd (cmdWord opc arg)) (hv : OkValue i s t v) (hout : OkOutLength i out.length) :
    IsWordReply opc arg s t ⟨.ok, v, out⟩ := by
  refine ⟨⟨hout.le_five, fun h => absurd rfl h⟩, rcCode_le _, ?_⟩
  cases i with
  | nop | crcClr | crcPut | uneClr | uneEnd | txClr | rxClr | rxPut =>
    obtain ⟨rfl, rfl⟩ := cmdWord_inj.1 (FetchWord.cmd.inj henc)
    exact ⟨fun _ => hv, fun _ => List.length_eq_zero_iff.1 hout, by simp⟩
  | escPut | unePut | txStart | txPut | txEnd =>
    obtain ⟨rfl, rfl⟩ := cmdWord_inj.1 (FetchWord.cmd.inj henc)
    exact ⟨fun _ => hv, by simp⟩
  | get n =>
    obtain ⟨rfl, rfl⟩ := cmdWord_inj.1 (FetchWord.cmd.inj henc)
    exact ⟨by simp, fun _ => List.length_eq_zero_iff.1 hout, fun _ _ => hv, by simp⟩
  | rxLd k =>
    obtain ⟨rfl, rfl⟩ := cmdWord_inj.1 (FetchWord.cmd.inj henc)
    obtain ⟨b, hb, rfl⟩ := hv
    exact ⟨by simp, fun _ => List.length_eq_zero_iff.1 hout, by simp, fun _ _ => ⟨b, hb, zext16_eq_ofNat b⟩, by simp⟩
  | rxEnd =>
    obtain ⟨rfl, rfl⟩ := cmdWord_inj.1 (FetchWord.cmd.inj henc)
    exact ⟨by simp, fun _ => List.length_eq_zero_iff.1 hout, by simp, by simp,
      fun _ _ => hv.trans (zeros_append_rxStatCode _)⟩
  | startToDev | startFromDev | startNul | ack | stop | esc | escStop | escAck | escEsc | escToDev | escFromDev | lit =>
    cases henc

/-- Settles O40: a word that decodes answers what its operation replies, every other word the refusal `ILLEGAL`. -/
theorem everyCommandWordGetsOneLegalResponse : Obligations.EveryCommandWordGetsOneLegalResponse := by
  intro s opc arg hs
  cases hd : decodeCmd (cmdWord opc arg) with
  | error e => exact ⟨_, _, step_offer_error s hd, rfl, isWordReply_refusal (c := .illegal) nofun opc arg s _⟩
  | ok i =>
    have hop := isOperation_of_decodeCmd hd
    obtain ⟨t, ht⟩ := exec_next_of_inv hop hs
    obtain ⟨r, hr, hreply⟩ := exec_replies hop s t ht
    refine ⟨t, r, (step_offer_ok s hd).trans ht, hr, ?_⟩
    cases hreply with
    | ok hv hout => exact isWordReply_ok (encode_of_decodeCmd hd) hv hout
    | refusal hc => exact isWordReply_refusal hc opc arg s t

/-- Settles O41: the lengths are those that a reply to the operation may have. -/
theorem outputByteCountsByOperation : Obligations.OutputByteCountsByOperation := by
  intro i s t r hi h hr hok
  cases isReply_of_exec hi h hr with
  | refusal hc => exact absurd hok hc
  | ok _ hout =>
    refine ⟨?_, ?_, ?_, ?_, fun hbyte hend => ?_⟩
    · rintro b (rfl | rfl) <;> exact hout
    · rintro b rfl; exact hout
    · rintro b rfl; exact hout
    · rintro rfl; exact hout
    · cases i with
      | escPut b | txPut b | unePut b | txStart b => simpa using hbyte b
      | txEnd => exact absurd rfl hend
      | nop | get | crcClr | crcPut | uneClr | uneEnd | txClr | rxClr | rxPut | rxEnd | rxLd =>
        exact List.length_eq_zero_iff.1 hout
      | startToDev | startFromDev | startNul | ack | stop | esc | escStop | escAck | escEsc | escToDev | escFromDev
      | lit => cases hi

end Sys2Proof.Machine
end

section
/-! SUPPORT. Runs of operations and what they leave of the other units (spec 70 R277), for the headline statements about
interleaved runs; and the words of the two operand classes (30 R102). -/

namespace Sys2Proof.Machine

/-! ### The words of an operation without operand and with a byte operand (30 R102) -/

theorem noOperandWord_of_decodeCmd {opc : Byte} {i : Instr}
    (hd : ∀ arg, decodeCmd (cmdWord opc arg) = operandNone arg i) (s : State) : NoOperandWord opc s (exec i s) := by
  intro arg
  by_cases harg : arg = 0
  · rw [if_pos harg, step_offer_ok s ((hd arg).trans (if_pos harg))]
  · rw [if_neg harg, step_offer_error s ((hd arg).trans (if_neg harg))]
    rfl

theorem lo_eq_ofNat (v : Half) : lo v = BitVec.ofNat 8 v.toNat :=
  BitVec.eq_of_toNat_eq <| by rw [lo_toNat, BitVec.toNat_ofNat]

theorem byteOperandWord_of_decodeCmd {opc : Byte} {f : Byte → Instr}
    (hd : ∀ arg, decodeCmd (cmdWord opc arg) = operandByte arg f) (s : State) :
    ByteOperandWord opc s (fun b => exec (f b) s) := by
  intro arg
  by_cases harg : hi arg = 0
  · rw [if_pos ((hi_eq_zero_iff arg).1 harg), step_offer_ok s ((hd arg).trans (if_pos harg)), lo_eq_ofNat]
  · rw [if_neg (mt (hi_eq_zero_iff arg).2 harg), step_offer_error s ((hd arg).trans (if_neg harg))]
    rfl

/-! ### An operation writes its own unit only (70 R277) -/

/-- The next state, if `o` answers one, agrees with `s` on every unit of the block but `u`. -/
def KeepsOtherUnits (u : BlockUnit) (s : State) (o : Result) : Prop :=
  ∀ t, o = .next t → ∀ v, v ≠ .sys → v ≠ u → agreeOn v s t

section
variable {u v : BlockUnit} {s : State}

theorem agreeOn_refl (v : BlockUnit) (s : State) : agreeOn v s s := by
  cases v <;> simp [agreeOn]

theorem agreeOn_respond {t : State} (h : agreeOn v s t) (r : Response) : agreeOn v s (t.respond r) := by
  cases v <;> exact h

theorem agreeOn_with_crc (hsys : v ≠ .sys) (hv : v ≠ .ce) (c : Half) : agreeOn v s { s with crc := c } := by
  cases v <;> simp [agreeOn] at *

theorem agreeOn_with_unepend (hsys : v ≠ .sys) (hv : v ≠ .ec) (f : Bool) : agreeOn v s { s with unepend := f } := by
  cases v <;> simp [agreeOn] at *

theorem agreeOn_with_tx (hsys : v ≠ .sys) (hv : v ≠ .tx) (ph : TxPhase) (cnt : BitVec 2) (crc : Half) :
    agreeOn v s { s with txph := ph, txcnt := cnt, txcrc := crc } := by
  cases v <;> simp [agreeOn] at *

/-- A state that differs from `s` in entries of the decomposer only, and in the queues. -/
theorem agreeOn_of_rx {t : State} (hsys : v ≠ .sys) (hv : v ≠ .rx)
    (ht : s.crc = t.crc ∧ s.unepend = t.unepend ∧ s.txph = t.txph ∧ s.txcnt = t.txcnt ∧ s.txcrc = t.txcrc) :
    agreeOn v s t := by
  cases v <;> simp_all [agreeOn]

theorem keepsOtherUnits_answer {t : State} (val : Half) (out : List Byte)
    (ht : ∀ v, v ≠ .sys → v ≠ u → agreeOn v s t) : KeepsOtherUnits u s (answer val out t) := by
  rintro _ ⟨⟩ v hsys hv
  exact agreeOn_respond (ht v hsys hv) _

theorem keepsOtherUnits_raise {t : State} (c : Rc)
    (ht : ∀ v, v ≠ .sys → v ≠ u → agreeOn v s t) : KeepsOtherUnits u s (raise c t) := by
  rintro _ ⟨⟩ v hsys hv
  exact agreeOn_respond (ht v hsys hv) _

theorem execGet_keepsOtherUnits (n : Half) (s : State) : KeepsOtherUnits .sys s (execGet n s) := by
  unfold execGet
  split
  · exact keepsOtherUnits_answer _ _ fun v _ _ => agreeOn_refl v s
  · exact keepsOtherUnits_raise _ fun v _ _ => agreeOn_refl v s

theorem execUnePut_keepsOtherUnits (b : Byte) (s : State) : KeepsOtherUnits .ec s (execUnePut b s) := by
  unfold execUnePut
  split
  · exact keepsOtherUnits_answer _ _ fun v hsys hv => agreeOn_with_unepend hsys hv _
  · split
    · exact keepsOtherUnits_answer _ _ fun v hsys hv => agreeOn_with_unepend hsys hv _
    · exact keepsOtherUnits_answer _ _ fun v _ _ => agreeOn_refl v s

theorem execUneEnd_keepsOtherUnits (s : State) : KeepsOtherUnits .ec s (execUneEnd s) := by
  unfold execUneEnd
  split
  · exact keepsOtherUnits_raise _ fun v hsys hv => agreeOn_with_unepend hsys hv _
  · exact keepsOtherUnits_answer _ _ fun v _ _ => agreeOn_refl v s

theorem execTxStart_keepsOtherUnits (b : Byte) (s : State) : KeepsOtherUnits .tx s (execTxStart b s) := by
  unfold execTxStart
  split
  · exact keepsOtherUnits_raise _ fun v _ _ => agreeOn_refl v s
  · split
    · exact keepsOtherUnits_raise _ fun v _ _ => agreeOn_refl v s
    · dsimp only
      split <;> exact keepsOtherUnits_answer _ _ fun v hsys hv => agreeOn_with_tx hsys hv _ _ _

theorem execTxPut_keepsOtherUnits (b : Byte) (s : State) : KeepsOtherUnits .tx s (execTxPut b s) := by
  unfold execTxPut
  split
  · exact keepsOtherUnits_raise _ fun v _ _ => agreeOn_refl v s
  · exact keepsOtherUnits_answer _ _ fun v hsys hv => agreeOn_with_tx hsys hv _ _ _

theorem execTxEnd_keepsOtherUnits (s : State) : KeepsOtherUnits .tx s (execTxEnd s) := by
  unfold execTxEnd
  split
  · exact keepsOtherUnits_raise _ fun v _ _ => agreeOn_refl v s
  · exact keepsOtherUnits_answer _ _ fun v hsys hv => agreeOn_with_tx hsys hv _ _ _

theorem rxPut_keepsOtherUnits (rxmax : Nat) (b : Byte) (s : State) : KeepsOtherUnits .rx s (rxPut rxmax b s) := by
  intro t h v hsys hv
  obtain ⟨-, rfl⟩ | ⟨-, -, rfl⟩ | ⟨-, -, rfl⟩ := rxPut_cases rxmax b s t h
  all_goals exact agreeOn_of_rx hsys hv ⟨rfl, rfl, rfl, rfl, rfl⟩

theorem rxKeep_keepsOtherUnits (rxmax : Nat) (d : Decoded) (s : State) : KeepsOtherUnits .rx s (rxKeep rxmax d s) := by
  intro t h v hsys hv
  obtain ⟨_, _, _, _, _, -, -, rfl⟩ | ⟨-, rfl⟩ | ⟨-, rfl⟩ | ⟨-, rfl⟩ | ⟨-, rfl⟩ | ⟨-, rfl⟩ := rxKeep_cases rxmax d s t h
  all_goals exact agreeOn_of_rx hsys hv ⟨rfl, rfl, rfl, rfl, rfl⟩

theorem rxEnd_keepsOtherUnits (rxmax : Nat) (s : State) : KeepsOtherUnits .rx s (rxEnd rxmax s) := by
  intro t h v hsys hv
  obtain ⟨-, rfl⟩ | ⟨-, raw, -, ⟨-, rfl⟩ | ⟨-, hkeep⟩⟩ := rxEnd_cases rxmax s t h
  · exact agreeOn_of_rx hsys hv ⟨rfl, rfl, rfl, rfl, rfl⟩
  · exact agreeOn_of_rx hsys hv ⟨rfl, rfl, rfl, rfl, rfl⟩
  · cases v with
    | ce | ec | tx => exact rxKeep_keepsOtherUnits _ _ _ t hkeep _ hsys hv
    | sys | rx => contradiction

theorem rxLoad_keepsOtherUnits (k : Half) (s : State) : KeepsOtherUnits .rx s (rxLoad k s) := by
  intro t h v hsys hv
  obtain ⟨-, rfl⟩ | ⟨-, -, rfl⟩ | ⟨-, -, _, -, rfl⟩ := rxLoad_cases k s t h
  all_goals exact agreeOn_of_rx hsys hv ⟨rfl, rfl, rfl, rfl, rfl⟩

/-- An operation leaves every other unit of the block as it is. -/
theorem exec_keepsOtherUnits {i : Instr} (hi : isOperation i = true) (s : State) :
    KeepsOtherUnits (unitOf i) s (exec i s) := by
  cases i with
  | nop | escPut => exact keepsOtherUnits_answer _ _ fun v _ _ => agreeOn_refl v s
  | get n => exact execGet_keepsOtherUnits n s
  | crcClr | crcPut => exact keepsOtherUnits_answer _ _ fun v hsys hv => agreeOn_with_crc hsys hv _
  | uneClr => exact keepsOtherUnits_answer _ _ fun v hsys hv => agreeOn_with_unepend hsys hv _
  | unePut b => exact execUnePut_keepsOtherUnits b s
  | uneEnd => exact execUneEnd_keepsOtherUnits s
  | txStart b => exact execTxStart_keepsOtherUnits b s
  | txPut b => exact execTxPut_keepsOtherUnits b s
  | txEnd => exact execTxEnd_keepsOtherUnits s
  | txClr => exact keepsOtherUnits_answer _ _ fun v hsys hv => agreeOn_with_tx hsys hv _ _ _
  | rxClr => exact keepsOtherUnits_answer _ _ fun v hsys hv => agreeOn_of_rx hsys hv ⟨rfl, rfl, rfl, rfl, rfl⟩
  | rxPut b => exact rxPut_keepsOtherUnits _ b s
  | rxEnd => exact rxEnd_keepsOtherUnits _ s
  | rxLd k => exact rxLoad_keepsOtherUnits k s
  | startToDev | startFromDev | startNul | ack | stop | esc | escStop | escAck | escEsc | escToDev | escFromDev | lit =>
    cases hi

end

/-! ### Runs of operations -/

section
variable {i : Instr} {ops : List Instr} {s t : State}

theorem runOps_cons (h : exec i s = .next t) : runOps (i :: ops) s = runOps ops t := by
  simp only [runOps, h]

/-- A run from a state that satisfies the invariants completes and keeps them. -/
theorem runOps_next_of_inv (hops : ∀ i ∈ ops, isOperation i = true) (hs : s.Inv) :
    ∃ t, runOps ops s = .next t ∧ t.Inv := by
  induction ops generalizing s with
  | nil => exact ⟨s, rfl, hs⟩
  | cons i ops ih =>
    have hi := hops i (List.mem_cons_self ..)
    obtain ⟨u, hu⟩ := exec_next_of_inv hi hs
    rw [runOps_cons hu]
    exact ih (fun j hj => hops j (List.mem_cons_of_mem i hj)) (exec_nextInv hi hs u hu)

/-- A view of the state that each operation changes by `act` is changed by a run by all of them in order. -/
theorem view_runOps {α : Type} {view : State → α} {act : α → Instr → α}
    (hact : ∀ {i s t}, isOperation i = true → exec i s = .next t → view t = act (view s) i)
    (hops : ∀ i ∈ ops, isOperation i = true) (h : runOps ops s = .next t) : view t = ops.foldl act (view s) := by
  induction ops generalizing s with
  | nil => cases h; rfl
  | cons i ops ih =>
    have hi := hops i (List.mem_cons_self ..)
    cases hu : exec i s with
    | next u =>
      rw [runOps_cons hu] at h
      rw [List.foldl_cons, ← hact hi hu]
      exact ih (fun j hj => hops j (List.mem_cons_of_mem i hj)) h
    | fault f => simp [runOps, hu] at h
    | refused r => simp [runOps, hu] at h

/-- The operations of other units drop out of a view that they leave alone. -/
theorem foldl_filter_unit {α : Type} {act : α → Instr → α} (u : BlockUnit)
    (hother : ∀ a i, unitOf i ≠ u → act a i = a) (ops : List Instr) (a : α) :
    (ops.filter (fun i => unitOf i == u)).foldl act a = ops.foldl act a := by
  rw [List.foldl_filter]
  congr 1
  funext a i
  by_cases hi : unitOf i = u
  · rw [if_pos (beq_iff_eq.2 hi)]
  · rw [if_neg (mt beq_iff_eq.1 hi), hother a i hi]

end

end Sys2Proof.Machine
end

section
/-! SUPPORT. The operations of the checksum engine (spec 40 R126, R127) and runs of them with any operations of other units
between (R128). -/

namespace Sys2Proof.Machine

/-! ### The register `CRC` in a run (40 R128) -/

/-- What an operation makes of the register `CRC`. -/
def crcAfter (r : Half) : Instr → Half
  | .crcClr => Config.INIT
  | .crcPut b => crcByte r b
  | _ => r

theorem crcAfter_of_other (r : Half) (i : Instr) (h : unitOf i ≠ .ce) : crcAfter r i = r := by
  cases i with
  | crcClr | crcPut => exact absurd rfl h
  | _ => rfl

theorem exec_crc {i : Instr} {s t : State} (hi : isOperation i = true) (h : exec i s = .next t) :
    t.crc = crcAfter s.crc i := by
  by_cases hu : unitOf i = .ce
  · cases i with
    | crcClr | crcPut => cases h; rfl
    | _ => cases hu
  · rw [crcAfter_of_other _ _ hu]
    exact (exec_keepsOtherUnits hi s t h .ce nofun (Ne.symm hu)).symm

theorem crcRun_eq_foldl (r : Half) (msg : List Byte) : crcRun r msg = msg.foldl crcByte r := by
  induction msg generalizing r with
  | nil => rfl
  | cons d msg ih => exact ih _

theorem foldl_crcAfter_crcPuts (r : Half) (msg : List Byte) :
    (msg.map Instr.crcPut).foldl crcAfter r = crcRun r msg := by
  rw [List.foldl_map, crcRun_eq_foldl]
  rfl

/-- `CRC` after a run is what its checksum-engine operations alone make of it. -/
theorem crc_of_runOps {ops : List Instr} {s t : State} (hops : ∀ i ∈ ops, isOperation i = true)
    (h : runOps ops s = .next t) : t.crc = (ops.filter (fun i => unitOf i == .ce)).foldl crcAfter s.crc := by
  rw [foldl_filter_unit .ce crcAfter_of_other]
  exact view_runOps (view := State.crc) exec_crc hops h

theorem exec_get_zero (s : State) :
    exec (.get 0) s = .next { s with responses := s.responses ++ [⟨.ok, s.crc, []⟩] } := rfl

theorem runOps_crcPuts (s : State) (l : List Byte) :
    ∃ t, runOps (l.map .crcPut) s = .next t ∧ t.crc = crcRun s.crc l := by
  induction l generalizing s with
  | nil => exact ⟨s, rfl, rfl⟩
  | cons b l ih => exact ih (({ s with crc := crcByte s.crc b } : State).respond ⟨.ok, 0, []⟩)

/-! ### The statements -/

/-- Settles O12: the run completes by the invariants, and `CRC` follows its checksum-engine operations alone. -/
theorem interleavedCrcPutsComputeChecksum : Obligations.InterleavedCrcPutsComputeChecksum := by
  intro s ops msg hs hops hce
  obtain ⟨t, ht, -⟩ := runOps_next_of_inv hops hs
  have hcrc : t.crc = checksum msg := by
    rw [crc_of_runOps hops ht]
    obtain hclr | ⟨hzero, hputs⟩ := hce
    · rw [hclr]
      exact foldl_crcAfter_crcPuts _ msg
    · rw [hputs, hzero]
      exact foldl_crcAfter_crcPuts _ msg
  exact ⟨t, ht, hcrc, by rw [exec_get_zero, hcrc]⟩

/-- Settles O4: the operation by definition, its word by the operand class. -/
theorem crcClrWritesInit : Obligations.CrcClrWritesInit :=
  fun s => ⟨rfl, noOperandWord_of_decodeCmd (fun arg => by simp [decodeCmd]) s⟩

/-- Settles O5: the operation by definition, its word by the operand class, the run by induction on the bytes. -/
theorem crcPutAdvancesCrc : Obligations.CrcPutAdvancesCrc :=
  ⟨fun _ _ => rfl, byteOperandWord_of_decodeCmd (fun arg => by simp [decodeCmd]), runOps_crcPuts⟩

end Sys2Proof.Machine
end

section
/-! SUPPORT. The checksum as a function of the message (spec 40 R129): one bit step as a shift and a conditional XOR, the
linearity that follows from it, and the checksums of short and of corrupted messages. -/

namespace Sys2Proof.Machine

/-! ### One bit step (40 R120) -/

/-- The 17-bit register of 40 R120 is the shifted register below its top bit, which is the bit shifted out. -/
theorem crcBit_eq (r : Half) (b : Bool) :
    crcBit r b = r.shiftConcat b ^^^ if r.getLsbD 15 then Config.POLY else 0 := by
  have htop : (r.setWidth 17 <<< 1 ||| (BitVec.ofBool b).setWidth 17).getLsbD 16 = r.getLsbD 15 := by simp
  have hlow : (r.setWidth 17 <<< 1 ||| (BitVec.ofBool b).setWidth 17).setWidth 16 = r.shiftConcat b := by
    ext k hk
    by_cases hzero : k = 0
    · simp [hzero]
    · simp [BitVec.getElem_shiftConcat, hzero]
  have hmask : Config.BIT16 = BitVec.twoPow 17 16 := rfl
  simp only [crcBit, hmask, BitVec.and_twoPow, htop, hlow]
  cases r.getLsbD 15 <;> simp

theorem shiftConcat_eq_shiftLeft_or (r : Half) (b : Bool) : r.shiftConcat b = (r <<< 1) ||| (if b then 1 else 0) := by
  ext k hk
  cases b <;> by_cases hzero : k = 0 <;> simp [BitVec.getElem_shiftConcat, hzero]

/-! ### Linearity (40 R129 (a)) -/

theorem shiftConcat_xor (r r' : Half) (b b' : Bool) :
    (r ^^^ r').shiftConcat (b ^^ b') = r.shiftConcat b ^^^ r'.shiftConcat b' := by
  ext k hk
  by_cases hzero : k = 0 <;> simp [BitVec.getElem_shiftConcat, hzero]

theorem ite_xor (b b' : Bool) (p : Half) :
    (if b ^^ b' then p else 0) = (if b then p else 0) ^^^ (if b' then p else 0) := by
  cases b <;> cases b' <;> simp

theorem crcBit_xor (r r' : Half) (b b' : Bool) : crcBit (r ^^^ r') (b ^^ b') = crcBit r b ^^^ crcBit r' b' := by
  simp only [crcBit_eq, shiftConcat_xor, BitVec.getLsbD_xor, ite_xor]
  ac_rfl

theorem crcByte_xor (r r' : Half) (d d' : Byte) : crcByte (r ^^^ r') (d ^^^ d') = crcByte r d ^^^ crcByte r' d' := by
  simp only [crcByte, List.foldl_cons, List.foldl_nil, BitVec.getLsbD_xor, crcBit_xor]

theorem crcRun_xor {s s' : List Byte} (h : s.length = s'.length) (r r' : Half) :
    crcRun (r ^^^ r') (List.zipWith (· ^^^ ·) s s') = crcRun r s ^^^ crcRun r' s' := by
  induction s generalizing s' r r' with
  | nil =>
    obtain rfl : s' = [] := List.length_eq_zero_iff.1 h.symm
    rfl
  | cons d s ih =>
    cases s' with
    | nil => cases h
    | cons d' s' =>
      rw [List.zipWith_cons_cons, crcRun, crcByte_xor]
      exact ih (Nat.succ.inj h) _ _

/-! ### Bytes that the register has room for (40 R129 (b), (c)) -/

/-- Bits shifted into a register that has room for them are the lower digits of its number. -/
theorem toNat_foldl_crcBit {r : Half} {bits : List Bool} (h : (r.toNat + 1) * 2 ^ bits.length ≤ 2 ^ 16) :
    (bits.foldl crcBit r).toNat = bits.foldl (fun n b => 2 * n + b.toNat) r.toNat := by
  induction bits generalizing r with
  | nil => rfl
  | cons b bits ih =>
    have hroom : (2 * (r.toNat + 1)) * 2 ^ bits.length ≤ 2 ^ 16 := by
      rwa [List.length_cons, pow_succ', ← mul_assoc, mul_comm _ 2] at h
    have hlt : r.toNat < 2 ^ 15 := by
      have := (Nat.le_mul_of_pos_right _ (Nat.two_pow_pos bits.length)).trans hroom
      omega
    have hstep : (crcBit r b).toNat = 2 * r.toNat + b.toNat := by
      rw [crcBit_eq, BitVec.getLsbD, Nat.testBit_lt_two_pow hlt, if_neg Bool.false_ne_true,
        show (0 : Half) = 0#16 from rfl, BitVec.xor_zero, BitVec.toNat_shiftConcat_eq_of_lt (by decide : 15 < 16) hlt,
        mul_comm]
    have hbit := b.toNat_le
    rw [List.foldl_cons, ih, hstep, List.foldl_cons]
    exact (Nat.mul_le_mul_right _ (by omega)).trans hroom

/-- Appending the lowest `k` binary digits of `x`, highest first, to the number `n`. -/
theorem foldl_testBit (x n k : Nat) :
    (List.range k).reverse.foldl (fun n j => 2 * n + (x.testBit j).toNat) n = 2 ^ k * n + x % 2 ^ k := by
  induction k generalizing n with
  | zero => simp [Nat.mod_one]
  | succ k ih =>
    rw [List.range_succ, List.reverse_append, List.reverse_singleton, List.singleton_append, List.foldl_cons, ih,
      Nat.mod_pow_succ, Nat.toNat_testBit]
    ring

/-- A byte shifted into a register whose upper byte is free becomes the lower byte. -/
theorem toNat_crcByte {r : Half} (h : r.toNat < 256) (d : Byte) : (crcByte r d).toNat = 256 * r.toNat + d.toNat := by
  have hbits : crcByte r d = ((List.range 8).reverse.map d.getLsbD).foldl crcBit r := List.foldl_map.symm
  have hroom : (r.toNat + 1) * 2 ^ ((List.range 8).reverse.map d.getLsbD).length ≤ 2 ^ 16 := by
    simp only [List.length_map, List.length_reverse, List.length_range]
    omega
  rw [hbits, toNat_foldl_crcBit hroom, List.foldl_map]
  exact (foldl_testBit d.toNat r.toNat 8).trans (by rw [Nat.mod_eq_of_lt d.isLt]; norm_num)

theorem toNat_checksum_singleton (a : Byte) : (checksum [a]).toNat = a.toNat := by
  have hinit : (Config.INIT).toNat = 0 := rfl
  rw [checksum, crcRun, crcRun, toNat_crcByte (by decide), hinit, Nat.mul_zero, Nat.zero_add]

theorem checksum_singleton (a : Byte) : checksum [a] = BitVec.ofNat 16 a.toNat :=
  BitVec.eq_of_toNat_eq <| by
    rw [toNat_checksum_singleton, BitVec.toNat_ofNat]
    omega

theorem checksum_pair (a b : Byte) : checksum [a, b] = BitVec.ofNat 16 (256 * a.toNat + b.toNat) :=
  BitVec.eq_of_toNat_eq <| calc
    (checksum [a, b]).toNat = (crcByte (checksum [a]) b).toNat := rfl
    _ = 256 * a.toNat + b.toNat := by
      rw [toNat_crcByte (by rw [toNat_checksum_singleton]; exact a.isLt), toNat_checksum_singleton]
    _ = (BitVec.ofNat 16 (256 * a.toNat + b.toNat)).toNat := by
      rw [BitVec.toNat_ofNat]
      omega

theorem crcByte_zero_zero : crcByte 0 0 = 0 := by decide

theorem checksum_zero_cons (s : List Byte) : checksum (0 :: s) = checksum s :=
  congrArg (crcRun · s) crcByte_zero_zero

/-! ### The residue (40 R129 (e), 43 R205) -/

theorem crcRun_append (r : Half) (s s' : List Byte) : crcRun r (s ++ s') = crcRun (crcRun r s) s' := by
  simp only [crcRun_eq_foldl, List.foldl_append]

/-- Two more bytes after a message are XORed to what two zero bytes give. -/
theorem crcRun_pair (r : Half) (x y : Byte) : crcRun r [x, y] = crcRun r Config.placeholders ^^^ checksum [x, y] := by
  have h := crcRun_xor (s := Config.placeholders) (s' := [x, y]) rfl r Config.INIT
  rwa [BitVec.xor_zero, show List.zipWith (· ^^^ ·) Config.placeholders [x, y] = [x, y] by
    simp [Config.placeholders, Config.NPLACE]] at h

theorem checksum_append_pair (s : List Byte) (x y : Byte) :
    checksum (s ++ [x, y]) = checksum (s ++ Config.placeholders) ^^^ checksum [x, y] := by
  rw [checksum, crcRun_append, crcRun_pair, ← crcRun_append, ← checksum]

theorem eq_ofNat_iff_hi_lo (v : Half) (x y : Byte) :
    v = BitVec.ofNat 16 (256 * x.toNat + y.toNat) ↔ x = hi v ∧ y = lo v := by
  simp only [← BitVec.toNat_inj, hi_toNat, lo_toNat, BitVec.toNat_ofNat]
  have hx := x.isLt
  have hy := y.isLt
  omega

/-! ### Changes of one byte (40 R129 (f)) -/

theorem checksum_append_byte_append (s s' : List Byte) (d : Byte) :
    checksum (s ++ [d] ++ s') = crcRun (crcByte (checksum s) d) s' := by
  rw [checksum, crcRun_append, crcRun_append, ← checksum, crcRun, crcRun]

/-- The divisor has a constant term, so a step loses nothing: the bit shifted out stands in bit 0. -/
theorem eq_zero_of_crcBit {r : Half} (h : crcBit r false = 0) : r = 0 := by
  have hshift : r.shiftConcat false = if r.getLsbD 15 then Config.POLY else 0 :=
    BitVec.xor_eq_zero_iff.1 ((crcBit_eq r false).symm.trans h)
  have htop : r.getLsbD 15 = false := by
    by_contra hset
    rw [if_pos (by simpa using hset)] at hshift
    have hbit := congrArg (BitVec.getLsbD · 0) hshift
    rw [BitVec.getLsbD_shiftConcat] at hbit
    exact Bool.noConfusion hbit
  rw [htop, if_neg Bool.false_ne_true] at hshift
  ext k hk
  obtain rfl | hlow : k = 15 ∨ k + 1 < 16 := by omega
  · simpa using htop
  · have hbit := congrArg (BitVec.getLsbD · (k + 1)) hshift
    simpa [BitVec.getLsbD_shiftConcat, hlow] using hbit

/-- By linearity two registers that step to the same differ by one that steps to 0. -/
theorem crcBit_injective (b : Bool) : Function.Injective (crcBit · b) := by
  intro r r' h
  have hdiff : crcBit (r ^^^ r') (b ^^ b) = 0 := by
    rw [crcBit_xor]
    exact BitVec.xor_eq_zero_iff.2 h
  rw [Bool.xor_self] at hdiff
  exact BitVec.xor_eq_zero_iff.1 (eq_zero_of_crcBit hdiff)

theorem crcByte_injective (d : Byte) : Function.Injective (crcByte · d) := by
  intro r r' h
  simp only [crcByte, List.foldl_cons, List.foldl_nil] at h
  iterate 8 replace h := crcBit_injective _ h
  exact h

/-- The register after a message determines the register before it. -/
theorem crcRun_injective (s : List Byte) : Function.Injective (crcRun · s) := by
  induction s with
  | nil => exact Function.injective_id
  | cons d s ih => exact ih.comp (crcByte_injective d)

/-- The register after a byte determines the byte: two bytes' difference is what it would be from 0, the bytes' own. -/
theorem crcByte_injective_byte (r : Half) : Function.Injective (crcByte r) := by
  intro d e h
  have hdiff : crcByte 0 (d ^^^ e) = 0 := calc
    crcByte 0 (d ^^^ e) = crcByte (r ^^^ r) (d ^^^ e) := congrArg (crcByte · _) BitVec.xor_self.symm
    _ = crcByte r d ^^^ crcByte r e := crcByte_xor r r d e
    _ = 0 := BitVec.xor_eq_zero_iff.2 h
  have hnum := toNat_crcByte (r := 0) (by decide) (d ^^^ e)
  rw [hdiff] at hnum
  refine BitVec.xor_eq_zero_iff.1 (BitVec.eq_of_toNat_eq ?_)
  simpa using hnum.symm

/-! ### The statements -/

/-- Settles O6: the shifted register with its free bit 0 filled. -/
theorem crcBitXorsPolynomialWhenTopBitShiftsOut : Obligations.CrcBitXorsPolynomialWhenTopBitShiftsOut := by
  intro r b
  rw [crcBit_eq, shiftConcat_eq_shiftLeft_or]
  rfl

/-- Settles O7: bit step by bit step, the checksum from the initial value 0. -/
theorem checksumIsLinear : Obligations.ChecksumIsLinear :=
  fun _ _ h => ⟨crcRun_xor h, crcRun_xor h Config.INIT Config.INIT⟩

/-- Settles O8: a zero byte leaves the register 0 as it is, and 16 bits have room for two bytes. -/
theorem checksumOfShortMessagesAndLeadingZeros : Obligations.ChecksumOfShortMessagesAndLeadingZeros := by
  refine ⟨checksum_zero_cons, fun n => ?_, fun a b => ⟨checksum_singleton a, checksum_pair a b⟩⟩
  induction n with
  | zero => rfl
  | succ n ih => rw [List.replicate_succ, checksum_zero_cons, ih]

/-- Settles O10: by linearity the two bytes cancel exactly the checksum over the placeholders. -/
theorem residueTestEqualsChecksumComparison : Obligations.ResidueTestEqualsChecksumComparison := by
  intro a c data x y
  rw [checksum_append_pair, ← frameChecksum, ← eq_ofNat_iff_hi_lo, ← checksum_pair]
  exact BitVec.xor_eq_zero_iff

/-- Settles O11: the register after the changed byte differs, and equal bytes keep it so. -/
theorem singleByteChangeChangesChecksum : Obligations.SingleByteChangeChangesChecksum := by
  intro s₁ s₂ d e hne h
  rw [checksum_append_byte_append, checksum_append_byte_append] at h
  exact hne (crcByte_injective_byte _ (crcRun_injective s₂ h))

end Sys2Proof.Machine
end

section
/-! SUPPORT. The checksum as a remainder of polynomials over GF(2) (spec 40 R129 (d)). -/

namespace Sys2Proof.Machine

open Polynomial

/-- The polynomial with the bits of `v` as coefficients. -/
noncomputable def bitPoly (n : Nat) (v : BitVec n) : (ZMod 2)[X] :=
  (Finset.range n).sum (fun k => if v.getLsbD k then X ^ k else 0)

/-- The polynomial of a message after `p`: its bits, first bit of the first byte highest, follow the coefficients of `p`. -/
noncomputable def messagePoly (p : (ZMod 2)[X]) (s : List Byte) : (ZMod 2)[X] :=
  s.foldl (fun p d => p * X ^ 8 + bitPoly 8 d) p

/-- `X^16 + X^12 + X^5 + 1`. -/
noncomputable def crcDivisor : (ZMod 2)[X] := X ^ 16 + X ^ 12 + X ^ 5 + 1

/-! ### The divisor -/

theorem crcDivisor_monic : crcDivisor.Monic := by
  unfold crcDivisor
  monicity!

theorem degree_crcDivisor : crcDivisor.degree = 16 := by
  unfold crcDivisor
  compute_degree!

theorem bitPoly_poly : bitPoly 16 Config.POLY = 1 + X ^ 5 + X ^ 12 := by
  simp [bitPoly, Finset.sum_range_succ, Config.POLY]

/-- The divisor is its leading term and the polynomial of the constant that the engine XORs in. -/
theorem crcDivisor_eq : crcDivisor = X ^ 16 + bitPoly 16 Config.POLY := by
  rw [crcDivisor, bitPoly_poly]
  ring

/-! ### Operations on registers as operations on polynomials -/

theorem degree_bitPoly_lt (n : Nat) (v : BitVec n) : (bitPoly n v).degree < n := by
  refine mem_degreeLT.1 (Submodule.sum_mem _ fun k hk => ?_)
  split
  · exact mem_degreeLT.2 (degree_X_pow (R := ZMod 2) k ▸ Nat.cast_lt.2 (Finset.mem_range.1 hk))
  · exact zero_mem _

theorem bitPoly_xor (n : Nat) (v w : BitVec n) : bitPoly n (v ^^^ w) = bitPoly n v + bitPoly n w := by
  rw [bitPoly, bitPoly, bitPoly, ← Finset.sum_add_distrib]
  refine Finset.sum_congr rfl fun k _ => ?_
  rw [BitVec.getLsbD_xor]
  cases v.getLsbD k <;> cases w.getLsbD k <;> simp [CharTwo.add_self_eq_zero]

/-- Shifting is multiplication by `X`; the bit shifted out takes its term with it. -/
theorem bitPoly_shiftConcat (n : Nat) (v : BitVec (n + 1)) (b : Bool) :
    bitPoly (n + 1) (v.shiftConcat b) + (if v.getLsbD n then X ^ (n + 1) else 0) =
      bitPoly (n + 1) v * X + (if b then 1 else 0) := by
  have hlow : ∀ k ∈ Finset.range n, (if (v.shiftConcat b).getLsbD (k + 1) then X ^ (k + 1) else 0 : (ZMod 2)[X]) =
      (if v.getLsbD k then X ^ k else 0) * X := by
    intro k hk
    have hk := Finset.mem_range.1 hk
    rw [BitVec.getLsbD_shiftConcat]
    simp [hk, ite_mul, pow_succ]
  have hzero : (v.shiftConcat b).getLsbD 0 = b := by simp
  rw [bitPoly, Finset.sum_range_succ', Finset.sum_congr rfl hlow, hzero, bitPoly, Finset.sum_range_succ, add_mul,
    Finset.sum_mul, ite_mul, zero_mul, ← pow_succ, pow_zero, add_right_comm]

theorem bitPoly_zero (n : Nat) : bitPoly n 0 = 0 := by
  simp [bitPoly]

/-- A bit step appends the bit and takes off the divisor when the degree would reach 16. -/
theorem bitPoly_crcBit (r : Half) (b : Bool) :
    bitPoly 16 (crcBit r b) = bitPoly 16 r * X + (if b then 1 else 0) + if r.getLsbD 15 then crcDivisor else 0 := by
  rw [← bitPoly_shiftConcat 15, crcBit_eq, bitPoly_xor]
  cases r.getLsbD 15
  · simp only [Bool.false_eq_true, if_false, bitPoly_zero, add_zero]
  · simp only [if_true, crcDivisor_eq]
    rw [add_assoc, ← add_assoc (X ^ 16), CharTwo.add_self_eq_zero, zero_add]

/-! ### The engine modulo the divisor -/

/-- The class of a polynomial modulo the divisor. -/
noncomputable abbrev crcClass : (ZMod 2)[X] →+* AdjoinRoot crcDivisor := AdjoinRoot.mk crcDivisor

theorem crcClass_crcBit (r : Half) (b : Bool) :
    crcClass (bitPoly 16 (crcBit r b)) = crcClass (bitPoly 16 r) * crcClass X + if b then 1 else 0 := by
  rw [bitPoly_crcBit, map_add, map_add, map_mul]
  cases b <;> cases r.getLsbD 15 <;> simp [AdjoinRoot.mk_self]

theorem crcClass_crcByte (r : Half) (d : Byte) :
    crcClass (bitPoly 16 (crcByte r d)) = crcClass (bitPoly 16 r) * crcClass X ^ 8 + crcClass (bitPoly 8 d) := by
  have hbits : crcClass (bitPoly 8 d) = (Finset.range 8).sum fun k => (if d.getLsbD k then 1 else 0) * crcClass X ^ k := by
    simp only [bitPoly, map_sum, apply_ite crcClass, map_pow, map_zero, ite_mul, one_mul, zero_mul]
  rw [hbits]
  simp only [crcByte, List.foldl_cons, List.foldl_nil, crcClass_crcBit, Finset.sum_range_succ, Finset.sum_range_zero]
  ring

/-- The class of a message with one more byte, from the class `a` of the message. -/
noncomputable def appendByte (a : AdjoinRoot crcDivisor) (d : Byte) : AdjoinRoot crcDivisor :=
  a * crcClass X ^ 8 + crcClass (bitPoly 8 d)

/-- The register is the message taken so far, modulo the divisor. -/
theorem crcClass_crcRun (r : Half) (s : List Byte) :
    crcClass (bitPoly 16 (crcRun r s)) = crcClass (messagePoly (bitPoly 16 r) s) := by
  calc crcClass (bitPoly 16 (crcRun r s))
    _ = s.foldl appendByte (crcClass (bitPoly 16 r)) := by
      rw [crcRun_eq_foldl]
      exact (List.foldl_hom (fun r => crcClass (bitPoly 16 r)) fun r d => (crcClass_crcByte r d).symm).symm
    _ = crcClass (messagePoly (bitPoly 16 r) s) :=
      List.foldl_hom crcClass fun p d => by rw [appendByte, map_add, map_mul, map_pow]

/-! ### The statement -/

/-- Settles O9: the checksum is congruent to the message and its degree is below the divisor's. -/
theorem checksumIsPolynomialRemainder : Obligations.ChecksumIsPolynomialRemainder := by
  intro s
  show bitPoly 16 (checksum s) = messagePoly 0 s %ₘ crcDivisor
  have hcong : crcDivisor ∣ messagePoly 0 s - bitPoly 16 (checksum s) := by
    have h := crcClass_crcRun Config.INIT s
    rw [show Config.INIT = 0 from rfl, bitPoly_zero] at h
    exact AdjoinRoot.mk_eq_mk.1 h.symm
  have hdeg : (bitPoly 16 (checksum s)).degree < crcDivisor.degree := by
    rw [degree_crcDivisor]
    exact degree_bitPoly_lt 16 _
  rw [modByMonic_eq_of_dvd_sub crcDivisor_monic hcong, (modByMonic_eq_self_iff crcDivisor_monic).2 hdeg]

end Sys2Proof.Machine
end

section
/-! SUPPORT. The responses that one unit gives in a run of operations of all units (spec 70 R277), for the headline
statements about interleaved runs. -/

namespace Sys2Proof.Machine

/-- The responses to instructions one after another, when `reply` says what each is answered in view of `a` and `act`
what it makes of the view. -/
def repliesFrom {α : Type} (act : α → Instr → α) (reply : α → Instr → Response) : α → List Instr → List Response
  | _, [] => []
  | a, i :: is => reply a i :: repliesFrom act reply (act a i) is

section
variable {α : Type} {act : α → Instr → α} {reply : α → Instr → Response}

theorem repliesFrom_append (a : α) (is js : List Instr) :
    repliesFrom act reply a (is ++ js) = repliesFrom act reply a is ++ repliesFrom act reply (is.foldl act a) js := by
  induction is generalizing a with
  | nil => rfl
  | cons i is ih => simp only [List.cons_append, repliesFrom, ih, List.foldl_cons]

theorem forall_mem_repliesFrom {P : Response → Prop} {is : List Instr} (h : ∀ i ∈ is, ∀ a, P (reply a i)) (a : α) :
    ∀ r ∈ repliesFrom act reply a is, P r := by
  induction is generalizing a with
  | nil => nofun
  | cons i is ih =>
    obtain ⟨hi, his⟩ := List.forall_mem_cons.1 h
    exact List.forall_mem_cons.2 ⟨hi a, ih his _⟩

end

section
variable {u : BlockUnit} {i : Instr} {ops : List Instr} {s t : State}

theorem unitResponses_cons_of_eq (hu : unitOf i = u) (r : Response) (rs : List Response) :
    unitResponses u (i :: ops) (r :: rs) = r :: unitResponses u ops rs := by
  simp [unitResponses, hu]

theorem unitResponses_cons_of_ne (hu : unitOf i ≠ u) (r : Response) (rs : List Response) :
    unitResponses u (i :: ops) (r :: rs) = unitResponses u ops rs := by
  simp [unitResponses, hu]

/-- A run gives one response per operation, and those of the unit `u` are what its operations alone are answered, when
the unit's own part of the state is all that they read and no other unit's operation changes it. -/
theorem unitResponses_runOps {α : Type} {view : State → α} {act : α → Instr → α} {reply : α → Instr → Response}
    (hact : ∀ {i s t}, isOperation i = true → exec i s = .next t → view t = act (view s) i)
    (hother : ∀ a i, unitOf i ≠ u → act a i = a)
    (hreply : ∀ {i s t}, isOperation i = true → unitOf i = u → exec i s = .next t →
      t.responses = s.responses ++ [reply (view s) i])
    (hops : ∀ i ∈ ops, isOperation i = true) (h : runOps ops s = .next t) :
    ∃ rs, t.responses = s.responses ++ rs ∧ rs.length = ops.length ∧
      unitResponses u ops rs = repliesFrom act reply (view s) (ops.filter (fun i => unitOf i == u)) := by
  induction ops generalizing s with
  | nil => cases h; exact ⟨[], by simp, rfl, rfl⟩
  | cons i ops ih =>
    obtain ⟨hi, hrest⟩ := List.forall_mem_cons.1 hops
    cases hs' : exec i s with
    | fault f => simp [runOps, hs'] at h
    | refused r => simp [runOps, hs'] at h
    | next s' =>
      rw [runOps_cons hs'] at h
      obtain ⟨rs, hrs, hlen, hunit⟩ := ih hrest h
      rw [hact hi hs'] at hunit
      obtain ⟨-, r, hr⟩ := exec_answeredOnce hi hs'
      refine ⟨r :: rs, by rw [hrs, hr, List.append_assoc]; rfl, congrArg Nat.succ hlen, ?_⟩
      by_cases hu : unitOf i = u
      · have hrEq : r = reply (view s) i := by simpa using hr.symm.trans (hreply hi hu hs')
        rw [unitResponses_cons_of_eq hu, List.filter_cons_of_pos (p := fun i => unitOf i == u) (beq_iff_eq.2 hu), repliesFrom,
          hunit, hrEq]
      · rw [unitResponses_cons_of_ne hu, List.filter_cons_of_neg (p := fun i => unitOf i == u) (mt beq_iff_eq.1 hu), hunit,
          hother _ _ hu]

end

@[simp] theorem outBytes_nil : outBytes [] = [] := rfl

@[simp] theorem outBytes_cons (r : Response) (rs : List Response) : outBytes (r :: rs) = r.out ++ outBytes rs := rfl

@[simp] theorem outBytes_append (rs rs' : List Response) : outBytes (rs ++ rs') = outBytes rs ++ outBytes rs' :=
  List.flatMap_append

end Sys2Proof.Machine
end

section
/-! SUPPORT. The functions of the escape codec (spec 41 R140 to R143) and their properties (R149). -/

namespace Sys2Proof.Machine

/-! ### The wire form of one byte (41 R140, R141) -/

theorem esc_of_mem {b : Byte} (h : b ∈ Config.ESCSET) : esc b = [Config.ESC, b ^^^ Config.ESCMASK] :=
  if_pos (List.contains_iff_mem.2 h)

theorem esc_of_not_mem {b : Byte} (h : b ∉ Config.ESCSET) : esc b = [b] :=
  if_neg (mt List.contains_iff_mem.1 h)

theorem ne_esc_of_not_mem {b : Byte} (h : b ∉ Config.ESCSET) : b ≠ Config.ESC := by
  rintro rfl
  exact h (by decide)

/-- The complements of the escape set are the canonical second bytes (30 R80). -/
theorem complement_mem_of_mem_escset : ∀ b ∈ Config.ESCSET, b ^^^ Config.ESCMASK ∈ [0xF2, 0xF9, 0xE4, 0x7F, 0xBF] := by
  decide

theorem not_mem_escset_of_canonical : ∀ x ∈ [0xF2, 0xF9, 0xE4, 0x7F, 0xBF], x ∉ Config.ESCSET := by decide

/-! ### `unstuff` by its first bytes and on a concatenation (41 R143, R149 (e), (f)) -/

theorem unstuff_cons_of_ne {b : Byte} (hb : b ≠ Config.ESC) (w : List Byte) :
    unstuff (b :: w) = (unstuff w).map (b :: ·) := by
  cases w with
  | nil => simp [unstuff, hb]
  | cons x w => simp [unstuff, hb]

theorem unstuff_esc_cons (x : Byte) (w : List Byte) :
    unstuff (Config.ESC :: x :: w) = (unstuff w).map ((x ^^^ Config.ESCMASK) :: ·) :=
  if_pos rfl

theorem unstuff_append {w₁ v₁ : List Byte} (h : unstuff w₁ = some v₁) (w₂ : List Byte) :
    unstuff (w₁ ++ w₂) = (unstuff w₂).map (v₁ ++ ·) := by
  fun_induction unstuff w₁ generalizing v₁ with
  | case1 => cases h; simp
  | case2 => cases h
  | case3 b hb => cases h; exact unstuff_cons_of_ne hb w₂
  | case4 x w ih =>
    obtain ⟨v, hv, rfl⟩ := Option.map_eq_some_iff.1 h
    simp [unstuff_esc_cons, ih hv, Function.comp_def]
  | case5 b x w hb ih =>
    obtain ⟨v, hv, rfl⟩ := Option.map_eq_some_iff.1 h
    rw [List.cons_append, unstuff_cons_of_ne hb, ih hv]
    simp [Function.comp_def]

/-- `unstuff` fails only when the last byte is an introducer without a byte to complete it. -/
theorem eq_append_esc_of_unstuff_none {w : List Byte} (h : unstuff w = none) :
    ∃ w' v, w = w' ++ [Config.ESC] ∧ unstuff w' = some v := by
  fun_induction unstuff w with
  | case1 => cases h
  | case2 => exact ⟨[], [], rfl, rfl⟩
  | case3 => cases h
  | case4 x w ih =>
    obtain ⟨w', v, rfl, hv⟩ := ih (Option.map_eq_none_iff.1 h)
    exact ⟨Config.ESC :: x :: w', _, rfl, by rw [unstuff_esc_cons, hv]; rfl⟩
  | case5 b x w hb ih =>
    obtain ⟨w', v, hw, hv⟩ := ih (Option.map_eq_none_iff.1 h)
    exact ⟨b :: w', _, by rw [hw]; rfl, by rw [unstuff_cons_of_ne hb, hv]; rfl⟩

/-! ### `stuff` (41 R142, R149 (a) to (c)) -/

theorem unstuff_esc (b : Byte) : unstuff (esc b) = some [b] := by
  by_cases hb : b ∈ Config.ESCSET
  · rw [esc_of_mem hb, unstuff_esc_cons, xor_escmask_cancel]
    rfl
  · rw [esc_of_not_mem hb, unstuff_cons_of_ne (ne_esc_of_not_mem hb)]
    rfl

theorem unstuff_stuff (s : List Byte) : unstuff (stuff s) = some s := by
  induction s with
  | nil => rfl
  | cons b s ih =>
    rw [stuff, unstuff_append (unstuff_esc b), ih]
    rfl

theorem length_stuff (s : List Byte) : (stuff s).length = s.length + s.countP inEscSet := by
  induction s with
  | nil => rfl
  | cons b s ih =>
    rw [stuff, List.length_append, ih, List.length_cons, List.countP_cons, esc]
    split
    · simp only [List.length_cons, List.length_nil]; omega
    · simp only [List.length_cons, List.length_nil]; omega

/-- The wire form of a byte is a canonical pair, or the byte itself when it is outside the escape set. -/
theorem esc_shape (b : Byte) : (∃ x ∈ [0xF2, 0xF9, 0xE4, 0x7F, 0xBF], esc b = [Config.ESC, x]) ∨
    (b ∉ Config.ESCSET ∧ esc b = [b]) := by
  by_cases hb : b ∈ Config.ESCSET
  · exact .inl ⟨_, complement_mem_of_mem_escset b hb, esc_of_mem hb⟩
  · exact .inr ⟨hb, esc_of_not_mem hb⟩

/-- A byte on the wire is the introducer or none of the escape set. -/
theorem eq_esc_or_not_mem_of_mem_stuff {s : List Byte} {c : Byte} (hc : c ∈ stuff s) :
    c = Config.ESC ∨ c ∉ Config.ESCSET := by
  rw [stuff_eq_flatMap] at hc
  obtain ⟨b, -, hcb⟩ := List.mem_flatMap.1 hc
  obtain ⟨x, hx, hesc⟩ | ⟨hb, hesc⟩ := esc_shape b
  · rw [hesc] at hcb
    obtain rfl | hcx := List.mem_cons.1 hcb
    · exact .inl rfl
    · rw [List.mem_singleton.1 hcx]
      exact .inr (not_mem_escset_of_canonical x hx)
  · rw [hesc, List.mem_singleton] at hcb
    exact .inr (hcb ▸ hb)

/-- An introducer on the wire is followed by a canonical second byte. -/
theorem canonical_after_esc_in_stuff {s u v : List Byte} (h : stuff s = u ++ Config.ESC :: v) :
    ∃ x w, v = x :: w ∧ x ∈ [0xF2, 0xF9, 0xE4, 0x7F, 0xBF] := by
  induction s generalizing u with
  | nil => simp [stuff] at h
  | cons b s ih =>
    rw [stuff] at h
    obtain ⟨x, hx, hesc⟩ | ⟨hb, hesc⟩ := esc_shape b
    · rw [hesc] at h
      match u, h with
      | [], h => cases h; exact ⟨x, _, rfl, hx⟩
      | [_], h => cases h; exact absurd (by decide) (not_mem_escset_of_canonical _ hx)
      | _ :: _ :: u, h => exact ih (List.cons.inj (List.cons.inj h).2).2
    · rw [hesc] at h
      match u, h with
      | [], h => cases h; exact absurd rfl (ne_esc_of_not_mem hb)
      | _ :: u, h => exact ih (List.cons.inj h).2

/-! ### The statements -/

/-- Settles O17. -/
theorem unstuffInvertsStuff : Obligations.UnstuffInvertsStuff := unstuff_stuff

/-- Settles O18: every byte sent is an introducer, a canonical second byte, or outside the escape set. -/
theorem stuffedBytesAvoidControlValues : Obligations.StuffedBytesAvoidControlValues := by
  intro s
  have hlen := length_stuff s
  have hcount := List.countP_le_length (p := inEscSet) (l := s)
  refine ⟨hlen, by omega, by omega, fun b hb => ?_, fun u v h => canonical_after_esc_in_stuff h⟩
  obtain rfl | hnot := eq_esc_or_not_mem_of_mem_stuff hb
  · decide
  · simp only [List.mem_cons, not_or] at hnot
    obtain ⟨hstop, hack, -, htodev, hfromdev, -⟩ := hnot
    exact ⟨hstop, hack, htodev, hfromdev⟩

/-- Settles O19, by the recursion of `unstuff`. -/
theorem unstuffOfConcatenation : Obligations.UnstuffOfConcatenation :=
  ⟨fun _ w₂ _ h => ⟨unstuff_append h w₂, length_le_of_unstuff h⟩, fun _ h => eq_append_esc_of_unstuff_none h⟩

end Sys2Proof.Machine
end

section
/-! SUPPORT. The operations of the escape codec (spec 41 R145 to R148) and runs of them with any operations of other units
between (R150). -/

namespace Sys2Proof.Machine

/-! ### What each operation does with `UNEPEND` and answers (41 R145 to R148) -/

section
variable {b : Byte} {s : State}

theorem execUnePut_of_pending (h : s.unepend = true) :
    execUnePut b s = answer 0 [b ^^^ Config.ESCMASK] { s with unepend := false } :=
  if_pos h

theorem execUnePut_of_introducer (h : s.unepend = false) (hb : b = Config.ESC) :
    execUnePut b s = answer 0 [] { s with unepend := true } :=
  (if_neg (Bool.eq_false_iff.1 h)).trans (if_pos hb)

theorem execUnePut_of_ne (h : s.unepend = false) (hb : b ≠ Config.ESC) : execUnePut b s = answer 0 [b] s :=
  (if_neg (Bool.eq_false_iff.1 h)).trans (if_neg hb)

theorem execUneEnd_of_clear (h : s.unepend = false) : execUneEnd s = answer 0 [] s :=
  if_neg (Bool.eq_false_iff.1 h)

theorem execUneEnd_of_pending (h : s.unepend = true) : execUneEnd s = raise .trail { s with unepend := false } :=
  if_pos h

end

/-- What an operation makes of the flag `UNEPEND`. -/
def unependAfter (pend : Bool) : Instr → Bool
  | .uneClr | .uneEnd => false
  | .unePut b => !pend && b == Config.ESC
  | _ => pend

/-- What an operation of the escape codec is answered. -/
def ecReply (pend : Bool) : Instr → Response
  | .escPut b => ⟨.ok, 0, esc b⟩
  | .unePut b => ⟨.ok, 0, if pend then [b ^^^ Config.ESCMASK] else if b = Config.ESC then [] else [b]⟩
  | .uneEnd => ⟨if pend then .trail else .ok, 0, []⟩
  | _ => ⟨.ok, 0, []⟩

theorem unependAfter_unePut_of_ne {b : Byte} (hb : b ≠ Config.ESC) : unependAfter false (.unePut b) = false :=
  beq_eq_false_iff_ne.2 hb

theorem ecReply_unePut_of_ne {b : Byte} (hb : b ≠ Config.ESC) : ecReply false (.unePut b) = ⟨.ok, 0, [b]⟩ := by
  simp [ecReply, hb]

theorem State.with_unepend_eq_self {s : State} {f : Bool} (h : s.unepend = f) : { s with unepend := f } = s := by
  subst h
  rfl

theorem execUnePut_eq (b : Byte) (s : State) : execUnePut b s =
    .next (({ s with unepend := unependAfter s.unepend (.unePut b) } : State).respond (ecReply s.unepend (.unePut b))) := by
  cases hpend : s.unepend with
  | true => exact execUnePut_of_pending hpend
  | false =>
    by_cases hb : b = Config.ESC
    · rw [execUnePut_of_introducer hpend hb, hb]
      rfl
    · rw [execUnePut_of_ne hpend hb, unependAfter_unePut_of_ne hb, ecReply_unePut_of_ne hb,
        State.with_unepend_eq_self hpend, answer_eq]

theorem execUneEnd_eq (s : State) : execUneEnd s =
    .next (({ s with unepend := false } : State).respond (ecReply s.unepend .uneEnd)) := by
  cases hpend : s.unepend with
  | true => exact execUneEnd_of_pending hpend
  | false =>
    rw [execUneEnd_of_clear hpend, State.with_unepend_eq_self hpend]
    rfl

/-- An operation of the escape codec has no other effect than on `UNEPEND`. -/
theorem exec_ec {i : Instr} (h : unitOf i = .ec) (s : State) :
    exec i s = .next (({ s with unepend := unependAfter s.unepend i } : State).respond (ecReply s.unepend i)) := by
  cases i with
  | escPut | uneClr => rfl
  | unePut b => exact execUnePut_eq b s
  | uneEnd => exact execUneEnd_eq s
  | _ => cases h

theorem unependAfter_of_other (pend : Bool) (i : Instr) (h : unitOf i ≠ .ec) : unependAfter pend i = pend := by
  cases i with
  | escPut | uneClr | unePut | uneEnd => exact absurd rfl h
  | _ => rfl

theorem exec_unepend {i : Instr} {s t : State} (hi : isOperation i = true) (h : exec i s = .next t) :
    t.unepend = unependAfter s.unepend i := by
  by_cases hu : unitOf i = .ec
  · cases (exec_ec hu s).symm.trans h; rfl
  · rw [unependAfter_of_other _ _ hu]
    exact (exec_keepsOtherUnits hi s t h .ec nofun (Ne.symm hu)).symm

theorem exec_ecReply {i : Instr} {s t : State} (hu : unitOf i = .ec) (h : exec i s = .next t) :
    t.responses = s.responses ++ [ecReply s.unepend i] := by
  cases (exec_ec hu s).symm.trans h; rfl

/-! ### The operations one after another compute `unstuff` and `stuff` (41 R150) -/

/-- The responses to operations of the escape codec one after another. -/
def ecReplies : Bool → List Instr → List Response := repliesFrom unependAfter ecReply

theorem ecReplies_cons (pend : Bool) (i : Instr) (is : List Instr) :
    ecReplies pend (i :: is) = ecReply pend i :: ecReplies (unependAfter pend i) is := rfl

theorem ecReplies_append (pend : Bool) (is js : List Instr) :
    ecReplies pend (is ++ js) = ecReplies pend is ++ ecReplies (is.foldl unependAfter pend) js :=
  repliesFrom_append pend is js

/-- `UNE.PUT` of the bytes of `w`, with nothing pending before: an introducer is pending after them just when `unstuff`
fails, and otherwise their output bytes are `unstuff` of `w`. -/
theorem unstuff_eq_unePuts (w : List Byte) : unstuff w =
    if (w.map Instr.unePut).foldl unependAfter false then none else some (outBytes (ecReplies false (w.map .unePut))) := by
  fun_induction unstuff w with
  | case1 => rfl
  | case2 => rfl
  | case3 b hb =>
    rw [List.map_cons, List.foldl_cons, ecReplies_cons, unependAfter_unePut_of_ne hb, ecReply_unePut_of_ne hb]
    rfl
  | case4 x w ih =>
    rw [ih, apply_ite (Option.map _)]
    rfl
  | case5 b x w hb ih =>
    rw [ih, List.map_cons (a := b), List.foldl_cons, ecReplies_cons, unependAfter_unePut_of_ne hb,
      ecReply_unePut_of_ne hb, apply_ite (Option.map _)]
    rfl

theorem unePuts_of_unstuff_some {w v : List Byte} (h : unstuff w = some v) :
    (w.map Instr.unePut).foldl unependAfter false = false ∧ outBytes (ecReplies false (w.map .unePut)) = v := by
  rw [unstuff_eq_unePuts] at h
  split at h
  · cases h
  · exact ⟨Bool.eq_false_iff.2 ‹_›, Option.some.inj h⟩

theorem pending_of_unstuff_none {w : List Byte} (h : unstuff w = none) :
    (w.map Instr.unePut).foldl unependAfter false = true := by
  rw [unstuff_eq_unePuts] at h
  split at h
  · assumption
  · cases h

theorem rc_of_unePuts (pend : Bool) (w : List Byte) : ∀ r ∈ ecReplies pend (w.map .unePut), r.rc = .ok :=
  forall_mem_repliesFrom (by simp [ecReply]) pend

theorem rc_of_escPuts (pend : Bool) (w : List Byte) : ∀ r ∈ ecReplies pend (stuffOps w), r.rc = .ok :=
  forall_mem_repliesFrom (by simp [stuffOps, ecReply]) pend

theorem outBytes_escPuts (pend : Bool) (w : List Byte) : outBytes (ecReplies pend (stuffOps w)) = stuff w := by
  induction w with
  | nil => rfl
  | cons b w ih => exact congrArg (esc b ++ ·) ih

/-- The responses to `UNSTUFF w`: the clear's, those of the puts, and the end's. -/
theorem ecReplies_unstuffOps (pend : Bool) (w : List Byte) : ecReplies pend (unstuffOps w) =
    (⟨.ok, 0, []⟩ :: ecReplies false (w.map .unePut)) ++
      [ecReply ((w.map Instr.unePut).foldl unependAfter false) .uneEnd] := by
  rw [unstuffOps, ecReplies_append]
  rfl

/-- A last introducer is taken without output: the puts before it have put out what they unstuff to. -/
theorem unstuff_dropLast_eq_unePuts {w : List Byte} (h : unstuff w = none) :
    unstuff w.dropLast = some (outBytes (ecReplies false (w.map .unePut))) := by
  obtain ⟨w', v, rfl, hv⟩ := eq_append_esc_of_unstuff_none h
  obtain ⟨hpend, hout⟩ := unePuts_of_unstuff_some hv
  rw [List.dropLast_concat, hv, List.map_append, ecReplies_append, outBytes_append, hout, hpend]
  exact congrArg some (List.append_nil v).symm

/-- A run completes with one response per operation; what the escape codec answers and where it leaves `UNEPEND` depends
on its own operations alone. -/
theorem ec_of_runOps {ops : List Instr} {s : State} (hs : s.Inv) (hops : ∀ i ∈ ops, isOperation i = true) :
    ∃ t rs, runOps ops s = .next t ∧ t.responses = s.responses ++ rs ∧ rs.length = ops.length ∧
      t.unepend = (ops.filter (fun i => unitOf i == .ec)).foldl unependAfter s.unepend ∧
      unitResponses .ec ops rs = ecReplies s.unepend (ops.filter (fun i => unitOf i == .ec)) := by
  obtain ⟨t, ht, -⟩ := runOps_next_of_inv hops hs
  obtain ⟨rs, hrs, hlen, hunit⟩ := unitResponses_runOps (view := State.unepend) exec_unepend unependAfter_of_other
    (fun _ => exec_ecReply) hops ht
  refine ⟨t, rs, ht, hrs, hlen, ?_, hunit⟩
  rw [foldl_filter_unit .ec unependAfter_of_other]
  exact view_runOps (view := State.unepend) exec_unepend hops ht

/-! ### The statements -/

/-- Settles O20: the run answers as the codec's operations alone do, and those put out `unstuff` or `stuff` of their
bytes. -/
theorem interleavedUnePutsComputeUnstuff : Obligations.InterleavedUnePutsComputeUnstuff := by
  intro s ops w hs hops
  obtain ⟨t, rs, ht, hrs, hlen, hpend, hunit⟩ := ec_of_runOps hs hops
  refine ⟨fun hec => ?_, fun hec => ?_⟩
  · rw [hec, ecReplies_unstuffOps] at hunit
    have hclear : t.unepend = false := by
      rw [hpend, hec, unstuffOps, List.foldl_append]
      rfl
    have hok : ∀ r ∈ (⟨.ok, 0, []⟩ : Response) :: ecReplies false (w.map .unePut), r.rc = .ok :=
      List.forall_mem_cons.2 ⟨rfl, rc_of_unePuts false w⟩
    refine ⟨t, rs, ht, hrs, hlen, hclear, fun v hv => ?_, fun hnone => ?_⟩
    · obtain ⟨hfalse, hout⟩ := unePuts_of_unstuff_some hv
      rw [hunit, hfalse]
      exact ⟨List.forall_mem_append.2 ⟨hok, by simp [ecReply]⟩, by simp [hout, ecReply]⟩
    · rw [pending_of_unstuff_none hnone] at hunit
      exact ⟨_, hunit, hok, unstuff_dropLast_eq_unePuts hnone⟩
  · rw [hec] at hunit
    refine ⟨t, rs, ht, hrs, hlen, ?_⟩
    rw [hunit]
    exact ⟨rc_of_escPuts _ w, outBytes_escPuts _ w⟩

/-- Settles O13: the wire form by membership in the escape set, the word by the operand class. -/
theorem escPutAnswersWireForm : Obligations.EscPutAnswersWireForm := by
  refine ⟨fun s b => ⟨fun hb => ?_, fun hb => ?_⟩, byteOperandWord_of_decodeCmd (fun arg => by simp [decodeCmd])⟩
  · rw [exec_ec rfl, ecReply, esc_of_mem hb]
    rfl
  · rw [exec_ec rfl, ecReply, esc_of_not_mem hb]
    rfl

/-- Settles O14: the three cases of the flag and the byte, and the word by the operand class. -/
theorem unePutUnstuffsOneByte : Obligations.UnePutUnstuffsOneByte :=
  ⟨fun _ _ => ⟨execUnePut_of_pending, execUnePut_of_introducer, execUnePut_of_ne⟩,
    byteOperandWord_of_decodeCmd (fun arg => by simp [decodeCmd])⟩

/-- Settles O15: the two cases of the flag, and the word by the operand class. -/
theorem uneEndReportsDanglingEscape : Obligations.UneEndReportsDanglingEscape :=
  fun s => ⟨execUneEnd_of_clear, execUneEnd_of_pending,
    noOperandWord_of_decodeCmd (fun arg => by simp [decodeCmd]) s⟩

/-- Settles O16: the operation by definition, its word by the operand class. -/
theorem uneClrDropsPendingIntroducer : Obligations.UneClrDropsPendingIntroducer :=
  fun s => ⟨rfl, noOperandWord_of_decodeCmd (fun arg => by simp [decodeCmd]) s⟩

end Sys2Proof.Machine
end

section
/-! SUPPORT. The operations of the frame composer (spec 42 R163 to R166) and what they do with the composer's own
registers (R167). -/

namespace Sys2Proof.Machine

/-! ### What each operation does, one equation per outcome (42 R163 to R165) -/

theorem idle_of_ne_opened {p : TxPhase} (h : p ≠ .opened) : p = .idle := by
  cases p with
  | idle => rfl
  | opened => contradiction

section
variable {t b : Byte} {s : State}

theorem isStartType_iff : isStartType t = true ↔ t = Config.TODEV ∨ t = Config.FROMDEV ∨ t = Config.ACK := by
  simp only [isStartType, Bool.or_eq_true, beq_iff_eq, or_assoc]

theorem execTxStart_of_illegal (ht : isStartType t = false) : execTxStart t s = raise .illegal s :=
  if_pos ht

theorem execTxStart_of_opened (ht : isStartType t = true) (h : s.txph = .opened) : execTxStart t s = raise .seq s :=
  (if_neg (Bool.not_eq_false _ ▸ ht)).trans (if_pos h)

theorem execTxStart_of_ack (ht : t = Config.ACK) (h : s.txph = .idle) :
    execTxStart t s = answer 0 [Config.ACK] { s with txcnt := 0, txcrc := Config.INIT } := by
  rw [execTxStart, if_neg (by simp [ht, isStartType]), if_neg (by simp [h]), if_pos ht]

theorem execTxStart_of_frame (ht : isStartType t = true) (hack : t ≠ Config.ACK) (h : s.txph = .idle) :
    execTxStart t s = answer 0 [t] { s with txph := .opened, txcnt := 0, txcrc := Config.INIT } := by
  rw [execTxStart, if_neg (by simp [ht]), if_neg (by simp [h]), if_neg hack]

theorem execTxPut_of_idle (h : s.txph = .idle) : execTxPut b s = raise .seq s :=
  if_pos h

theorem execTxPut_of_opened (h : s.txph = .opened) : execTxPut b s =
    answer 0 (esc b) { s with txcrc := crcByte s.txcrc b, txcnt := txCountNext s.txcnt } :=
  if_neg (by simp [h])

theorem execTxEnd_of_early (h : s.txph = .idle ∨ s.txcnt < 2) : execTxEnd s = raise .seq s :=
  if_pos h

theorem execTxEnd_of_ready (h : ¬ (s.txph = .idle ∨ s.txcnt < 2)) {cs : Half}
    (hcs : cs = crcRun s.txcrc Config.placeholders) : execTxEnd s =
      answer 0 (esc (hi cs) ++ esc (lo cs) ++ [Config.STOP]) { s with txcrc := cs, txph := .idle, txcnt := 0 } := by
  rw [execTxEnd, if_neg h, hcs]

end

/-! ### The composer's registers and responses (42 R167, 70 R277) -/

/-- The composer's own part of the state (10 R25 to R27). -/
structure TxRegs where
  /-- `TXPH`. -/
  ph : TxPhase
  /-- `TXCNT`. -/
  cnt : BitVec 2
  /-- `TXCRC`. -/
  crc : Half

def State.txRegs (s : State) : TxRegs := ⟨s.txph, s.txcnt, s.txcrc⟩

def State.withTxRegs (s : State) (x : TxRegs) : State := { s with txph := x.ph, txcnt := x.cnt, txcrc := x.crc }

/-- What an operation makes of the composer's registers and what it is answered; `exec_tx` ties it to the model. -/
def txStep (x : TxRegs) : Instr → TxRegs × Response
  | .txStart t =>
    if isStartType t = false then (x, ⟨.illegal, 0, []⟩)
    else if x.ph = .opened then (x, ⟨.seq, 0, []⟩)
    else if t = Config.ACK then (⟨x.ph, 0, Config.INIT⟩, ⟨.ok, 0, [Config.ACK]⟩)
    else (⟨.opened, 0, Config.INIT⟩, ⟨.ok, 0, [t]⟩)
  | .txPut b =>
    if x.ph = .idle then (x, ⟨.seq, 0, []⟩)
    else (⟨x.ph, txCountNext x.cnt, crcByte x.crc b⟩, ⟨.ok, 0, esc b⟩)
  | .txEnd =>
    if x.ph = .idle ∨ x.cnt < 2 then (x, ⟨.seq, 0, []⟩)
    else
      let cs := crcRun x.crc Config.placeholders
      (⟨.idle, 0, cs⟩, ⟨.ok, 0, esc (hi cs) ++ esc (lo cs) ++ [Config.STOP]⟩)
  | .txClr => (⟨.idle, 0, Config.INIT⟩, ⟨.ok, 0, []⟩)
  | _ => (x, ⟨.ok, 0, []⟩)

/-- The result `o` has the effect of `p` on the composer's registers, its response, and no other effect. -/
def TxEffect (s : State) (o : Result) (p : TxRegs × Response) : Prop :=
  o = .next ((s.withTxRegs p.1).respond p.2)

theorem execTxStart_effect (t : Byte) (s : State) : TxEffect s (execTxStart t s) (txStep s.txRegs (.txStart t)) := by
  rw [txStep]
  split
  · exact execTxStart_of_illegal ‹_›
  · have ht : isStartType t = true := Bool.not_eq_false _ ▸ ‹¬ isStartType t = false›
    split
    · exact execTxStart_of_opened ht ‹_›
    · have hidle := idle_of_ne_opened ‹_›
      split
      · exact execTxStart_of_ack ‹_› hidle
      · exact execTxStart_of_frame ht ‹_› hidle

theorem execTxPut_effect (b : Byte) (s : State) : TxEffect s (execTxPut b s) (txStep s.txRegs (.txPut b)) := by
  rw [txStep]
  split
  · exact execTxPut_of_idle ‹_›
  · exact if_neg ‹_›

theorem execTxEnd_effect (s : State) : TxEffect s (execTxEnd s) (txStep s.txRegs .txEnd) := by
  rw [txStep]
  split
  · exact execTxEnd_of_early ‹_›
  · exact execTxEnd_of_ready ‹_› rfl

/-- An operation of the composer reads and writes the composer's registers only. -/
theorem exec_tx {i : Instr} (h : unitOf i = .tx) (s : State) : TxEffect s (exec i s) (txStep s.txRegs i) := by
  cases i with
  | txStart t => exact execTxStart_effect t s
  | txPut b => exact execTxPut_effect b s
  | txEnd => exact execTxEnd_effect s
  | txClr => rfl
  | _ => cases h

/-- What an operation makes of the composer's registers. -/
def txAfter (x : TxRegs) (i : Instr) : TxRegs := (txStep x i).1

/-- What an operation of the composer is answered. -/
def txReply (x : TxRegs) (i : Instr) : Response := (txStep x i).2

theorem txAfter_of_other (x : TxRegs) (i : Instr) (h : unitOf i ≠ .tx) : txAfter x i = x := by
  cases i with
  | txStart | txPut | txEnd | txClr => exact absurd rfl h
  | _ => rfl

theorem txRegs_of_agreeOn {s t : State} (h : agreeOn .tx s t) : t.txRegs = s.txRegs := by
  obtain ⟨hph, hcnt, hcrc⟩ := h
  rw [State.txRegs, ← hph, ← hcnt, ← hcrc, State.txRegs]

theorem exec_txRegs {i : Instr} {s t : State} (hi : isOperation i = true) (h : exec i s = .next t) :
    t.txRegs = txAfter s.txRegs i := by
  by_cases hu : unitOf i = .tx
  · cases (exec_tx hu s).symm.trans h; rfl
  · rw [txAfter_of_other _ _ hu]
    exact txRegs_of_agreeOn (exec_keepsOtherUnits hi s t h .tx nofun (Ne.symm hu))

theorem exec_txReply {i : Instr} {s t : State} (hu : unitOf i = .tx) (h : exec i s = .next t) :
    t.responses = s.responses ++ [txReply s.txRegs i] := by
  cases (exec_tx hu s).symm.trans h; rfl

/-! ### The statements on single operations -/

/-- Settles O25: the outcomes of `TX.START` by type and phase, and the word by the operand class. -/
theorem txStartOpensFrame : Obligations.TxStartOpensFrame := by
  refine ⟨fun s t => ⟨?_, ?_, ?_, ?_⟩, byteOperandWord_of_decodeCmd (fun arg => by simp [decodeCmd])⟩
  · rintro hidle (rfl | rfl)
    · exact execTxStart_of_frame rfl (by decide) hidle
    · exact execTxStart_of_frame rfl (by decide) hidle
  · exact fun hidle ht => execTxStart_of_ack ht hidle
  · intro htodev hfromdev hack
    refine execTxStart_of_illegal (Bool.eq_false_iff.2 (mt isStartType_iff.1 ?_))
    rintro (h | h | h)
    · exact htodev h
    · exact hfromdev h
    · exact hack h
  · exact fun hopened ht => execTxStart_of_opened (isStartType_iff.2 ht) hopened

/-- Settles O26: the two phases, and the word by the operand class. -/
theorem txPutEmitsAndChecksumsByte : Obligations.TxPutEmitsAndChecksumsByte :=
  ⟨fun _ _ => ⟨execTxPut_of_opened, execTxPut_of_idle⟩, byteOperandWord_of_decodeCmd (fun arg => by simp [decodeCmd])⟩

/-- Settles O27: a frame with both of its first bytes or not, and the word by the operand class. -/
theorem txEndEmitsChecksumAndStop : Obligations.TxEndEmitsChecksumAndStop := by
  refine fun s => ⟨fun hopened hcnt cs hcs => execTxEnd_of_ready ?_ hcs, execTxEnd_of_early,
    noOperandWord_of_decodeCmd (fun arg => by simp [decodeCmd]) s⟩
  rintro (hidle | hlt)
  · exact nomatch hidle.symm.trans hopened
  · exact absurd hlt (Nat.not_lt.2 hcnt)

/-- Settles O28: the operation by definition, its word by the operand class. -/
theorem txClrAbandonsFrame : Obligations.TxClrAbandonsFrame :=
  fun s => ⟨rfl, noOperandWord_of_decodeCmd (fun arg => by simp [decodeCmd]) s⟩

end Sys2Proof.Machine
end

section
/-! SUPPORT. The encoded frame (spec 42 R160, R162, R169), and the composer's operations in order, with any operations of
other units between, put it out (R167). -/

namespace Sys2Proof.Machine

/-! ### `encode` (42 R160, R169) -/

theorem stuff_append (s s' : List Byte) : stuff (s ++ s') = stuff s ++ stuff s' := by
  simp only [stuff_eq_flatMap, List.flatMap_append]

/-- The checksum of a frame is the register after its bytes, taken over the placeholders. -/
theorem frameChecksum_eq (a c : Byte) (data : List Byte) :
    frameChecksum a c data = crcRun (crcRun Config.INIT (a :: c :: data)) Config.placeholders :=
  crcRun_append Config.INIT (a :: c :: data) Config.placeholders

theorem encodeFrame_of_ne_ack {t : FrameType} (ht : t ≠ .acknowledge) (a c : Byte) (data : List Byte) :
    encodeFrame t a c data = encodeBody (typeByte t) a c data := by
  cases t with
  | toDevice | fromDevice => rfl
  | acknowledge => contradiction

/-- Settles O29: between the type byte and the stop byte stands the wire form of the region, which is `data` and four
bytes more. -/
theorem encodedFrameShape : Obligations.EncodedFrameShape := by
  intro t a c data ht
  obtain ⟨-, hlower, hupper, havoid, -⟩ := stuffedBytesAvoidControlValues
    ([a, c] ++ data ++ [hi (frameChecksum a c data), lo (frameChecksum a c data)])
  rw [encodeFrame_of_ne_ack ht]
  simp only [List.length_append, List.length_cons, List.length_nil] at hlower hupper
  have hlen : (encodeBody (typeByte t) a c data).length =
      (stuff ([a, c] ++ data ++ [hi (frameChecksum a c data), lo (frameChecksum a c data)])).length + 2 :=
    List.length_append
  exact ⟨_, rfl, by omega, by omega, havoid⟩

/-! ### `TX.START`, `TX.PUT`s and `TX.END` one after another (42 R167) -/

theorem composeOps_of_ne_ack {t : FrameType} (ht : t ≠ .acknowledge) (a c : Byte) (data : List Byte) :
    composeOps t a c data = .txStart (typeByte t) :: ((a :: c :: data).map .txPut ++ [.txEnd]) := by
  cases t with
  | toDevice | fromDevice => rfl
  | acknowledge => contradiction

/-- A start of a frame of either type, in the idle phase. -/
theorem txStep_txStart_of_idle {t : FrameType} {x : TxRegs} (ht : t ≠ .acknowledge) (hx : x.ph = .idle) :
    txStep x (.txStart (typeByte t)) = (⟨.opened, 0, Config.INIT⟩, ⟨.ok, 0, [typeByte t]⟩) := by
  cases t with
  | toDevice | fromDevice => rw [txStep, if_neg nofun, if_neg (by simp [hx]), if_neg (by decide)]
  | acknowledge => contradiction

theorem txStep_txStart_ack_of_idle {x : TxRegs} (hx : x.ph = .idle) :
    txStep x (.txStart Config.ACK) = (⟨.idle, 0, Config.INIT⟩, ⟨.ok, 0, [Config.ACK]⟩) := by
  rw [txStep, if_neg nofun, if_neg (by simp [hx]), if_pos rfl, hx]

theorem txStep_txPut_of_opened (cnt : BitVec 2) (crc : Half) (b : Byte) :
    txStep ⟨.opened, cnt, crc⟩ (.txPut b) = (⟨.opened, txCountNext cnt, crcByte crc b⟩, ⟨.ok, 0, esc b⟩) := by
  rw [txStep, if_neg nofun]

theorem txStep_txEnd_of_ready {crc cs : Half} (hcs : cs = crcRun crc Config.placeholders) :
    txStep ⟨.opened, 2, crc⟩ .txEnd = (⟨.idle, 0, cs⟩, ⟨.ok, 0, esc (hi cs) ++ esc (lo cs) ++ [Config.STOP]⟩) := by
  rw [txStep, if_neg (by simp), hcs]

/-- After two bytes `TXCNT` stays at 2. -/
theorem foldl_txAfter_txPuts_of_two (crc : Half) (msg : List Byte) :
    (msg.map Instr.txPut).foldl txAfter ⟨.opened, 2, crc⟩ = ⟨.opened, 2, crcRun crc msg⟩ := by
  induction msg generalizing crc with
  | nil => rfl
  | cons b msg ih =>
    rw [List.map_cons, List.foldl_cons, txAfter, txStep_txPut_of_opened]
    exact ih (crcByte crc b)

theorem foldl_txAfter_txPuts (crc : Half) (a c : Byte) (data : List Byte) :
    ((a :: c :: data).map Instr.txPut).foldl txAfter ⟨.opened, 0, crc⟩ = ⟨.opened, 2, crcRun crc (a :: c :: data)⟩ := by
  rw [List.map_cons, List.foldl_cons, txAfter, txStep_txPut_of_opened, List.map_cons, List.foldl_cons, txAfter,
    txStep_txPut_of_opened]
  exact foldl_txAfter_txPuts_of_two _ data

/-- The responses to operations of the composer one after another. -/
def txReplies : TxRegs → List Instr → List Response := repliesFrom txAfter txReply

theorem txReplies_txPuts (cnt : BitVec 2) (crc : Half) (msg : List Byte) :
    txReplies ⟨.opened, cnt, crc⟩ (msg.map .txPut) = msg.map (fun b => ⟨.ok, 0, esc b⟩) := by
  induction msg generalizing cnt crc with
  | nil => rfl
  | cons b msg ih =>
    rw [List.map_cons, txReplies, repliesFrom, txReply, txAfter, txStep_txPut_of_opened, List.map_cons]
    exact congrArg _ (ih (txCountNext cnt) (crcByte crc b))

theorem outBytes_map_esc (msg : List Byte) : outBytes (msg.map (fun b => ⟨.ok, 0, esc b⟩)) = stuff msg := by
  rw [outBytes, List.flatMap_map, stuff_eq_flatMap]

theorem foldl_txAfter_composeOps {t : FrameType} {x : TxRegs} (ht : t ≠ .acknowledge) (hx : x.ph = .idle)
    (a c : Byte) (data : List Byte) :
    (composeOps t a c data).foldl txAfter x = ⟨.idle, 0, frameChecksum a c data⟩ := by
  rw [composeOps_of_ne_ack ht, List.foldl_cons, txAfter, txStep_txStart_of_idle ht hx, List.foldl_append,
    foldl_txAfter_txPuts, List.foldl_cons, txAfter, txStep_txEnd_of_ready (frameChecksum_eq a c data), List.foldl_nil]

/-- The responses to the operations of a frame: the type byte, the wire forms of its bytes, and the end of the frame. -/
theorem txReplies_composeOps {t : FrameType} {x : TxRegs} (ht : t ≠ .acknowledge) (hx : x.ph = .idle)
    (a c : Byte) (data : List Byte) {cs : Half} (hcs : cs = frameChecksum a c data) :
    txReplies x (composeOps t a c data) =
      ⟨.ok, 0, [typeByte t]⟩ :: ((a :: c :: data).map (fun b => ⟨.ok, 0, esc b⟩) ++
        [⟨.ok, 0, esc (hi cs) ++ esc (lo cs) ++ [Config.STOP]⟩]) := by
  rw [frameChecksum_eq] at hcs
  have hputs := txReplies_txPuts 0 Config.INIT (a :: c :: data)
  rw [txReplies] at hputs
  rw [composeOps_of_ne_ack ht, txReplies, repliesFrom, txReply, txAfter, txStep_txStart_of_idle ht hx,
    repliesFrom_append, foldl_txAfter_txPuts, hputs, repliesFrom, txReply, txStep_txEnd_of_ready hcs, repliesFrom]

/-- The wire bytes of a frame are those of its start, of its bytes and of its end. -/
theorem encodeBody_eq (t a c : Byte) (data : List Byte) {cs : Half} (hcs : cs = frameChecksum a c data) :
    encodeBody t a c data = t :: (stuff (a :: c :: data) ++ (esc (hi cs) ++ esc (lo cs) ++ [Config.STOP])) := by
  have hregion : stuff ([a, c] ++ data ++ [hi cs, lo cs]) = stuff (a :: c :: data) ++ (esc (hi cs) ++ esc (lo cs)) := by
    rw [stuff_append]
    simp [stuff]
  rw [encodeBody, ← hcs, hregion]
  simp only [List.cons_append, List.nil_append, List.append_assoc]

/-- The composer's operations leave it idle with `TXCNT` 0, all answer `OK`, and put out the frame. -/
theorem composeOps_spec {x : TxRegs} (hx : x.ph = .idle) (t : FrameType) (a c : Byte) (data : List Byte) :
    (∀ r ∈ txReplies x (composeOps t a c data), r.rc = .ok) ∧
    outBytes (txReplies x (composeOps t a c data)) = encodeFrame t a c data ∧
    ((composeOps t a c data).foldl txAfter x).ph = .idle ∧ ((composeOps t a c data).foldl txAfter x).cnt = 0 ∧
    (t ≠ .acknowledge → ((composeOps t a c data).foldl txAfter x).crc = frameChecksum a c data) := by
  by_cases ht : t = .acknowledge
  · subst ht
    simp [composeOps, encodeFrame, txReplies, repliesFrom, txReply, txAfter, txStep_txStart_ack_of_idle hx]
  · rw [foldl_txAfter_composeOps ht hx, txReplies_composeOps ht hx a c data rfl, encodeFrame_of_ne_ack ht,
      encodeBody_eq _ a c data rfl, outBytes_cons, outBytes_append, outBytes_map_esc]
    refine ⟨?_, by simp, by simp, by simp, by simp⟩
    simp only [List.forall_mem_cons, List.forall_mem_append, List.forall_mem_map, List.not_mem_nil, false_imp_iff,
      implies_true, and_self]

/-! ### The statement -/

/-- Settles O30: the run completes by the invariants, and the composer answers as its own operations alone do. -/
theorem interleavedComposeEmitsEncodedFrame : Obligations.InterleavedComposeEmitsEncodedFrame := by
  intro s ops t a c data hs hidle hops htx
  obtain ⟨u, hu, -⟩ := runOps_next_of_inv hops hs
  obtain ⟨rs, hrs, hlen, hunit⟩ := unitResponses_runOps (view := State.txRegs) exec_txRegs txAfter_of_other
    (fun _ => exec_txReply) hops hu
  have hregs : u.txRegs = (composeOps t a c data).foldl txAfter s.txRegs := by
    rw [← htx, foldl_filter_unit .tx txAfter_of_other]
    exact view_runOps (view := State.txRegs) exec_txRegs hops hu
  obtain ⟨hok, hout, hph, hcnt, hcrc⟩ := composeOps_spec (x := s.txRegs) hidle t a c data
  rw [← hregs] at hph hcnt hcrc
  rw [txReplies, ← htx, ← hunit] at hok hout
  exact ⟨u, rs, hu, hrs, hlen, hok, hout, hph, hcnt, hcrc⟩

end Sys2Proof.Machine
end

section
/-! SUPPORT. Which raw inputs `decode` sends to which result (spec 43 R180, R182, R183): a relation with one constructor per
way to reach a result, and the proof that `decode` is exactly this relation. -/

namespace Sys2Proof.Machine

/-! ### Unescaping and the fields of a frame (43 R180, R182) -/

/-- The bytes between the first and the last are unstuffed; there is no last byte after a lone first one. -/
theorem unescapeFrame_eq (first : Byte) (rest : List Byte) :
    unescapeFrame first rest = (unstuff rest.dropLast).map (fun v => first :: (v ++ rest.getLast?.toList)) := by
  cases rest with
  | nil => rfl
  | cons b bs =>
    rw [unescapeFrame, List.getLast?_cons, List.getLastD_eq_getLast?]
    rfl

theorem isFrameType_iff_mem (t : Byte) : isFrameType t = true ↔ t ∈ [0x00, 0x80, 0x40] := by
  simp [isFrameType, or_assoc]

theorem decodeFrame_of_unstuff_none {b : Byte} {rest : List Byte} (h : unstuff rest.dropLast = none) :
    decodeFrame (b :: rest) = .short :=
  decodeFrame_of_dangling (by rw [unescapeFrame_eq, h]; rfl)

theorem decodeFrame_of_unstuff {b : Byte} {rest v : List Byte} (h : unstuff rest.dropLast = some v) :
    decodeFrame (b :: rest) =
      if b = Config.ACK then .ackd else if isFrameType b = false then .type
      else decodeFields (b :: (v ++ rest.getLast?.toList)) :=
  decodeFrame_of_unescapeFrame (by rw [unescapeFrame_eq, h]; rfl)

theorem decodeFrame_of_ack {rest : List Byte} (h : unstuff rest.dropLast ≠ none) :
    decodeFrame (Config.ACK :: rest) = .ackd := by
  obtain ⟨v, hv⟩ := Option.ne_none_iff_exists'.1 h
  rw [decodeFrame_of_unstuff hv, if_pos rfl]

theorem decodeFrame_of_noType {b : Byte} {rest : List Byte} (hb : b ∉ [0x06, 0x00, 0x80, 0x40])
    (h : unstuff rest.dropLast ≠ none) : decodeFrame (b :: rest) = .type := by
  obtain ⟨hack, hty⟩ : b ≠ Config.ACK ∧ b ∉ [0x00, 0x80, 0x40] := not_or.1 (mt List.mem_cons.2 hb)
  obtain ⟨v, hv⟩ := Option.ne_none_iff_exists'.1 h
  rw [decodeFrame_of_unstuff hv, if_neg hack, if_pos (Bool.eq_false_iff.2 (mt (isFrameType_iff_mem b).1 hty))]

theorem ne_ack_of_mem_frameTypes : ∀ t ∈ [0x00, 0x80, 0x40], t ≠ Config.ACK := by decide

theorem decodeFrame_of_frameType {t : Byte} {rest v : List Byte} (ht : t ∈ [0x00, 0x80, 0x40])
    (h : unstuff rest.dropLast = some v) :
    decodeFrame (t :: rest) = decodeFields (t :: (v ++ rest.getLast?.toList)) := by
  rw [decodeFrame_of_unstuff h, if_neg (ne_ack_of_mem_frameTypes t ht),
    if_neg (by rw [(isFrameType_iff_mem t).2 ht]; nofun)]

theorem decodeFields_of_short {u : List Byte} (h : u.length < Config.MINLEN) : decodeFields u = .short :=
  if_pos h

theorem length_unescaped (t : Byte) (v rest : List Byte) :
    (t :: (v ++ rest.getLast?.toList)).length = 1 + v.length + min 1 rest.length := by
  cases rest with
  | nil => simp; omega
  | cons b bs => simp [List.getLast?_cons]; omega

/-- Steps 5 to 9 of `decode` on a type byte, a payload with two checksum bytes, and a last byte. -/
theorem decodeFields_of_payload (t a c : Byte) (data : List Byte) (x y z : Byte) :
    decodeFields (t :: ([a, c] ++ data ++ [x, y] ++ [z])) =
      if x ≠ hi (frameChecksum a c data) ∨ y ≠ lo (frameChecksum a c data) then .csum
      else if z ≠ Config.STOP then .short else .frame t a c data := by
  have hlen : (t :: ([a, c] ++ data ++ [x, y] ++ [z])).length = data.length + 6 := by simp
  have hdata : ((t :: ([a, c] ++ data ++ [x, y] ++ [z])).take (data.length + 6 - 3)).drop 3 = data := by simp
  have hx : byteAt (t :: ([a, c] ++ data ++ [x, y] ++ [z])) (data.length + 6 - 3) = x := by simp [byteAt]
  have hy : byteAt (t :: ([a, c] ++ data ++ [x, y] ++ [z])) (data.length + 6 - 2) = y := by simp [byteAt]
  have hz : byteAt (t :: ([a, c] ++ data ++ [x, y] ++ [z])) (data.length + 6 - 1) = z := by simp [byteAt]
  have h6 : ¬ data.length + 6 < Config.MINLEN := Nat.not_lt.2 (Nat.le_add_left 6 _)
  simp only [decodeFields, hlen, hdata, hx, hy, hz, if_neg h6]
  rfl

/-- A frame type, a payload with two checksum bytes, and a last byte: the checksum is compared before the last byte. -/
theorem decodeFrame_of_payload {t a c x y z : Byte} {mid data : List Byte} (ht : t ∈ [0x00, 0x80, 0x40])
    (h : unstuff mid = some ([a, c] ++ data ++ [x, y])) :
    decodeFrame ([t] ++ mid ++ [z]) =
      if x ≠ hi (frameChecksum a c data) ∨ y ≠ lo (frameChecksum a c data) then .csum
      else if z ≠ Config.STOP then .short else .frame t a c data := by
  rw [← decodeFields_of_payload t a c data x y z]
  have hmid : unstuff (mid ++ [z]).dropLast = some ([a, c] ++ data ++ [x, y]) := by rw [List.dropLast_concat, h]
  rw [List.append_assoc, List.singleton_append, decodeFrame_of_frameType ht hmid, List.getLast?_concat]
  rfl

/-- Four bytes or more are two, any number of data bytes, and two more. -/
theorem exists_payload {v : List Byte} (h : 4 ≤ v.length) : ∃ a c data x y, v = [a, c] ++ data ++ [x, y] := by
  match v, h with
  | a :: c :: w, h =>
    obtain ⟨w₁, y, rfl⟩ := (List.eq_nil_or_concat' w).resolve_left (by rintro rfl; simp at h)
    obtain ⟨data, x, rfl⟩ := (List.eq_nil_or_concat' w₁).resolve_left (by rintro rfl; simp at h)
    exact ⟨a, c, data, x, y, by simp⟩

/-! ### Every way to a result -/

/-- The raw inputs of each result: `decode` is this relation, by `decodeFrame_eq_iff`. -/
inductive DecodesTo : List Byte → Decoded → Prop
  | empty : DecodesTo [] .empty
  | dangling {b : Byte} {rest : List Byte} (h : unstuff rest.dropLast = none) : DecodesTo (b :: rest) .short
  | ackd {rest : List Byte} (h : unstuff rest.dropLast ≠ none) : DecodesTo (Config.ACK :: rest) .ackd
  | type {b : Byte} {rest : List Byte} (hb : b ∉ [0x06, 0x00, 0x80, 0x40]) (h : unstuff rest.dropLast ≠ none) :
      DecodesTo (b :: rest) .type
  | tooShort {t : Byte} {rest v : List Byte} (ht : t ∈ [0x00, 0x80, 0x40]) (h : unstuff rest.dropLast = some v)
      (hlen : 1 + v.length + min 1 rest.length < 6) : DecodesTo (t :: rest) .short
  | csum {t a c x y z : Byte} {mid data : List Byte} (ht : t ∈ [0x00, 0x80, 0x40])
      (h : unstuff mid = some ([a, c] ++ data ++ [x, y]))
      (hcs : ¬(x = hi (frameChecksum a c data) ∧ y = lo (frameChecksum a c data))) :
      DecodesTo ([t] ++ mid ++ [z]) .csum
  | noStop {t a c z : Byte} {mid data : List Byte} (ht : t ∈ [0x00, 0x80, 0x40])
      (h : unstuff mid = some ([a, c] ++ data ++ [hi (frameChecksum a c data), lo (frameChecksum a c data)]))
      (hz : z ≠ Config.STOP) : DecodesTo ([t] ++ mid ++ [z]) .short
  | frame {t a c : Byte} {mid data : List Byte} (ht : t ∈ [0x00, 0x80, 0x40])
      (h : unstuff mid = some ([a, c] ++ data ++ [hi (frameChecksum a c data), lo (frameChecksum a c data)])) :
      DecodesTo ([t] ++ mid ++ [Config.STOP]) (.frame t a c data)

theorem DecodesTo.decodeFrame_eq {raw : List Byte} {d : Decoded} (h : DecodesTo raw d) : decodeFrame raw = d := by
  cases h with
  | empty => rfl
  | dangling h => exact decodeFrame_of_unstuff_none h
  | ackd h => exact decodeFrame_of_ack h
  | type hb h => exact decodeFrame_of_noType hb h
  | tooShort ht h hlen =>
    rw [decodeFrame_of_frameType ht h, decodeFields_of_short ((length_unescaped ..).trans_lt hlen)]
  | csum ht h hcs => rw [decodeFrame_of_payload ht h, if_pos (Decidable.not_and_iff_not_or_not.1 hcs)]
  | noStop ht h hz => rw [decodeFrame_of_payload ht h, if_neg (by simp), if_pos hz]
  | frame ht h => rw [decodeFrame_of_payload ht h, if_neg (by simp), if_neg (by simp)]

/-- A frame type in front of a payload long enough for its fields: the checksum and the last byte decide. -/
theorem exists_decodesTo_of_payload {t z : Byte} {mid v : List Byte} (ht : t ∈ [0x00, 0x80, 0x40])
    (h : unstuff mid = some v) (hlen : 4 ≤ v.length) : ∃ d, DecodesTo ([t] ++ mid ++ [z]) d := by
  obtain ⟨a, c, data, x, y, rfl⟩ := exists_payload hlen
  by_cases hcs : x = hi (frameChecksum a c data) ∧ y = lo (frameChecksum a c data)
  · obtain ⟨rfl, rfl⟩ := hcs
    by_cases hz : z = Config.STOP
    · subst hz
      exact ⟨_, .frame ht h⟩
    · exact ⟨_, .noStop ht h hz⟩
  · exact ⟨_, .csum ht h hcs⟩

theorem exists_decodesTo (raw : List Byte) : ∃ d, DecodesTo raw d := by
  match raw with
  | [] => exact ⟨_, .empty⟩
  | b :: rest =>
    cases h : unstuff rest.dropLast with
    | none => exact ⟨_, .dangling h⟩
    | some v =>
      have hsome : unstuff rest.dropLast ≠ none := by simp [h]
      by_cases hack : b = Config.ACK
      · subst hack
        exact ⟨_, .ackd hsome⟩
      by_cases ht : b ∈ [0x00, 0x80, 0x40]
      · by_cases hlen : 1 + v.length + min 1 rest.length < 6
        · exact ⟨_, .tooShort ht h hlen⟩
        · obtain rfl | ⟨mid, z, rfl⟩ := List.eq_nil_or_concat' rest
          · cases h
            simp at hlen
          · rw [List.dropLast_concat] at h
            exact exists_decodesTo_of_payload ht h (by simp at hlen; omega)
      · exact ⟨_, .type (mt List.mem_cons.1 (not_or.2 ⟨hack, ht⟩)) hsome⟩

theorem decodeFrame_eq_iff {raw : List Byte} {d : Decoded} : decodeFrame raw = d ↔ DecodesTo raw d := by
  refine ⟨?_, DecodesTo.decodeFrame_eq⟩
  rintro rfl
  obtain ⟨d, hd⟩ := exists_decodesTo raw
  rwa [hd.decodeFrame_eq]

/-! ### The statements -/

/-- Settles O35: of the ways to a result one ends in a frame. -/
theorem decodeAcceptsExactlyTheFrames : Obligations.DecodeAcceptsExactlyTheFrames := by
  intro raw t a c data
  rw [decodeFrame_eq_iff]
  constructor
  · intro h
    cases h with
    | frame ht h => exact ⟨ht, _, rfl, h⟩
  · rintro ⟨ht, mid, rfl, h⟩
    exact .frame ht h

/-- Settles O36: each class has the ways of `DecodesTo` that end in it, three of them for `SHORT`. -/
theorem decodeFailureClassesAreExact : Obligations.DecodeFailureClassesAreExact := by
  intro raw
  simp only [decodeFrame_eq_iff]
  refine ⟨⟨?_, ?_⟩, ⟨?_, ?_⟩, ⟨?_, ?_⟩, ⟨?_, ?_⟩, ⟨?_, ?_⟩⟩
  · intro h
    cases h with
    | empty => rfl
  · rintro rfl
    exact .empty
  · intro h
    cases h with
    | ackd h => exact ⟨_, rfl, h⟩
  · rintro ⟨rest, rfl, h⟩
    exact .ackd h
  · intro h
    cases h with
    | type hb h => exact ⟨_, _, rfl, hb, h⟩
  · rintro ⟨b, rest, rfl, hb, h⟩
    exact .type hb h
  · intro h
    cases h with
    | csum ht h hcs => exact ⟨_, _, _, _, _, _, _, _, rfl, ht, h, hcs⟩
  · rintro ⟨t, mid, z, a, c, data, x, y, rfl, ht, h, hcs⟩
    exact .csum ht h hcs
  · intro h
    cases h with
    | dangling h => exact .inl ⟨_, _, rfl, h⟩
    | tooShort ht h hlen => exact .inr (.inl ⟨_, _, _, rfl, ht, h, hlen⟩)
    | noStop ht h hz => exact .inr (.inr ⟨_, _, _, _, _, _, rfl, ht, hz, h⟩)
  · rintro (⟨b, rest, rfl, h⟩ | ⟨t, rest, v, rfl, ht, h, hlen⟩ | ⟨t, mid, z, a, c, data, rfl, ht, hz, h⟩)
    · exact .dangling h
    · exact .tooShort ht h hlen
    · exact .noStop ht h hz

theorem typeByte_mem_frameTypes {t : FrameType} (ht : t ≠ .acknowledge) : typeByte t ∈ [0x00, 0x80, 0x40] := by
  cases t with
  | toDevice | fromDevice => decide
  | acknowledge => contradiction

/-- Settles O37: the interior of an encoded frame is stuffed, and unstuffing inverts that whatever its last two bytes. -/
theorem decodeInvertsEncode : Obligations.DecodeInvertsEncode := by
  refine fun t a c data => ⟨fun ht => ?_, rfl, fun x y ht hcs => ?_⟩
  · rw [encodeFrame_of_ne_ack ht]
    exact (DecodesTo.frame (typeByte_mem_frameTypes ht) (unstuff_stuff _)).decodeFrame_eq
  · exact (DecodesTo.csum (typeByte_mem_frameTypes ht) (unstuff_stuff _) hcs).decodeFrame_eq

end Sys2Proof.Machine
end

section
/-! SUPPORT. The operations of the frame decomposer (spec 43 R184 to R186, R199): what `RX.END` keeps of the raw bytes, and
that a held result stays the result of the bytes in `RXBUF`. -/

namespace Sys2Proof.Machine

/-! ### The raw bytes in `RXBUF` -/

theorem readBytes_eq_ok_iff_mapM (m : Memory) (i n : Nat) (vs : List Byte) :
    readBytes m i n = .ok vs ↔ (List.range' i n).mapM (fun k => m.get k) = some vs := by
  induction n generalizing i vs with
  | zero => simp [readBytes]
  | succ n ih =>
    rw [readBytes, List.range'_succ, List.mapM_cons, memRead]
    cases m.get i with
    | none => simp
    | some v =>
      cases hr : readBytes m (i + 1) n with
      | ok ws => simp [(ih (i + 1) ws).1 hr]
      | error f =>
        cases hw : (List.range' (i + 1) n).mapM (fun k => m.get k) with
        | none => simp
        | some ws => cases hr.symm.trans ((ih (i + 1) ws).2 hw)

/-- The raw input of the statements is what `RX.END` reads. -/
theorem raw_eq_some_iff {s : State} {raw : List Byte} :
    s.raw = some raw ↔ readBytes s.rxbuf 0 s.rxlen.toNat = .ok raw := by
  rw [readBytes_eq_ok_iff_mapM, ← List.range_eq_range', State.raw]

theorem readBytes_set_succ {m : Memory} {n : Nat} {raw : List Byte} (h : readBytes m 0 n = .ok raw) (b : Byte) :
    readBytes (m.set n b) 0 (n + 1) = .ok (raw ++ [b]) := by
  obtain ⟨rfl, hget⟩ := (readBytes_ok _ _ _ _).1 h
  refine (readBytes_ok _ _ _ _).2 ⟨by simp, fun k hk => ?_⟩
  rw [Nat.zero_add]
  obtain rfl | hlt := Nat.eq_or_lt_of_le (Nat.le_of_lt_succ hk)
  · simp
  · rw [Memory.get_set_other _ _ _ _ hlt.ne, List.getElem?_append_left hlt, ← hget k hlt, Nat.zero_add]

theorem covers_of_readBytes {m : Memory} {n : Nat} {raw : List Byte} (h : readBytes m 0 n = .ok raw) : m.covers n := by
  obtain ⟨rfl, hget⟩ := (readBytes_ok _ _ _ _).1 h
  intro k hk
  rw [← Nat.zero_add k, hget k hk]
  simpa using hk

/-! ### What `RX.END` keeps (43 R186) -/

/-- On its way from `s` to `t` the block keeps the decode result of `raw` in the result registers and `RXDATA` below
`RXDLEN`, answers its number, and changes nothing else. -/
structure KeepsResult (s : State) (raw : List Byte) (t : State) : Prop where
  result : t.ResultOf raw
  no_frame : t.rxstat ≠ .frame → t.rxaddr = 0 ∧ t.rxcmd = 0 ∧ t.rxdlen = 0 ∧ t.rxdata = s.rxdata
  data_above : ∀ k, t.rxdlen.toNat ≤ k → t.rxdata.get k = s.rxdata.get k
  frame : t = { s with rxstat := t.rxstat, rxtype := t.rxtype, rxaddr := t.rxaddr, rxcmd := t.rxcmd, rxdlen := t.rxdlen,
                       rxdata := t.rxdata,
                       responses := s.responses ++ [⟨.ok, BitVec.ofNat 16 (rxStatCode t.rxstat).toNat, []⟩] }

/-- The type of a frame is the first raw byte. -/
theorem headD_of_decodeFrame_frame {raw data : List Byte} {t a c : Byte} (h : decodeFrame raw = .frame t a c data) :
    raw.headD 0 = t := by
  obtain ⟨-, mid, rfl, -⟩ := (decodeAcceptsExactlyTheFrames raw t a c data).1 h
  rfl

theorem rxKeep_of_noFrame {d : Decoded} (h : ∀ ty a c data, d ≠ .frame ty a c data) (rxmax : Nat) (s : State) :
    rxKeep rxmax d s = rxFinish (decodedStat d) s := by
  cases d with
  | frame ty a c data => exact absurd rfl (h ty a c data)
  | empty | short | type | csum | ackd => rfl

section
variable {s t : State} {raw : List Byte}

/-- A result that is no frame, with the result registers cleared: `OVFL`, or the class of the raw bytes. -/
theorem keepsResult_of_noFrame {st : RxStat}
    (hres : if s.rxovf then st = .ovfl else st = decodedStat (decodeFrame raw) ∧
      ∀ ty a c data, decodeFrame raw ≠ .frame ty a c data)
    (h : rxFinish st { s with rxtype := raw.headD 0, rxaddr := 0, rxcmd := 0, rxdlen := 0 } = .next t) :
    KeepsResult s raw t := by
  rw [rxFinish_eq, zeros_append_rxStatCode] at h
  cases h
  refine ⟨⟨rfl, ?_⟩, fun _ => ⟨rfl, rfl, rfl, rfl⟩, fun _ _ => rfl, rfl⟩
  cases hovf : s.rxovf with
  | true => simpa [hovf] using hres
  | false =>
    obtain ⟨hclass, hno⟩ : _ ∧ _ := by simpa [hovf] using hres
    simpa [hovf, hclass] using fun ty a c data hd => absurd hd (hno ty a c data)

/-- A frame: its fields fit the registers and its data are written from index 0 on. -/
theorem keepsResult_of_frame {rxmax : Nat} {ty a c : Byte} {data : List Byte} (hovf : s.rxovf = false)
    (hd : decodeFrame raw = .frame ty a c data) (hlen : data.length < 2 ^ 16)
    (h : rxKeep rxmax (.frame ty a c data) { s with rxtype := raw.headD 0, rxaddr := 0, rxcmd := 0, rxdlen := 0 } = .next t) :
    KeepsResult s raw t := by
  obtain ⟨-, hdata⟩ := rxKeep_memories (fun _ _ _ _ he => by cases he; exact hlen) h
  obtain ⟨_, _, _, _, m, he, hm, rfl⟩ | ⟨he, -⟩ | ⟨he, -⟩ | ⟨he, -⟩ | ⟨he, -⟩ | ⟨he, -⟩ := rxKeep_cases _ _ _ _ h
  all_goals cases he
  obtain ⟨-, hget, -⟩ := writeBytes_ok _ _ _ _ _ hm
  refine ⟨⟨rfl, ?_⟩, fun hne => absurd rfl hne, hdata, rfl⟩
  simp only [State.respond_rxovf, hovf, Bool.false_eq_true, if_false, hd]
  refine ⟨rfl, fun _ _ _ _ he => ?_⟩
  cases he
  refine ⟨headD_of_decodeFrame_frame hd, rfl, rfl, Nat.mod_eq_of_lt hlen, fun k hk => ?_⟩
  simpa using hget k hk

theorem rxEnd_keepsResult {rxmax : Nat} (hfill : s.rxstat = .fill) (hraw : readBytes s.rxbuf 0 s.rxlen.toNat = .ok raw)
    (h : rxEnd rxmax s = .next t) : KeepsResult s raw t := by
  rw [rxEnd_of_raw rxmax hfill hraw] at h
  split at h
  · exact keepsResult_of_noFrame (by simp [*]) h
  · have hovf : s.rxovf = false := Bool.eq_false_iff.2 ‹_›
    by_cases hframe : ∃ ty a c data, decodeFrame raw = .frame ty a c data
    · obtain ⟨ty, a, c, data, hd⟩ := hframe
      have hfits := length_le_of_decodeFrame_frame hd
      obtain ⟨hlen, -⟩ := (readBytes_ok _ _ _ _).1 hraw
      rw [hd] at h
      exact keepsResult_of_frame hovf hd (by have := s.rxlen.isLt; omega) h
    · simp only [not_exists] at hframe
      rw [rxKeep_of_noFrame hframe] at h
      exact keepsResult_of_noFrame (by simp [hovf, hframe]) h

theorem KeepsResult.raw_eq (h : KeepsResult s raw t) : t.raw = s.raw :=
  (congrArg State.raw h.frame).trans rfl

theorem KeepsResult.responses_eq (h : KeepsResult s raw t) :
    t.responses = s.responses ++ [⟨.ok, BitVec.ofNat 16 (rxStatCode t.rxstat).toNat, []⟩] :=
  congrArg State.responses h.frame

/-! ### A held result stays the result of the bytes in `RXBUF` -/

/-- `ResultOf` and `HoldsResultOfBuffer` speak of the decomposer's part of the state only. -/
theorem resultOf_of_agreeOn (h : agreeOn .rx s t) (hs : s.ResultOf raw) : t.ResultOf raw := by
  obtain ⟨⟩ := s
  obtain ⟨⟩ := t
  obtain ⟨rfl, rfl, rfl, rfl, rfl, rfl, rfl, rfl, rfl⟩ := h
  exact hs

theorem raw_of_agreeOn (h : agreeOn .rx s t) : t.raw = s.raw := by
  obtain ⟨hlen, -, -, -, -, -, -, hbuf, -⟩ := h
  rw [State.raw, State.raw, hlen, hbuf]

theorem holdsResult_of_agreeOn (h : agreeOn .rx s t) (hs : s.HoldsResultOfBuffer) : t.HoldsResultOfBuffer := by
  have ⟨_, _, hstat, _⟩ := h
  intro hheld
  obtain ⟨raw, hraw, hres⟩ := hs (hstat ▸ hheld)
  exact ⟨raw, (raw_of_agreeOn h).trans hraw, resultOf_of_agreeOn h hres⟩

theorem holdsResult_of_fill (h : s.rxstat = .fill) : s.HoldsResultOfBuffer :=
  fun hheld => absurd h hheld

theorem holdsResult_respond (hs : s.HoldsResultOfBuffer) (r : Response) : (s.respond r).HoldsResultOfBuffer :=
  holdsResult_of_agreeOn (agreeOn_respond (agreeOn_refl .rx s) r) hs

theorem holdsResult_of_rxPut {rxmax : Nat} {b : Byte} (hs : s.HoldsResultOfBuffer) (h : rxPut rxmax b s = .next t) :
    t.HoldsResultOfBuffer := by
  obtain ⟨-, rfl⟩ | ⟨hfill, -, rfl⟩ | ⟨hfill, -, rfl⟩ := rxPut_cases rxmax b s t h
  · exact holdsResult_respond hs _
  · exact holdsResult_of_fill hfill
  · exact holdsResult_of_fill hfill

theorem holdsResult_of_rxEnd {rxmax : Nat} (hs : s.HoldsResultOfBuffer) (h : rxEnd rxmax s = .next t) :
    t.HoldsResultOfBuffer := by
  obtain ⟨-, rfl⟩ | ⟨hfill, raw, hraw, -⟩ := rxEnd_cases rxmax s t h
  · exact holdsResult_respond hs _
  · have hkeep := rxEnd_keepsResult hfill hraw h
    exact fun _ => ⟨raw, hkeep.raw_eq.trans (raw_eq_some_iff.2 hraw), hkeep.result⟩

theorem holdsResult_of_rxLoad {k : Half} (hs : s.HoldsResultOfBuffer) (h : rxLoad k s = .next t) :
    t.HoldsResultOfBuffer := by
  obtain ⟨-, rfl⟩ | ⟨-, -, rfl⟩ | ⟨-, -, _, -, rfl⟩ := rxLoad_cases k s t h
  all_goals exact holdsResult_respond hs _

theorem holdsResult_of_exec {i : Instr} (hi : isOperation i = true) (hs : s.HoldsResultOfBuffer)
    (h : exec i s = .next t) : t.HoldsResultOfBuffer := by
  by_cases hu : unitOf i = .rx
  · cases i with
    | rxClr => cases h; exact holdsResult_of_fill rfl
    | rxPut b => exact holdsResult_of_rxPut hs h
    | rxEnd => exact holdsResult_of_rxEnd hs h
    | rxLd k => exact holdsResult_of_rxLoad hs h
    | startToDev | startFromDev | startNul | ack | stop | esc | escStop | escAck | escEsc | escToDev | escFromDev | lit =>
      cases hi
    | _ => cases hu
  · exact holdsResult_of_agreeOn (exec_keepsOtherUnits hi s t h .rx nofun (Ne.symm hu)) hs

end

/-! ### The statements -/

/-- Settles O54: of the four things a step can do, an operation is the only one with a result to keep. -/
theorem everyStepKeepsHeldResultCoherent : Obligations.EveryStepKeepsHeldResultCoherent := by
  intro s t hs h
  have hpend : ∀ l, ({ s with pending := l } : State).HoldsResultOfBuffer :=
    fun l => holdsResult_of_agreeOn (agreeOn_refl .rx s) hs
  obtain ⟨-, rfl⟩ | ⟨_, _, -, -, rfl⟩ | ⟨w, rest, i, -, hd, he⟩ | ⟨_, rest, _, -, -, rfl⟩ := step_cases s t h
  · exact hs
  · exact holdsResult_of_fill rfl
  · exact holdsResult_of_exec (isOperation_of_decodeCmd hd) (hpend rest) he
  · exact holdsResult_respond (hpend rest) _

/-- Settles O33: the bytes are read and decoded, the result fits `RXDATA`, and `RX.END` keeps it. -/
theorem rxEndKeepsDecodeResult : Obligations.RxEndKeepsDecodeResult := by
  refine fun s => ⟨fun raw hfill hlen hraw => ?_, rxEnd_of_held _,
    noOperandWord_of_decodeCmd (fun arg => by simp [decodeCmd]) s⟩
  rw [raw_eq_some_iff] at hraw
  obtain ⟨t, ht⟩ := rxEnd_next (covers_of_readBytes hraw) hlen
  have hkeep := rxEnd_keepsResult hfill hraw ht
  exact ⟨t, ht, hkeep.result, hkeep.no_frame, hkeep.data_above, hkeep.frame⟩

/-- Settles O31: the operation by definition, its word by the operand class. -/
theorem rxClrReturnsToFill : Obligations.RxClrReturnsToFill :=
  fun s => ⟨rfl, noOperandWord_of_decodeCmd (fun arg => by simp [decodeCmd]) s⟩

/-- Settles O32: room, a full buffer or a held result, and the word by the operand class. -/
theorem rxPutStoresRawByte : Obligations.RxPutStoresRawByte :=
  ⟨fun _ b => ⟨fun hfill hroom => ⟨_, rxPut_of_room b hfill hroom, Memory.get_set_same _ _ _,
      fun _ hk => Memory.get_set_other _ _ _ _ hk⟩,
    rxPut_of_full b, rxPut_of_held _ b⟩, byteOperandWord_of_decodeCmd (fun arg => by simp [decodeCmd])⟩

/-- Settles O34: an index below `RXDLEN`, one at or beyond it, or no frame; every word is an operation. -/
theorem rxLdLoadsDataByte : Obligations.RxLdLoadsDataByte := by
  refine fun s k => ⟨fun v hframe hk hv => ?_, rxLoad_of_beyond, rxLoad_of_noFrame k,
    step_offer_ok s (decodeCmd_of_encode rfl)⟩
  rw [← zext16_eq_ofNat]
  exact rxLoad_of_stored hframe hk hv

end Sys2Proof.Machine
end

section
/-! SUPPORT. Runs of operations in which one unit has a given sequence of operations (spec 70 R277): rules that take the
unit's operations one after another, and with them the run of `RX.CLR`, `RX.PUT`s and `RX.END` (43 R200). -/

namespace Sys2Proof.Machine

/-! ### Runs by the operations of one unit -/

/-- At the end of a run of `ops` from `s` to `t`, `Q` holds, every operation has had one response, and those to the unit
`u` are `rs`. -/
def RunEnds (u : BlockUnit) (Q : State → Prop) (rs : List Response) (ops : List Instr) (s t : State) : Prop :=
  Q t ∧ ∃ l, t.responses = s.responses ++ l ∧ l.length = ops.length ∧ unitResponses u ops l = rs

/-- From every state with `P`, a run whose operations of the unit `u` are `is`, if it completes, ends with `Q` and with
`rs` as the unit's responses. -/
def UnitRun (u : BlockUnit) (P : State → Prop) (is : List Instr) (rs : List Response) (Q : State → Prop) : Prop :=
  ∀ ops s t, (∀ i ∈ ops, isOperation i = true) → ops.filter (fun i => unitOf i == u) = is → P s →
    runOps ops s = .next t → RunEnds u Q rs ops s t

/-- `P` speaks of the unit `u` only. -/
def OfUnit (u : BlockUnit) (P : State → Prop) : Prop := ∀ {s t}, agreeOn u s t → P s → P t

section
variable {u : BlockUnit} {P R Q : State → Prop} {i : Instr} {is ops : List Instr} {r : Response} {rs : List Response}
  {s s' t : State}

theorem exists_exec_of_runOps_cons (h : runOps (i :: ops) s = .next t) :
    ∃ s', exec i s = .next s' ∧ runOps ops s' = .next t := by
  cases hs' : exec i s with
  | next s' => exact ⟨s', rfl, runOps_cons hs' ▸ h⟩
  | fault f => simp [runOps, hs'] at h
  | refused r => simp [runOps, hs'] at h

theorem filter_cons_own (hu : unitOf i = u) :
    (i :: ops).filter (fun i => unitOf i == u) = i :: ops.filter (fun i => unitOf i == u) := by
  simp [hu]

theorem filter_cons_other (hu : unitOf i ≠ u) :
    (i :: ops).filter (fun i => unitOf i == u) = ops.filter (fun i => unitOf i == u) := by
  simp [hu]

theorem RunEnds.nil (h : Q s) : RunEnds u Q [] [] s s :=
  ⟨h, [], by simp, rfl, rfl⟩

theorem RunEnds.cons_own (hu : unitOf i = u) (hr : s'.responses = s.responses ++ [r]) (h : RunEnds u Q rs ops s' t) :
    RunEnds u Q (r :: rs) (i :: ops) s t := by
  obtain ⟨hQ, l, hl, hlen, hunit⟩ := h
  exact ⟨hQ, r :: l, by simp [hl, hr], congrArg Nat.succ hlen, by rw [unitResponses_cons_of_eq hu, hunit]⟩

theorem RunEnds.cons_other (hu : unitOf i ≠ u) (hr : s'.responses = s.responses ++ [r]) (h : RunEnds u Q rs ops s' t) :
    RunEnds u Q rs (i :: ops) s t := by
  obtain ⟨hQ, l, hl, hlen, hunit⟩ := h
  exact ⟨hQ, r :: l, by simp [hl, hr], congrArg Nat.succ hlen, by rw [unitResponses_cons_of_ne hu, hunit]⟩

/-- An operation of another unit, before a run: what speaks of the unit `u` is kept, and the response is not the unit's. -/
theorem RunEnds.of_other (hsys : u ≠ .sys) (hP : OfUnit u P) (hi : isOperation i = true) (hu : unitOf i ≠ u) (hs : P s)
    (h : runOps (i :: ops) s = .next t) (hrest : ∀ s', P s' → runOps ops s' = .next t → RunEnds u Q rs ops s' t) :
    RunEnds u Q rs (i :: ops) s t := by
  obtain ⟨s', hs', hrun⟩ := exists_exec_of_runOps_cons h
  obtain ⟨-, r, hr⟩ := exec_answeredOnce hi hs'
  exact (hrest s' (hP (exec_keepsOtherUnits hi s s' hs' u hsys (Ne.symm hu)) hs) hrun).cons_other hu hr

theorem UnitRun.nil (hsys : u ≠ .sys) (hP : OfUnit u P) : UnitRun u P [] [] P := by
  intro ops
  induction ops with
  | nil =>
    rintro s t - - hs h
    cases h
    exact .nil hs
  | cons j ops ih =>
    intro s t hops hfilter hs h
    obtain ⟨hj, hrest⟩ := List.forall_mem_cons.1 hops
    by_cases hu : unitOf j = u
    · rw [filter_cons_own hu] at hfilter
      cases hfilter
    · rw [filter_cons_other hu] at hfilter
      exact .of_other hsys hP hj hu hs h fun s' => ih s' t hrest hfilter

/-- The unit's next operation is answered `r` and leads to `R`, from where its others go on. -/
theorem UnitRun.cons (hsys : u ≠ .sys) (hP : OfUnit u P)
    (hstep : ∀ {s t}, P s → exec i s = .next t → R t ∧ t.responses = s.responses ++ [r]) (hnext : UnitRun u R is rs Q) :
    UnitRun u P (i :: is) (r :: rs) Q := by
  intro ops
  induction ops with
  | nil =>
    rintro s t - hfilter
    cases hfilter
  | cons j ops ih =>
    intro s t hops hfilter hs h
    obtain ⟨hj, hrest⟩ := List.forall_mem_cons.1 hops
    by_cases hu : unitOf j = u
    · rw [filter_cons_own hu] at hfilter
      obtain ⟨rfl, hothers⟩ := List.cons.inj hfilter
      obtain ⟨s', hs', hrun⟩ := exists_exec_of_runOps_cons h
      obtain ⟨hR, hr⟩ := hstep hs hs'
      exact (hnext ops s' t hrest hothers hR hrun).cons_own hu hr
    · rw [filter_cons_other hu] at hfilter
      exact .of_other hsys hP hj hu hs h fun s' => ih s' t hrest hfilter

end

/-! ### The bytes put since `RX.CLR` (43 R184, R185) -/

/-- The bytes `l` have been put since `RX.CLR`: the first `RXMAX` of them are stored, and `RXOVF` says whether there were
more. -/
structure Received (l : List Byte) (s : State) : Prop where
  fill : s.rxstat = .fill
  ovf : s.rxovf = decide (Config.rxmax < l.length)
  stored : readBytes s.rxbuf 0 s.rxlen.toNat = .ok (l.take Config.rxmax)

/-- The response to `RX.PUT` after `n` others: the buffer holds `RXMAX` bytes. -/
def putReply (n : Nat) : Response := ⟨if n < Config.rxmax then .ok else .ovf, 0, []⟩

theorem received_ofUnit (l : List Byte) : OfUnit .rx (Received l) := by
  rintro s t ⟨hlen, hovf, hstat, -, -, -, -, hbuf, -⟩ ⟨hfill, hflag, hread⟩
  exact ⟨hstat ▸ hfill, hovf ▸ hflag, by rw [← hbuf, ← hlen, hread]⟩

theorem Received.rxlen_eq {l : List Byte} {s : State} (h : Received l s) : s.rxlen.toNat = min Config.rxmax l.length := by
  obtain ⟨hlen, -⟩ := (readBytes_ok _ _ _ _).1 h.stored
  rw [← hlen, List.length_take]

theorem received_rxClr {s t : State} (h : exec .rxClr s = .next t) :
    Received [] t ∧ t.responses = s.responses ++ [⟨.ok, 0, []⟩] := by
  cases h
  exact ⟨⟨rfl, rfl, rfl⟩, rfl⟩

theorem received_rxPut {l : List Byte} {b : Byte} {s t : State} (hs : Received l s) (h : exec (.rxPut b) s = .next t) :
    Received (l ++ [b]) t ∧ t.responses = s.responses ++ [putReply l.length] := by
  have hlen := hs.rxlen_eq
  obtain ⟨hfill, hovf, hread⟩ := hs
  obtain ⟨hheld, -⟩ | ⟨-, hfull, rfl⟩ | ⟨-, hroom, rfl⟩ := rxPut_cases _ b s t h
  · exact absurd hfill hheld
  · have hl : Config.rxmax ≤ l.length := by omega
    refine ⟨⟨hfill, (decide_eq_true (by simp; omega)).symm, ?_⟩, by simp [putReply, Nat.not_lt.2 hl]⟩
    rw [List.take_append_of_le_length hl]
    exact hread
  · have hl : l.length < Config.rxmax := by omega
    refine ⟨⟨hfill, by simpa [Nat.not_lt.2 hl.le, Nat.not_lt.2 (Nat.succ_le_of_lt hl)] using hovf, ?_⟩, by simp [putReply, hl]⟩
    rw [List.take_of_length_le hl.le] at hread
    rw [List.take_of_length_le (by simpa using hl), State.respond_rxbuf, State.respond_rxlen, rxlen_add_one_toNat hroom]
    exact readBytes_set_succ hread b

/-- After the bytes `l`, `RX.PUT` of each of `bs`, and whatever the unit does next. -/
theorem unitRun_rxPuts (l bs : List Byte) {is : List Instr} {rs : List Response} {Q : State → Prop}
    (hnext : UnitRun .rx (Received (l ++ bs)) is rs Q) :
    UnitRun .rx (Received l) (bs.map .rxPut ++ is) ((List.range' l.length bs.length).map putReply ++ rs) Q := by
  induction bs generalizing l with
  | nil => simpa using hnext
  | cons b bs ih =>
    have hrest := ih (l ++ [b]) (by simpa using hnext)
    rw [List.length_append] at hrest
    exact .cons nofun (received_ofUnit l) received_rxPut hrest

theorem putReplies_of_room {n : Nat} (h : n ≤ Config.rxmax) :
    (List.range' 0 n).map putReply = List.replicate n ⟨.ok, 0, []⟩ := by
  refine List.eq_replicate_iff.2 ⟨by simp, List.forall_mem_map.2 fun k hk => ?_⟩
  rw [putReply, if_pos (by simp at hk; omega)]

theorem putReplies_of_overflow {n : Nat} (h : Config.rxmax < n) :
    (List.range' 0 n).map putReply =
      List.replicate Config.rxmax ⟨.ok, 0, []⟩ ++ List.replicate (n - Config.rxmax) ⟨.ovf, 0, []⟩ := by
  have hfull : (List.range' Config.rxmax (n - Config.rxmax)).map putReply =
      List.replicate (n - Config.rxmax) ⟨.ovf, 0, []⟩ := by
    refine List.eq_replicate_iff.2 ⟨by simp, List.forall_mem_map.2 fun k hk => ?_⟩
    rw [putReply, if_neg (by simp at hk; omega)]
  have hsplit : List.range' 0 n = List.range' 0 Config.rxmax ++ List.range' Config.rxmax (n - Config.rxmax) := by
    have happend := List.range'_append_1 (s := 0) (m := Config.rxmax) (n := n - Config.rxmax)
    rw [Nat.zero_add, Nat.add_sub_cancel' h.le] at happend
    exact happend.symm
  rw [hsplit, List.map_append, putReplies_of_room le_rfl, hfull]

/-! ### The result of the bytes put (43 R186, R199, R200) -/

/-- The result code of the bytes put since `RX.CLR`. -/
def receivedStat (raw : List Byte) : RxStat :=
  if Config.rxmax < raw.length then .ovfl else decodedStat (decodeFrame raw)

/-- `t` holds the result of the bytes `raw` put since `RX.CLR`. -/
def HoldsReceived (raw : List Byte) (t : State) : Prop :=
  t.rxovf = decide (Config.rxmax < raw.length) ∧ t.ResultOf (raw.take Config.rxmax)

theorem holdsReceived_ofUnit (raw : List Byte) : OfUnit .rx (HoldsReceived raw) := by
  rintro s t hagree ⟨hflag, hres⟩
  have ⟨_, hovf, _⟩ := hagree
  exact ⟨hovf ▸ hflag, resultOf_of_agreeOn hagree hres⟩

theorem HoldsReceived.rxstat_eq {raw : List Byte} {t : State} (h : HoldsReceived raw t) : t.rxstat = receivedStat raw := by
  obtain ⟨hovf, -, hres⟩ := h
  by_cases hlen : Config.rxmax < raw.length
  · rw [receivedStat, if_pos hlen]
    simpa [hovf, hlen] using hres
  · rw [receivedStat, if_neg hlen]
    obtain ⟨hstat, -⟩ : _ ∧ _ := by simpa [hovf, hlen] using hres
    rwa [List.take_of_length_le (Nat.not_lt.1 hlen)] at hstat

/-- The number of the result code, as `RX.END` answers it. -/
def endReply (st : RxStat) : Response := ⟨.ok, BitVec.ofNat 16 (rxStatCode st).toNat, []⟩

theorem received_rxEnd {raw : List Byte} {s t : State} (hs : Received raw s) (h : exec .rxEnd s = .next t) :
    HoldsReceived raw t ∧ t.responses = s.responses ++ [endReply (receivedStat raw)] := by
  have hkeep := rxEnd_keepsResult hs.fill hs.stored h
  have hovf : t.rxovf = s.rxovf := (congrArg State.rxovf hkeep.frame).trans rfl
  have hholds : HoldsReceived raw t := ⟨hovf.trans hs.ovf, hkeep.result⟩
  exact ⟨hholds, hholds.rxstat_eq ▸ hkeep.responses_eq⟩

/-- `RX.CLR`, `RX.PUT` of each byte and `RX.END`, with any operations of other units between, from any state. -/
theorem unitRun_decomposeOps (raw : List Byte) :
    UnitRun .rx (fun _ => True) (decomposeOps raw)
      (⟨.ok, 0, []⟩ :: ((List.range' 0 raw.length).map putReply ++ [endReply (receivedStat raw)])) (HoldsReceived raw) := by
  have hend : UnitRun .rx (Received raw) [.rxEnd] [endReply (receivedStat raw)] (HoldsReceived raw) :=
    .cons nofun (received_ofUnit raw) received_rxEnd (.nil nofun (holdsReceived_ofUnit raw))
  exact .cons nofun (fun _ h => h) (fun _ => received_rxClr) (unitRun_rxPuts [] raw hend)

/-- What `GET` and `RX.LD` show of a frame that is the result of the bytes put. -/
theorem HoldsReceived.shows_frame {raw data : List Byte} {t : State} {ty a c : Byte} (h : HoldsReceived raw t)
    (hlen : raw.length ≤ Config.rxmax) (hd : decodeFrame raw = .frame ty a c data) :
    statusRegister t 7 = some (BitVec.ofNat 16 ty.toNat) ∧ statusRegister t 8 = some (BitVec.ofNat 16 a.toNat) ∧
    statusRegister t 9 = some (BitVec.ofNat 16 c.toNat) ∧ statusRegister t 10 = some (BitVec.ofNat 16 data.length) ∧
    ∀ (k : Half) (v : Byte), data[k.toNat]? = some v →
      exec (.rxLd k) t = .next { t with responses := t.responses ++ [⟨.ok, BitVec.ofNat 16 v.toNat, []⟩] } := by
  obtain ⟨hovf, -, hres⟩ := h
  rw [List.take_of_length_le hlen] at hres
  obtain ⟨hstat, hfields⟩ : _ ∧ _ := by simpa [hovf, Nat.not_lt.2 hlen] using hres
  obtain ⟨rfl, rfl, rfl, hdlen, hdata⟩ := hfields ty a c data hd
  rw [hd] at hstat
  refine ⟨congrArg some (zeros_append_byte _), congrArg some (zeros_append_byte _), congrArg some (zeros_append_byte _),
    congrArg some (by rw [← hdlen]; simp), fun k v hv => ?_⟩
  obtain ⟨hk, -⟩ := List.getElem?_eq_some_iff.1 hv
  rw [← zext16_eq_ofNat]
  exact rxLoad_of_stored hstat (hdlen ▸ hk) ((hdata _ hk).trans hv)

/-! ### The statement -/

/-- Settles O38: the run completes by the invariants, and the decomposer answers as its own operations one after another
do; the two lengths differ in the responses to the puts and in the result code. -/
theorem interleavedDecomposeComputesDecode : Obligations.InterleavedDecomposeComputesDecode := by
  intro s ops raw hs hops hrx
  obtain ⟨t, ht, -⟩ := runOps_next_of_inv hops hs
  obtain ⟨hholds, rs, hrs, hlen, hunit⟩ := unitRun_decomposeOps raw ops s t hops hrx trivial ht
  refine ⟨t, rs, ht, hrs, hlen, fun hroom => ?_, fun hover => ?_⟩
  · have hstat : receivedStat raw = decodedStat (decodeFrame raw) := if_neg (Nat.not_lt.2 hroom)
    rw [hunit, putReplies_of_room hroom, hstat, ← hstat]
    exact ⟨rfl, hholds.rxstat_eq, fun ty a c data hd => hholds.shows_frame hroom hd⟩
  · have hstat : receivedStat raw = .ovfl := if_pos hover
    rw [hunit, putReplies_of_overflow hover, hstat]
    rfl

end Sys2Proof.Machine
end

section
/-! SUPPORT. The system operations `NOP` and `GET` (spec 44 R220, R221). -/

namespace Sys2Proof.Machine

/-! ### The two outcomes of `GET`: a register that exists, or `ILLEGAL` (R221) -/

section
variable {s : State} {n v : Half}

theorem execGet_of_some (h : statusRegister s n.toNat = some v) : execGet n s = answer v [] s := by
  rw [execGet, h]

theorem execGet_of_none (h : statusRegister s n.toNat = none) : execGet n s = raise .illegal s := by
  rw [execGet, h]

end

/-! ### The statements -/

/-- Settles O1: the operation by definition, its word by the operand class. -/
theorem nopAnswersOkAndChangesNothing : Obligations.NopAnswersOkAndChangesNothing :=
  fun s => ⟨rfl, noOperandWord_of_decodeCmd (fun arg => by simp [decodeCmd]) s⟩

/-- Settles O2: registers 0 to 10 exist and no other does; every word is an operation. -/
theorem getReturnsStatusRegisterWithoutSideEffect : Obligations.GetReturnsStatusRegisterWithoutSideEffect := by
  refine fun s n => ⟨fun hn => ?_, fun hn => execGet_of_none (statusRegister_eq_none s hn),
    step_offer_ok s (decodeCmd_of_encode rfl)⟩
  obtain ⟨v, hv⟩ := exists_statusRegister s hn
  exact ⟨v, hv, execGet_of_some hv⟩

end Sys2Proof.Machine
end

section
/-! SUPPORT. Refusals (spec 60 R232, R235, R236): the causes of each refusal code, and that an operation with a cause is
refused with its code and any other operation answers OK. -/

namespace Sys2Proof.Machine

/-! ### The causes of a refusal and its effect (60 R232, R235) -/

/-- The causes for which the operation is refused in the state `s` with the code, row by row of 60 R232: an operation with
a cause raises its code, by `RefusalCause.exec_eq`, and one with none answers OK, by `exec_refusedOrOk`. -/
inductive RefusalCause (s : State) : Instr → Rc → Prop
  | noSuchRegister {n : Half} (hn : 10 < n.toNat) : RefusalCause s (.get n) .illegal
  | noStartType {b : Byte} (hb : b ∉ [0x80, 0x40, 0x06]) : RefusalCause s (.txStart b) .illegal
  | startInFrame {b : Byte} (hb : b ∈ [0x80, 0x40, 0x06]) (h : s.txph = .opened) : RefusalCause s (.txStart b) .seq
  | putOutsideFrame {b : Byte} (h : s.txph = .idle) : RefusalCause s (.txPut b) .seq
  | endTooEarly (h : s.txph = .idle ∨ s.txcnt.toNat < 2) : RefusalCause s .txEnd .seq
  | putOnResult {b : Byte} (h : s.rxstat ≠ .fill) : RefusalCause s (.rxPut b) .seq
  | endOnResult (h : s.rxstat ≠ .fill) : RefusalCause s .rxEnd .seq
  | loadWithoutFrame {k : Half} (h : s.rxstat ≠ .frame) : RefusalCause s (.rxLd k) .seq
  | loadBeyondData {k : Half} (h : s.rxstat = .frame) (hk : s.rxdlen.toNat ≤ k.toNat) : RefusalCause s (.rxLd k) .range
  | bufferFull {b : Byte} (h : s.rxstat = .fill) (hfull : s.rxlen.toNat = Config.rxmax) : RefusalCause s (.rxPut b) .ovf
  | danglingEscape (h : s.unepend = true) : RefusalCause s .uneEnd .trail

/-- What a refusal makes of the state before its response: only `OVF` and `TRAIL` write a register (60 R235). -/
def State.afterRefusal (s : State) : Rc → State
  | .ovf => { s with rxovf := true }
  | .trail => { s with unepend := false }
  | .ok | .illegal | .seq | .range => s

@[simp] theorem State.afterRefusal_responses (s : State) (c : Rc) : (s.afterRefusal c).responses = s.responses := by
  cases c <;> rfl

theorem isStartType_iff_mem (b : Byte) : isStartType b = true ↔ b ∈ [0x80, 0x40, 0x06] := by
  simp [isStartType_iff]

section
variable {i : Instr} {s t u : State} {c : Rc} {r : Response}

/-! ### An operation with a cause is refused -/

theorem RefusalCause.exec_eq (h : RefusalCause s i c) : exec i s = raise c (s.afterRefusal c) := by
  cases h with
  | noSuchRegister hn => exact execGet_of_none (statusRegister_eq_none s hn)
  | noStartType hb => exact execTxStart_of_illegal (Bool.eq_false_iff.2 (mt (isStartType_iff_mem _).1 hb))
  | startInFrame hb h => exact execTxStart_of_opened ((isStartType_iff_mem _).2 hb) h
  | putOutsideFrame h => exact execTxPut_of_idle h
  | endTooEarly h => exact execTxEnd_of_early h
  | putOnResult h => exact rxPut_of_held _ _ h
  | endOnResult h => exact rxEnd_of_held _ h
  | loadWithoutFrame h => exact rxLoad_of_noFrame _ h
  | loadBeyondData h hk => exact rxLoad_of_beyond h hk
  | bufferFull h hfull => exact rxPut_of_full _ h hfull
  | danglingEscape h => exact execUneEnd_of_pending h

theorem RefusalCause.next_eq (hc : RefusalCause s i c) (h : exec i s = .next t) :
    t = (s.afterRefusal c).respond ⟨c, 0, []⟩ := by
  cases hc.exec_eq.symm.trans h
  rfl

theorem RefusalCause.response_eq (hc : RefusalCause s i c) (h : exec i s = .next t)
    (hr : t.responses = s.responses ++ [r]) : r = ⟨c, 0, []⟩ := by
  simpa [hc.next_eq h, eq_comm] using hr

/-! ### An operation with no cause answers OK -/

/-- The result `o` of `i` comes with a cause of refusal, or its next state, if it is one, has one more OK response. -/
def RefusedOrOk (i : Instr) (s : State) (o : Result) : Prop :=
  (∃ c, RefusalCause s i c) ∨ ∀ t, o = .next t → ∃ v out, t.responses = s.responses ++ [⟨.ok, v, out⟩]

theorem refusedOrOk_cause {o : Result} (h : RefusalCause s i c) : RefusedOrOk i s o := .inl ⟨c, h⟩

theorem refusedOrOk_answer {v : Half} {out : List Byte} (hr : u.responses = s.responses) :
    RefusedOrOk i s (answer v out u) := by
  refine .inr ?_
  rintro t ⟨⟩
  exact ⟨v, out, by rw [State.respond_responses, hr]⟩

theorem execGet_refusedOrOk (n : Half) (s : State) : RefusedOrOk (.get n) s (execGet n s) := by
  by_cases hn : n.toNat ≤ 10
  · obtain ⟨v, hv⟩ := exists_statusRegister s hn
    rw [execGet_of_some hv]
    exact refusedOrOk_answer rfl
  · exact refusedOrOk_cause (.noSuchRegister (Nat.not_le.1 hn))

theorem execUneEnd_refusedOrOk (s : State) : RefusedOrOk .uneEnd s (execUneEnd s) := by
  cases hpend : s.unepend with
  | true => exact refusedOrOk_cause (.danglingEscape hpend)
  | false =>
    rw [execUneEnd_of_clear hpend]
    exact refusedOrOk_answer rfl

theorem execTxStart_refusedOrOk (b : Byte) (s : State) : RefusedOrOk (.txStart b) s (execTxStart b s) := by
  by_cases hb : b ∈ [0x80, 0x40, 0x06]
  · cases hph : s.txph with
    | opened => exact refusedOrOk_cause (.startInFrame hb hph)
    | idle =>
      by_cases hack : b = Config.ACK
      · rw [execTxStart_of_ack hack hph]
        exact refusedOrOk_answer rfl
      · rw [execTxStart_of_frame ((isStartType_iff_mem b).2 hb) hack hph]
        exact refusedOrOk_answer rfl
  · exact refusedOrOk_cause (.noStartType hb)

theorem execTxPut_refusedOrOk (b : Byte) (s : State) : RefusedOrOk (.txPut b) s (execTxPut b s) := by
  cases hph : s.txph with
  | idle => exact refusedOrOk_cause (.putOutsideFrame hph)
  | opened =>
    rw [execTxPut_of_opened hph]
    exact refusedOrOk_answer rfl

theorem execTxEnd_refusedOrOk (s : State) : RefusedOrOk .txEnd s (execTxEnd s) := by
  by_cases h : s.txph = .idle ∨ s.txcnt < 2
  · exact refusedOrOk_cause (.endTooEarly h)
  · rw [execTxEnd_of_ready h rfl]
    exact refusedOrOk_answer rfl

theorem rxPut_refusedOrOk (b : Byte) (s : State) : RefusedOrOk (.rxPut b) s (rxPut Config.rxmax b s) := by
  refine or_iff_not_imp_left.2 fun hno t h => ?_
  obtain ⟨hheld, -⟩ | ⟨hfill, hfull, -⟩ | ⟨-, -, rfl⟩ := rxPut_cases _ b s t h
  · exact absurd ⟨_, .putOnResult hheld⟩ hno
  · exact absurd ⟨_, .bufferFull hfill hfull⟩ hno
  · exact ⟨_, _, rfl⟩

theorem rxEnd_refusedOrOk (s : State) : RefusedOrOk .rxEnd s (rxEnd Config.rxmax s) := by
  refine or_iff_not_imp_left.2 fun hno t h => ?_
  obtain ⟨hheld, -⟩ | ⟨hfill, raw, hraw, -⟩ := rxEnd_cases _ s t h
  · exact absurd ⟨_, .endOnResult hheld⟩ hno
  · exact ⟨_, _, (rxEnd_keepsResult hfill hraw h).responses_eq⟩

theorem rxLoad_refusedOrOk (k : Half) (s : State) : RefusedOrOk (.rxLd k) s (rxLoad k s) := by
  refine or_iff_not_imp_left.2 fun hno t h => ?_
  obtain ⟨hno', -⟩ | ⟨hframe, hk, -⟩ | ⟨-, -, v, -, rfl⟩ := rxLoad_cases k s t h
  · exact absurd ⟨_, .loadWithoutFrame hno'⟩ hno
  · exact absurd ⟨_, .loadBeyondData hframe hk⟩ hno
  · exact ⟨_, _, rfl⟩

theorem exec_refusedOrOk (hi : isOperation i = true) (s : State) : RefusedOrOk i s (exec i s) := by
  cases i with
  | nop | crcClr | crcPut | escPut | uneClr | txClr | rxClr => exact refusedOrOk_answer rfl
  | get n => exact execGet_refusedOrOk n s
  | unePut b => exact .inr fun t h => ⟨_, _, exec_ecReply rfl h⟩
  | uneEnd => exact execUneEnd_refusedOrOk s
  | txStart b => exact execTxStart_refusedOrOk b s
  | txPut b => exact execTxPut_refusedOrOk b s
  | txEnd => exact execTxEnd_refusedOrOk s
  | rxPut b => exact rxPut_refusedOrOk b s
  | rxEnd => exact rxEnd_refusedOrOk s
  | rxLd k => exact rxLoad_refusedOrOk k s
  | startToDev | startFromDev | startNul | ack | stop | esc | escStop | escAck | escEsc | escToDev | escFromDev | lit =>
    cases hi

/-- A refusal code is answered exactly for its causes. The order of the tests (60 R236) stands in the causes themselves, so
the code of any cause that holds is the one raised. -/
theorem rc_eq_iff_refusalCause (hi : isOperation i = true) (h : exec i s = .next t)
    (hr : t.responses = s.responses ++ [r]) (hc : c ≠ .ok) : r.rc = c ↔ RefusalCause s i c := by
  refine ⟨fun hrc => ?_, fun hcause => by rw [hcause.response_eq h hr]⟩
  obtain ⟨c', hcause⟩ | hok := exec_refusedOrOk hi s
  · rw [hcause.response_eq h hr] at hrc
    exact hrc ▸ hcause
  · obtain ⟨v, out, hr'⟩ := hok t h
    obtain rfl : r = ⟨.ok, v, out⟩ := by simpa using hr.symm.trans hr'
    exact absurd hrc.symm hc

/-! ### The causes code by code -/

theorem refusalCause_illegal_iff : RefusalCause s i .illegal ↔
    (∃ n, i = .get n ∧ 10 < n.toNat) ∨ ∃ b, i = .txStart b ∧ b ∉ [0x80, 0x40, 0x06] := by
  constructor
  · rintro (⟨hn⟩ | ⟨hb⟩)
    · exact .inl ⟨_, rfl, hn⟩
    · exact .inr ⟨_, rfl, hb⟩
  · rintro (⟨n, rfl, hn⟩ | ⟨b, rfl, hb⟩)
    · exact .noSuchRegister hn
    · exact .noStartType hb

theorem refusalCause_seq_iff : RefusalCause s i .seq ↔
    (∃ b, i = .txStart b ∧ b ∈ [0x80, 0x40, 0x06] ∧ s.txph = .opened) ∨
      (∃ b, i = .txPut b ∧ s.txph = .idle) ∨ (i = .txEnd ∧ (s.txph = .idle ∨ s.txcnt.toNat < 2)) ∨
      ((i = .rxEnd ∨ ∃ b, i = .rxPut b) ∧ s.rxstat ≠ .fill) ∨ (∃ k, i = .rxLd k ∧ s.rxstat ≠ .frame) := by
  constructor
  · intro h
    cases h with
    | startInFrame hb h => exact .inl ⟨_, rfl, hb, h⟩
    | putOutsideFrame h => exact .inr (.inl ⟨_, rfl, h⟩)
    | endTooEarly h => exact .inr (.inr (.inl ⟨rfl, h⟩))
    | putOnResult h => exact .inr (.inr (.inr (.inl ⟨.inr ⟨_, rfl⟩, h⟩)))
    | endOnResult h => exact .inr (.inr (.inr (.inl ⟨.inl rfl, h⟩)))
    | loadWithoutFrame h => exact .inr (.inr (.inr (.inr ⟨_, rfl, h⟩)))
  · rintro (⟨b, rfl, hb, h⟩ | ⟨b, rfl, h⟩ | ⟨rfl, h⟩ | ⟨rfl | ⟨b, rfl⟩, h⟩ | ⟨k, rfl, h⟩)
    · exact .startInFrame hb h
    · exact .putOutsideFrame h
    · exact .endTooEarly h
    · exact .endOnResult h
    · exact .putOnResult h
    · exact .loadWithoutFrame h

theorem refusalCause_range_iff : RefusalCause s i .range ↔
    ∃ k, i = .rxLd k ∧ s.rxstat = .frame ∧ s.rxdlen.toNat ≤ k.toNat := by
  constructor
  · rintro ⟨⟩
    exact ⟨_, rfl, ‹_›, ‹_›⟩
  · rintro ⟨k, rfl, h, hk⟩
    exact .loadBeyondData h hk

theorem refusalCause_ovf_iff : RefusalCause s i .ovf ↔
    ∃ b, i = .rxPut b ∧ s.rxstat = .fill ∧ s.rxlen.toNat = Config.rxmax := by
  constructor
  · rintro ⟨⟩
    exact ⟨_, rfl, ‹_›, ‹_›⟩
  · rintro ⟨b, rfl, h, hfull⟩
    exact .bufferFull h hfull

theorem refusalCause_trail_iff : RefusalCause s i .trail ↔ i = .uneEnd ∧ s.unepend = true := by
  constructor
  · rintro ⟨⟩
    exact ⟨rfl, ‹_›⟩
  · rintro ⟨rfl, h⟩
    exact .danglingEscape h

end

/-! ### The statements -/

/-- Settles O42: the response has a cause, and the cause fixes the next state; the codes that write a register have one
cause each. -/
theorem refusedOperationsChangeNothing : Obligations.RefusedOperationsChangeNothing := by
  intro i s t r hi h hr hrc
  have hcause : RefusalCause s i r.rc := (rc_eq_iff_refusalCause hi h hr hrc).1 rfl
  have ht := hcause.next_eq h
  obtain ⟨c, v, out⟩ := r
  cases hcause.response_eq h hr
  refine ⟨rfl, rfl, ?_⟩
  cases c with
  | ok => exact absurd rfl hrc
  | illegal | seq | range => exact .inl ⟨nofun, nofun, ht⟩
  | ovf =>
    obtain ⟨b, rfl, -⟩ := refusalCause_ovf_iff.1 hcause
    exact .inr (.inl ⟨b, rfl, rfl, ht⟩)
  | trail =>
    obtain ⟨rfl, -⟩ := refusalCause_trail_iff.1 hcause
    exact .inr (.inr ⟨rfl, rfl, ht⟩)

/-- Settles O43: each code by its causes. -/
theorem refusalCodesHaveExactlyTheirCauses : Obligations.RefusalCodesHaveExactlyTheirCauses := by
  intro i s t r hi h hr
  have hcause (c : Rc) (hc : c ≠ .ok) : r.rc = c ↔ RefusalCause s i c := rc_eq_iff_refusalCause hi h hr hc
  exact ⟨(hcause .illegal nofun).trans refusalCause_illegal_iff, (hcause .seq nofun).trans refusalCause_seq_iff,
    (hcause .range nofun).trans refusalCause_range_iff, (hcause .ovf nofun).trans refusalCause_ovf_iff,
    (hcause .trail nofun).trans refusalCause_trail_iff⟩

end Sys2Proof.Machine
end

section
/-! SUPPORT. Independence of the units (spec 70 R277): what an instruction writes and reads of the state, for the sixteen
operations and, by log entry 4, for the wire symbols. -/

namespace Sys2Proof.Machine

/-! ### Operations and wire symbols -/

/-- An instruction is an operation, which has no wire bytes, or a wire symbol, which belongs to the decomposer. -/
theorem operation_or_symbol (i : Instr) :
    (isOperation i = true ∧ wireBytes i = []) ∨
      (isOperation i = false ∧ unitOf i = .rx ∧ ∃ b bs, wireBytes i = b :: bs) := by
  cases i with
  | nop | get | crcClr | crcPut | escPut | uneClr | unePut | uneEnd | txStart | txPut | txEnd | txClr | rxClr | rxPut
  | rxEnd | rxLd => exact .inl ⟨rfl, rfl⟩
  | startToDev | startFromDev | startNul | ack | stop | esc | escStop | escAck | escEsc | escToDev | escFromDev | lit =>
    exact .inr ⟨rfl, rfl, _, _, rfl⟩

section
variable {i : Instr} {s s' t : State}

/-! ### What an instruction writes -/

theorem statusRegister_of_agreeOn (h : agreeOn .sys s s') (n : Nat) : statusRegister s' n = statusRegister s n := by
  obtain ⟨⟩ := s
  obtain ⟨⟩ := s'
  obtain ⟨rfl, rfl, rfl, rfl, rfl, rfl, rfl, rfl, rfl, rfl, rfl, rfl, rfl, rfl⟩ := h
  rfl

/-- A system operation has no other effect than its response, which the status registers decide. -/
theorem exec_sys (hu : unitOf i = .sys) (s : State) :
    ∃ r, ∀ s', agreeOn .sys s s' → exec i s' = .next (s'.respond r) := by
  cases i with
  | nop => exact ⟨⟨.ok, 0, []⟩, fun _ _ => rfl⟩
  | get n =>
    cases hv : statusRegister s n.toNat with
    | some v => exact ⟨_, fun s' h => execGet_of_some ((statusRegister_of_agreeOn h _).trans hv)⟩
    | none => exact ⟨_, fun s' h => execGet_of_none ((statusRegister_of_agreeOn h _).trans hv)⟩
  | _ => cases hu

/-- A system operation writes nothing of 10 R20. -/
theorem exec_sys_agreeOn (hu : unitOf i = .sys) (h : exec i s = .next t) : agreeOn .sys s t := by
  obtain ⟨r, hr⟩ := exec_sys hu s
  cases h.symm.trans (hr s (agreeOn_refl .sys s))
  exact agreeOn_refl .sys s

/-- A wire symbol does `RX.PUT` of its first byte, with the command words of the others before the inputs (log entry 4). -/
theorem exec_of_symbol {b : Byte} {bs : List Byte} (hbytes : wireBytes i = b :: bs) (s : State) :
    exec i s = rxPut Config.rxmax b { s with pending := putInputs bs ++ s.pending } := by
  rw [exec_eq_give (by simp [hbytes]), hbytes, give_cons]

theorem agreeOn_of_with_pending {u : BlockUnit} {l : List Input} (h : agreeOn u { s with pending := l } t) :
    agreeOn u s t := by
  cases u <;> exact h

/-! ### The decomposer's operations on other states of the other units -/

/-- `o` with the decomposer's part of the state taken from `s`. -/
def State.withRx (o s : State) : State :=
  { o with rxlen := s.rxlen, rxovf := s.rxovf, rxstat := s.rxstat, rxtype := s.rxtype, rxaddr := s.rxaddr,
           rxcmd := s.rxcmd, rxdlen := s.rxdlen, rxbuf := s.rxbuf, rxdata := s.rxdata }

theorem State.withRx_of_agreeOn (h : agreeOn .rx s s') : s'.withRx s = s' := by
  obtain ⟨⟩ := s
  obtain ⟨⟩ := s'
  obtain ⟨rfl, rfl, rfl, rfl, rfl, rfl, rfl, rfl, rfl⟩ := h
  rfl

/-- If `f` answers a next state from `s`, then from every state with the decomposer's part of `s` it gives the same
response and makes the same of that part, and it leaves the rest of that state as it is. -/
def ReadsOnlyRx (f : State → Result) : Prop :=
  ∀ s t, f s = .next t → ∃ r, t.responses = s.responses ++ [r] ∧
    ∀ o : State, f (o.withRx s) = .next ((o.withRx t).respond r)

theorem rxPut_readsOnlyRx (rxmax : Nat) (b : Byte) : ReadsOnlyRx (rxPut rxmax b) := by
  intro s t h
  obtain ⟨hheld, rfl⟩ | ⟨hfill, hfull, rfl⟩ | ⟨hfill, hroom, rfl⟩ := rxPut_cases rxmax b s t h
  · exact ⟨_, rfl, fun _ => rxPut_of_held _ _ hheld⟩
  · exact ⟨_, rfl, fun _ => rxPut_of_full _ hfill hfull⟩
  · exact ⟨_, rfl, fun _ => rxPut_of_room _ hfill hroom⟩

theorem rxKeep_readsOnlyRx (rxmax : Nat) (d : Decoded) : ReadsOnlyRx (rxKeep rxmax d) := by
  intro s t h
  cases d with
  | frame ty a c data =>
    simp only [rxKeep] at h ⊢
    split at h
    · cases h
    · rename_i m hm
      cases h
      refine ⟨_, rfl, fun o => ?_⟩
      rw [State.withRx, hm]
      rfl
  | empty | short | type | csum | ackd => cases h; exact ⟨_, rfl, fun _ => rfl⟩

theorem rxEnd_readsOnlyRx (rxmax : Nat) : ReadsOnlyRx (rxEnd rxmax) := by
  intro s t h
  obtain ⟨hheld, rfl⟩ | ⟨hfill, raw, hraw, hdone⟩ := rxEnd_cases rxmax s t h
  · exact ⟨_, rfl, fun _ => rxEnd_of_held rxmax hheld⟩
  · have hraw' (o : State) := rxEnd_of_raw (s := o.withRx s) rxmax hfill hraw
    obtain ⟨hovf, rfl⟩ | ⟨hovf, hkeep⟩ := hdone
    · exact ⟨_, rfl, fun o => (hraw' o).trans (if_pos hovf)⟩
    · obtain ⟨r, hr, hall⟩ := rxKeep_readsOnlyRx rxmax _ _ _ hkeep
      exact ⟨r, hr, fun o => (hraw' o).trans ((if_neg (Bool.eq_false_iff.1 hovf)).trans (hall o))⟩

theorem rxLoad_readsOnlyRx (k : Half) : ReadsOnlyRx (rxLoad k) := by
  intro s t h
  obtain ⟨hno, rfl⟩ | ⟨hframe, hk, rfl⟩ | ⟨hframe, hk, v, hv, rfl⟩ := rxLoad_cases k s t h
  · exact ⟨_, rfl, fun _ => rxLoad_of_noFrame k hno⟩
  · exact ⟨_, rfl, fun _ => rxLoad_of_beyond hframe hk⟩
  · exact ⟨_, rfl, fun _ => rxLoad_of_stored hframe hk hv⟩

theorem exec_readsOnlyRx (hi : isOperation i = true) (hu : unitOf i = .rx) : ReadsOnlyRx (exec i) := by
  cases i with
  | rxClr => rintro s _ ⟨⟩; exact ⟨_, rfl, fun _ => rfl⟩
  | rxPut b => exact rxPut_readsOnlyRx _ b
  | rxEnd => exact rxEnd_readsOnlyRx _
  | rxLd k => exact rxLoad_readsOnlyRx k
  | startToDev | startFromDev | startNul | ack | stop | esc | escStop | escAck | escEsc | escToDev | escFromDev | lit =>
    cases hi
  | _ => cases hu

/-! ### What an operation reads -/

/-- An operation of the checksum engine has no other effect than on `CRC`. -/
theorem exec_ce (hu : unitOf i = .ce) (s : State) :
    exec i s = .next (({ s with crc := crcAfter s.crc i } : State).respond ⟨.ok, 0, []⟩) := by
  cases i with
  | crcClr | crcPut => rfl
  | _ => cases hu

theorem agreeOn_respond_respond {u : BlockUnit} (h : agreeOn u s s') (r : Response) :
    agreeOn u (s.respond r) (s'.respond r) := by
  cases u <;> exact h

/-- From `s` and `s'` the operation `i` gives the same response, to states that agree on its unit. -/
def AnswersAlike (i : Instr) (s s' t : State) : Prop :=
  ∃ t' r, exec i s' = .next t' ∧ agreeOn (unitOf i) t t' ∧
    t.responses = s.responses ++ [r] ∧ t'.responses = s'.responses ++ [r]

theorem answersAlike_of_next {u u' : State} {r : Response} (hs : exec i s = .next (u.respond r))
    (hs' : exec i s' = .next (u'.respond r)) (hu : agreeOn (unitOf i) u u') (hr : u.responses = s.responses)
    (hr' : u'.responses = s'.responses) (ht : exec i s = .next t) : AnswersAlike i s s' t := by
  cases hs.symm.trans ht
  exact ⟨_, r, hs', agreeOn_respond_respond hu r, by simp [hr], by simp [hr']⟩

theorem exec_answersAlike (hi : isOperation i = true) (h : agreeOn (unitOf i) s s') (ht : exec i s = .next t) :
    AnswersAlike i s s' t := by
  cases hu : unitOf i with
  | sys =>
    rw [hu] at h
    obtain ⟨r, hr⟩ := exec_sys hu s
    exact answersAlike_of_next (hr s (agreeOn_refl .sys s)) (hr s' h) (hu ▸ h) rfl rfl ht
  | ce =>
    have hcrc : s.crc = s'.crc := by rwa [hu] at h
    refine answersAlike_of_next (exec_ce hu s) (exec_ce hu s') ?_ rfl rfl ht
    rw [hu, hcrc]
    rfl
  | ec =>
    have hpend : s.unepend = s'.unepend := by rwa [hu] at h
    have hs' := exec_ec hu s'
    rw [← hpend] at hs'
    refine answersAlike_of_next (exec_ec hu s) hs' ?_ rfl rfl ht
    rw [hu]
    rfl
  | tx =>
    have hregs : s'.txRegs = s.txRegs := txRegs_of_agreeOn (by rwa [hu] at h)
    have hs' := exec_tx hu s'
    rw [hregs] at hs'
    refine answersAlike_of_next (exec_tx hu s) hs' ?_ rfl rfl ht
    rw [hu]
    exact ⟨rfl, rfl, rfl⟩
  | rx =>
    obtain ⟨r, hr, hall⟩ := exec_readsOnlyRx hi hu s t ht
    refine ⟨_, r, State.withRx_of_agreeOn (hu ▸ h) ▸ hall s', ?_, hr, rfl⟩
    rw [hu]
    exact ⟨rfl, rfl, rfl, rfl, rfl, rfl, rfl, rfl, rfl⟩

end

/-! ### The statements -/

/-- Settles O56: an operation keeps the other units and the inputs not yet taken; a wire symbol is `RX.PUT` of its first
byte with more inputs offered. -/
theorem operationsWriteOnlyTheirOwnUnit : Obligations.OperationsWriteOnlyTheirOwnUnit := by
  intro i s t h
  rw [← putInputs_eq_map]
  obtain ⟨hi, hbytes⟩ | ⟨hsym, hu, b, bs, hbytes⟩ := operation_or_symbol i
  · obtain ⟨hpend, -⟩ := exec_answeredOnce hi h
    exact ⟨exec_keepsOtherUnits hi s t h, fun hu => exec_sys_agreeOn hu h, fun _ => hpend, by rw [hbytes]; exact hpend⟩
  · rw [exec_of_symbol hbytes] at h
    obtain ⟨hpend, -⟩ := rxPut_answeredOnce h
    refine ⟨fun v hsys hv => ?_, by simp [hu], by simp [hsym], by rw [hbytes]; exact hpend⟩
    exact agreeOn_of_with_pending (rxPut_keepsOtherUnits _ b _ t h v hsys (hu ▸ hv))

/-- Settles O57, unit by unit. -/
theorem operationsReadOnlyTheirOwnUnit : Obligations.OperationsReadOnlyTheirOwnUnit :=
  fun _ _ _ _ hi h ht => exec_answersAlike hi h ht

end Sys2Proof.Machine
end

section
/-! SUPPORT. The reset signal (spec 70 R260) and the four clear operations, which commute and together write what it writes
(R261). -/

namespace Sys2Proof.Machine

/-! ### The four clear operations (40 R126, 41 R148, 42 R166, 43 R184) -/

/-- The clear operations of the four units. -/
def clearOps : List Instr := [.crcClr, .uneClr, .txClr, .rxClr]

/-- What a clear operation makes of the registers. -/
def clearRegs (s : State) : Instr → State
  | .crcClr => { s with crc := Config.INIT }
  | .uneClr => { s with unepend := false }
  | .txClr => { s with txph := .idle, txcnt := 0, txcrc := Config.INIT }
  | .rxClr => rxClear s
  | _ => s

/-- The state after a clear operation; `exec_of_mem_clearOps` ties it to the model. -/
def afterClear (s : State) (i : Instr) : State := (clearRegs s i).respond ⟨.ok, 0, []⟩

section
variable {i j : Instr} {s : State} {ops : List Instr}

theorem mem_clearOps : i ∈ clearOps ↔ i = .crcClr ∨ i = .uneClr ∨ i = .txClr ∨ i = .rxClr := by
  simp [clearOps]

theorem exec_of_mem_clearOps (hi : i ∈ clearOps) (s : State) : exec i s = .next (afterClear s i) := by
  obtain rfl | rfl | rfl | rfl := mem_clearOps.1 hi
  all_goals rfl

/-- Two clear operations write different registers, or are the same. -/
theorem afterClear_comm (hi : i ∈ clearOps) (hj : j ∈ clearOps) (s : State) :
    afterClear (afterClear s i) j = afterClear (afterClear s j) i := by
  obtain rfl | rfl | rfl | rfl := mem_clearOps.1 hi
  all_goals
    obtain rfl | rfl | rfl | rfl := mem_clearOps.1 hj
    all_goals rfl

theorem runOps_clears (hops : ∀ i ∈ ops, i ∈ clearOps) (s : State) :
    runOps ops s = .next (ops.foldl afterClear s) := by
  induction ops generalizing s with
  | nil => rfl
  | cons i ops ih =>
    rw [runOps_cons (exec_of_mem_clearOps (hops i (List.mem_cons_self ..)) s)]
    exact ih (fun j hj => hops j (List.mem_cons_of_mem i hj)) _

/-- The order of the four clear operations does not matter. -/
theorem runOps_of_perm_clearOps (h : ops.Perm clearOps) (s : State) :
    runOps ops s = .next (clearOps.foldl afterClear s) := by
  have hmem : ∀ i ∈ ops, i ∈ clearOps := fun _ => h.mem_iff.1
  rw [runOps_clears hmem, h.foldl_eq' fun i hi j hj s => (afterClear_comm (hmem i hi) (hmem j hj) s)]

/-- The four clear operations write zero to every register, and nothing is reachable in the memories. -/
theorem sameReachable_clears (s : State) : (clearOps.foldl afterClear s).SameReachable (applyReset s) :=
  ⟨rfl, rfl, rfl, rfl, rfl, rfl, rfl, rfl, rfl, rfl, rfl, rfl,
    fun _ hk => absurd hk (Nat.not_lt_zero _), fun _ hk => absurd hk (Nat.not_lt_zero _)⟩

end

/-! ### The statements -/

/-- Settles O49: both inputs are one step that resets. -/
theorem resetSignalZeroesEveryRegister : Obligations.ResetSignalZeroesEveryRegister := by
  intro s i rest hp hi
  have hstep : step s = .next (applyReset { s with pending := rest }) := by
    obtain rfl | ⟨w, rfl⟩ := hi
    · exact step_rst hp
    · exact step_cut hp
  exact ⟨_, hstep, rfl, rfl, rfl, rfl, rfl, rfl, rfl, rfl, rfl, rfl, rfl, rfl, rfl, rfl⟩

/-- Settles O50: the clear operations commute, so every order ends in the state of one of them. -/
theorem fourClearsEqualReset : Obligations.FourClearsEqualReset :=
  fun s _ h => ⟨_, runOps_of_perm_clearOps h s, sameReachable_clears s, rfl, rfl⟩

end Sys2Proof.Machine
end

section
/-! SUPPORT. A response on the signals of the response channel (spec 70 R281), bit by bit. -/

namespace Sys2Proof.Machine

theorem packedOut_cons (rc : Rc) (val : Half) (b : Byte) (out : List Byte) :
    packedOut ⟨rc, val, b :: out⟩ = (packedOut ⟨rc, val, out⟩ <<< 8) ||| b.setWidth 40 := rfl

/-- Bit `j` of output byte `k` is bit `8k+j` of the output bytes side by side. -/
theorem getLsbD_packedOut {rc : Rc} {val : Half} {out : List Byte} {k j : Nat} {b : Byte} (hb : out[k]? = some b)
    (hk : k < 5) (hj : j < 8) : (packedOut ⟨rc, val, out⟩).getLsbD (8 * k + j) = b.getLsbD j := by
  induction out generalizing k with
  | nil => cases hb
  | cons c out ih =>
    rw [packedOut_cons, BitVec.getLsbD_or, BitVec.getLsbD_shiftLeft, BitVec.getLsbD_setWidth]
    cases k with
    | zero =>
      cases hb
      simp [hj, show j < 40 by omega]
    | succ k =>
      have hrest := ih (k := k) hb (by omega)
      have hzero : c.getLsbD (8 * (k + 1) + j) = false := BitVec.getLsbD_of_ge _ _ (by omega)
      simp [hzero, show 8 * (k + 1) + j < 40 by omega, show ¬ 8 * (k + 1) + j < 8 by omega,
        show 8 * (k + 1) + j - 8 = 8 * k + j by omega, hrest]

/-- Below the output bytes the port's other lines carry nothing. -/
theorem getLsbD_rspOut (lines : BitVec 40) (r : Response) {n : Nat} (hn : n < 8 * r.out.length) :
    (rspOut lines r).getLsbD n = (packedOut r).getLsbD n := by
  simp [rspOut, hn]

/-! ### The statement -/

/-- Settles O60: the number fits three bits, and a byte on the port is compared bit by bit. -/
theorem responsePortsCarryOutputBytes : Obligations.ResponsePortsCarryOutputBytes := by
  intro lines r hlen
  refine ⟨Nat.mod_eq_of_lt (by omega), fun k b hb => BitVec.eq_of_getLsbD_eq fun j hj => ?_⟩
  have hk : k < r.out.length := (List.getElem?_eq_some_iff.1 hb).1
  rw [BitVec.getLsbD_extractLsb', getLsbD_rspOut lines r (by omega), getLsbD_packedOut hb (by omega) hj]
  simp [hj]

end Sys2Proof.Machine
end
